-- ==== Sys2Proof/Word.lean ====
section
/-! DEFINITION. The word and field widths of HUFFBLK (spec 00_scope.md R8 to R14). -/

namespace Sys2Proof

/-- A command word, CMDW = 16 bits (R12, R80). -/
abbrev CmdWord := BitVec 16

/-- A response word, RESPW = 36 bits (R12, R86). -/
abbrev RespWord := BitVec 36

/-- A symbol, SYMW = 8 bits, ordered by its unsigned value (R8). -/
abbrev Symbol := BitVec 8

/-- A frequency, FREQW = 32 bits, unsigned (R10). -/
abbrev Freq := BitVec 32

/-- A node index or a heap slot number, NODEW = 9 bits (R11). -/
abbrev NodeIdx := BitVec 9

/-- A register number of RDREG, 4 bits (R40, R81). -/
abbrev RegNum := BitVec 4

/-- One binary digit: 0 is the character '0', 1 the character '1' (R14). -/
abbrev Digit := BitVec 1

/-- A Bitstring: a finite sequence of digits, the first digit in time first (R14). -/
abbrev Bits := List Digit

end Sys2Proof
end

