-- ==== Sys2Proof/Syntax.lean ====
section
/-! DEFINITION. The fourteen commands of HUFFBLK (spec 30_encoding.md R82), one constructor per row of
spec/opcode_table.json. Every operand has exactly the width of its field of ARG (R81, R93). -/

namespace Sys2Proof

inductive Instr where
  /-- 0x1: discard the instance (R100). -/
  | reset
  /-- 0x2: count one occurrence of symbol `c` (R102). -/
  | sym (c : Symbol)
  /-- 0x3: one leaf per distinct symbol (R115). -/
  | leaves
  /-- 0x4: one greedy merge (R116). -/
  | merge
  /-- 0x5: derive the code table (R132). -/
  | codegen
  /-- 0x6: the whole construction (R117). -/
  | build
  /-- 0x7: emit the code of symbol `c` (R141). -/
  | enc (c : Symbol)
  /-- 0x8: take one input digit (R147). -/
  | dbit (b : Digit)
  /-- 0x9: end of the input Bitstring (R149). -/
  | dend
  /-- 0xA: read register `r` (R160). -/
  | rdreg (r : RegNum)
  /-- 0xB: read the count of symbol `c` (R161). -/
  | rdfreq (c : Symbol)
  /-- 0xC: read tree node `i` (R162). -/
  | rdnode (i : NodeIdx)
  /-- 0xD: read heap slot `j` (R163). -/
  | rdheap (j : NodeIdx)
  /-- 0xE: read the code of symbol `c` (R136). -/
  | rdcode (c : Symbol)
  deriving DecidableEq, Repr

end Sys2Proof
end

