-- ==== Sys2Proof/WellFormed.lean ====
section
/-! DEFINITION. Which command words are legal (spec 30_encoding.md R82, R83), by the mask and match columns of the
opcode map; written from that table alone, so that the decoder, written from the operand forms of R81, can be
held against it. -/

namespace Sys2Proof

/-- One row of the opcode map of R82: a word `w` is the command exactly when `w AND mask = pattern`. -/
structure OpRow where
  mnemonic : String
  mask     : CmdWord
  pattern  : CmdWord
  deriving DecidableEq, Repr

/-- The row of each command (R82). -/
def opRow : Instr → OpRow
  | .reset    => ⟨"RESET",   0xFFFF#16, 0x1000#16⟩
  | .sym _    => ⟨"SYM",     0xFF00#16, 0x2000#16⟩
  | .leaves   => ⟨"LEAVES",  0xFFFF#16, 0x3000#16⟩
  | .merge    => ⟨"MERGE",   0xFFFF#16, 0x4000#16⟩
  | .codegen  => ⟨"CODEGEN", 0xFFFF#16, 0x5000#16⟩
  | .build    => ⟨"BUILD",   0xFFFF#16, 0x6000#16⟩
  | .enc _    => ⟨"ENC",     0xFF00#16, 0x7000#16⟩
  | .dbit _   => ⟨"DBIT",    0xFFFE#16, 0x8000#16⟩
  | .dend     => ⟨"DEND",    0xFFFF#16, 0x9000#16⟩
  | .rdreg _  => ⟨"RDREG",   0xFFF0#16, 0xA000#16⟩
  | .rdfreq _ => ⟨"RDFREQ",  0xFF00#16, 0xB000#16⟩
  | .rdnode _ => ⟨"RDNODE",  0xFE00#16, 0xC000#16⟩
  | .rdheap _ => ⟨"RDHEAP",  0xFE00#16, 0xD000#16⟩
  | .rdcode _ => ⟨"RDCODE",  0xFF00#16, 0xE000#16⟩

/-- The opcode map, one row per command (R82). -/
def opcodeMap : List OpRow :=
  [opRow .reset, opRow (.sym 0), opRow .leaves, opRow .merge, opRow .codegen, opRow .build, opRow (.enc 0),
   opRow (.dbit 0), opRow .dend, opRow (.rdreg 0), opRow (.rdfreq 0), opRow (.rdnode 0), opRow (.rdheap 0),
   opRow (.rdcode 0)]

/-- `w` is the command of row `r`. -/
def OpRow.accepts (r : OpRow) (w : CmdWord) : Bool := w &&& r.mask == r.pattern

/-- `w` is a legal command word: some row accepts it (R83). -/
def wordLegal (w : CmdWord) : Bool := opcodeMap.any (·.accepts w)

/-- A value placed in the word stays clear of the bits the row fixes (the opcode and the must-be-zero bits of R81). -/
def OpRow.operandFits (r : OpRow) (x : CmdWord) : Bool := x &&& r.mask == 0

/-- The operand of a command as it lies in the word (R81: the low bits of ARG, unsigned); 0 where it has none. -/
def Instr.operandWord : Instr → CmdWord
  | .reset | .leaves | .merge | .codegen | .build | .dend => 0
  | .sym c | .enc c | .rdfreq c | .rdcode c => c.setWidth 16
  | .dbit b => b.setWidth 16
  | .rdreg r => r.setWidth 16
  | .rdnode i => i.setWidth 16
  | .rdheap j => j.setWidth 16

/-- A command is well formed: its operand fits its field. The operand types of `Instr` have the fields' widths, so
every term passes (Laws/Encoding.lean); the check that can fail is `operandFits` on a word, and `wordLegal`. -/
def Instr.wellFormed (i : Instr) : Bool := (opRow i).operandFits i.operandWord

end Sys2Proof
end

