-- ==== Sys2Proof/Decode.lean ====
section
/-! DEFINITION. The decoder and the encoder of command words (spec 30_encoding.md R80 to R85, R93), written from the
operand forms of R81. A command is one 16-bit word; the decoder is total and refuses by name. -/

namespace Sys2Proof

/-- Why a word is illegal (R83). -/
inductive Reject where
  /-- OP is 0x0 or 0xF, which select no command. -/
  | unassignedOpcode
  /-- A must-be-zero bit of ARG is 1. -/
  | mustBeZero
  deriving DecidableEq, Repr

/-- OP, bits [15:12] (R80). -/
def opField (w : CmdWord) : BitVec 4 := w.extractLsb' 12 4

/-- ARG, bits [11:0] (R80). -/
def argField (w : CmdWord) : BitVec 12 := w.extractLsb' 0 12

/-- The operand in the low `n` bits of ARG, when every other ARG bit is zero (R81). The form `none` has `n = 0`. -/
def operand (n : Nat) (arg : BitVec 12) : Except Reject (BitVec n) :=
  if arg >>> n = 0#12 then .ok (arg.setWidth n) else .error .mustBeZero

/-- The command whose operand has `n` bits, or the refusal of its ARG. -/
def withOperand (n : Nat) (arg : BitVec 12) (mk : BitVec n → Instr) : Except Reject Instr :=
  match operand n arg with
  | .ok x => .ok (mk x)
  | .error e => .error e

/-- Decode one command word (R80 to R83): from these 16 bits alone, the same in every phase. -/
def decode (w : CmdWord) : Except Reject Instr :=
  match (opField w).toNat with
  | 0x1 => withOperand 0 (argField w) (fun _ => .reset)
  | 0x2 => withOperand 8 (argField w) .sym
  | 0x3 => withOperand 0 (argField w) (fun _ => .leaves)
  | 0x4 => withOperand 0 (argField w) (fun _ => .merge)
  | 0x5 => withOperand 0 (argField w) (fun _ => .codegen)
  | 0x6 => withOperand 0 (argField w) (fun _ => .build)
  | 0x7 => withOperand 8 (argField w) .enc
  | 0x8 => withOperand 1 (argField w) .dbit
  | 0x9 => withOperand 0 (argField w) (fun _ => .dend)
  | 0xA => withOperand 4 (argField w) .rdreg
  | 0xB => withOperand 8 (argField w) .rdfreq
  | 0xC => withOperand 9 (argField w) .rdnode
  | 0xD => withOperand 9 (argField w) .rdheap
  | 0xE => withOperand 8 (argField w) .rdcode
  | _   => .error .unassignedOpcode

/-- A word from its two fields (R80). -/
def commandWord (op : BitVec 4) (arg : BitVec 12) : CmdWord := op ++ arg

/-- The word of a command (R82): its opcode, its operand in the low bits of ARG, every other bit zero. -/
def encode : Instr → CmdWord
  | .reset    => commandWord 0x1 0
  | .sym c    => commandWord 0x2 (c.setWidth 12)
  | .leaves   => commandWord 0x3 0
  | .merge    => commandWord 0x4 0
  | .codegen  => commandWord 0x5 0
  | .build    => commandWord 0x6 0
  | .enc c    => commandWord 0x7 (c.setWidth 12)
  | .dbit b   => commandWord 0x8 (b.setWidth 12)
  | .dend     => commandWord 0x9 0
  | .rdreg r  => commandWord 0xA (r.setWidth 12)
  | .rdfreq c => commandWord 0xB (c.setWidth 12)
  | .rdnode i => commandWord 0xC (i.setWidth 12)
  | .rdheap j => commandWord 0xD (j.setWidth 12)
  | .rdcode c => commandWord 0xE (c.setWidth 12)

/-- The command word whose low `nbits` bits are those of `w` and whose other bits are 0. -/
def tableWord (nbits w : Nat) : CmdWord := BitVec.ofNat 16 (w % 2 ^ nbits)

/-- The instruction the decoder reads from the bits of a row of spec/opcode_table.json. -/
def decodeTableWord (nbits w : Nat) : Option Instr :=
  match decode (tableWord nbits w) with
  | .ok i => some i
  | .error _ => none

end Sys2Proof
end

