-- ==== Sys2Proof/Config.lean ====
section
/-! DEFINITION. The parameters the spec fixes (00_scope.md R8 to R12) and the one it leaves open, `charmap` (R9).
The block draws no free value: every word in every state has exactly one outcome (60_exceptions.md R191). -/

namespace Sys2Proof

/-- NSYM, the number of symbol values (R8). -/
abbrev Config.nsym : Nat := 256

/-- NNODE_MAX, the number of entries of the node store (R11). -/
abbrev Config.nnodeMax : Nat := 511

/-- HEAP_MAX, the number of heap slots (R11). -/
abbrev Config.heapMax : Nat := 256

/-- CODELEN_MAX, the number of digit cells of a code (R11, R29). -/
abbrev Config.codelenMax : Nat := 255

/-- ACC_MAX, the capacity of the decoder's accumulator (R11, R148). -/
abbrev Config.accMax : Nat := 255

/-- The largest total count, 2^32 - 1 (R10, R103). -/
abbrev Config.totalMax : Freq := 0xFFFFFFFF#32

/-- `charmap`, the host's map from the characters of its texts to symbols: the spec's one open parameter
(R9, 92_eei_decisions.md D24; log entry 11). Only host-side definitions use it. The host's duty that it is
injective on the texts used is no fact of the model. -/
opaque Config.charmap : Char → Symbol

end Sys2Proof
end

