-- ==== Sys2Proof/Machine/State.lean ====
section
/-! DEFINITION. The state of HUFFBLK (spec 10_state.md R20 to R34), the two ports beside it (30_encoding.md R80, R86),
the reasons a step can stop, and reset (10_state.md R50, 70_reset_and_hazards.md R200). -/

namespace Sys2Proof.Machine

/-- The lifecycle register PHASE (R21): three values, 3 is never held. -/
inductive Phase where
  /-- 0: the frequency table is being collected. -/
  | count
  /-- 1: the leaves are in the heap, greedy merges in progress. -/
  | merge
  /-- 2: the tree and the code table are complete and immutable. -/
  | ready
  deriving DecidableEq, Repr

/-- A tree node (R16, R24). -/
inductive Node where
  | leaf (sym : Symbol) (freq : Freq)
  | internal (freq : Freq) (left right : NodeIdx)
  deriving DecidableEq, Repr

/-- What the host presents to the block (70_reset_and_hazards.md R210): a command word or the reset signal. -/
inductive HostEvent where
  | word (w : CmdWord)
  | hardReset
  deriving DecidableEq, Repr

/-- The errors a command can raise (60_exceptions.md R171). They are outcomes with a next state, not faults. -/
inductive ErrKind where
  /-- 1, the document's: construction with no symbols (R172). -/
  | emptyInput
  /-- 2, the document's: ENC of a symbol without a code, which it names (R173). -/
  | unknownSymbol (c : Symbol)
  /-- 3, the document's: DEND with a non-empty accumulator (R174). -/
  | malformedBitstream
  /-- 4, the spec's: an illegal word (R175). -/
  | illegalCommand
  /-- 5, the spec's: a command out of its phase (R176). -/
  | phaseError
  /-- 6, the spec's: SYM at TOTAL = 2^32 - 1 (R177). -/
  | capacity
  /-- 7, the spec's: a read-out operand that names nothing (R178). -/
  | range
  deriving DecidableEq, Repr

/-- The kinds of response (30_encoding.md R87). -/
inductive Response where
  | done
  | err (code : BitVec 3) (info : Symbol)
  | bit (b : Digit)
  | symb (c : Symbol)
  | data (v : BitVec 32)
  deriving DecidableEq, Repr

/-- The reasons a step can stop. Each stands for a read or a write of an entry that holds no value or does not exist,
which no command makes in a state that a run from reset reaches (10_state.md R51, R53; log entry 6). All are safe: the
model stops where the spec gives no value. -/
inductive Fault where
  /-- A heap slot or a node entry that holds no value is read (R53). Raised by the heap primitives (LEAVES, MERGE,
  BUILD) and by the walk (CODEGEN, BUILD). Safe. -/
  | noValue
  /-- A node entry above 510 or a heap slot above 255 would be written, which do not exist (R61). Raised by LEAVES,
  MERGE and BUILD. Safe. -/
  | noEntry
  /-- The walk of CODEGEN or BUILD meets a path longer than the node store, which a tree whose children have smaller
  indices than their parent does not have (R26). Safe. -/
  | endlessWalk
  /-- The walk of CODEGEN or BUILD gives a code that is empty or has more than 255 digits, for which CODE has no cells
  (R29). Safe. -/
  | codeTooLong
  deriving DecidableEq, Repr

/-- Reasons for having no meaning. -/
inductive Refusal where
  /-- An instruction the model gives no meaning. Raised by no arm of `exec`: every command has its meaning. Safe. -/
  | notModelled (mnemonic : String)
  deriving DecidableEq, Repr

/-- Everything the spec gives the machine (R20). NNODE and HEAPN are the lengths of `nodes` and `heap`, so that an
entry at or above the count holds no value (R53; log entry 4). `resp` and `port` are the model's own: the two ports,
which the spec does not count as state of the block (R20; log entries 1 and 3). -/
structure State where
  /-- PHASE (R21). -/
  phase   : Phase
  /-- FREQ[0..255] (R22). -/
  freq    : Vector Freq 256
  /-- TOTAL (R23). -/
  total   : Freq
  /-- NODE[0..NNODE-1] (R24). -/
  nodes   : List Node
  /-- NLEAF (R25). -/
  nleaf   : BitVec 9
  /-- HEAP[0..HEAPN-1] (R28). -/
  heap    : List NodeIdx
  /-- ROOT (R27). -/
  root    : NodeIdx
  /-- CODE[0..255] (R29): `none` is valid = 0, `some b` is valid = 1, bits = b, len = |b|. -/
  code    : Vector (Option Bits) 256
  /-- ACC (R31). -/
  acc     : Bits
  /-- ACCOVF (R31). -/
  accovf  : Bool
  /-- LASTERR (R42). -/
  lasterr : BitVec 3
  /-- ERRSYM (R42). -/
  errsym  : Symbol
  /-- The response stream, in order (R86). -/
  resp    : List RespWord
  /-- What the host has presented and the block has not yet taken, oldest first (R210). -/
  port    : List HostEvent
  deriving DecidableEq, Repr

/-- The state right after hardware reset (R50, R200): every value is the spec's, the response stream is empty and the
host has presented nothing. -/
def State.reset : State where
  phase   := .count
  freq    := Vector.replicate 256 0
  total   := 0
  nodes   := []
  nleaf   := 0
  heap    := []
  root    := 0
  code    := Vector.replicate 256 none
  acc     := []
  accovf  := false
  lasterr := 0
  errsym  := 0
  resp    := []
  port    := []

end Sys2Proof.Machine
end

