-- ==== Sys2Proof/Machine/Ops.lean ====
section
/-! DEFINITION. The named operations over the state: the tables indexed by symbol (spec 20_memory.md R61), the response
stream (30_encoding.md R86 to R88), raising an error (60_exceptions.md R180), the node store (10_state.md R24) and
reset (R50). -/

namespace Sys2Proof.Machine

/-- The outcome of a meaning or a step. -/
abbrev Out := Host.Outcome State Fault Refusal

/-! ### The two tables indexed by symbol: every 8-bit value is in range (R64) -/

/-- `T[c]` for a table T of 256 entries. -/
def tableGet {α : Type} (t : Vector α 256) (c : Symbol) : α := t[c.toNat]'c.isLt

/-- `T[c] <- x` for a table T of 256 entries. -/
def tableSet {α : Type} (t : Vector α 256) (c : Symbol) (x : α) : Vector α 256 := t.set c.toNat x c.isLt

/-- The symbols 0..255, ascending (R15). -/
def allSymbols : List Symbol := (List.range 256).map (BitVec.ofNat 8)

/-! ### Fill counts -/

/-- NNODE (R24). -/
def State.nnode (s : State) : Nat := s.nodes.length

/-- HEAPN (R28). -/
def State.heapn (s : State) : Nat := s.heap.length

/-- ACCLEN (R31). -/
def State.acclen (s : State) : Nat := s.acc.length

/-- The frequency of a node of either kind (R16). -/
def Node.freqOf : Node → Freq
  | .leaf _ f => f
  | .internal f _ _ => f

/-! ### The response stream -/

/-- A response word from TAG, bits [35:32], and PAYLOAD, bits [31:0] (R86). -/
def responseWord (tag : BitVec 4) (payload : BitVec 32) : RespWord := tag ++ payload

/-- The word of a response: payload bits not named are 0 (R87). -/
def encodeResponse : Response → RespWord
  | .done => responseWord 0x0 0
  | .err code info => responseWord 0x1 ((info.setWidth 32 <<< 8) ||| code.setWidth 32)
  | .bit b => responseWord 0x2 (b.setWidth 32)
  | .symb c => responseWord 0x3 (c.setWidth 32)
  | .data v => responseWord 0x4 v

/-- `emit r` for each response of the list, in order (R86): the block never removes, reorders or rewrites a word. -/
def emitAll (rs : List Response) (s : State) : State := { s with resp := s.resp ++ rs.map encodeResponse }

/-- A command that ends without error: its responses, then the terminator DONE (R88, R89). -/
def complete (rs : List Response) (s : State) : Out := .next (emitAll (rs ++ [.done]) s)

/-- One BIT response per digit, first digit first (R63, R87). -/
def bitResponses (b : Bits) : List Response := b.map .bit

/-! ### Errors -/

/-- The code of an error (R171). -/
def errCode : ErrKind → BitVec 3
  | .emptyInput => 1
  | .unknownSymbol _ => 2
  | .malformedBitstream => 3
  | .illegalCommand => 4
  | .phaseError => 5
  | .capacity => 6
  | .range => 7

/-- The info of an error's ERR word: the offending symbol of UnknownSymbolError, 0 for every other (R87, R171). -/
def errInfo : ErrKind → Symbol
  | .unknownSymbol c => c
  | .emptyInput | .malformedBitstream | .illegalCommand | .phaseError | .capacity | .range => 0

/-- ERRSYM after an error: only UnknownSymbolError writes it (R42, R180). -/
def errsymAfter (e : ErrKind) (old : Symbol) : Symbol :=
  match e with
  | .unknownSymbol c => c
  | .emptyInput | .malformedBitstream | .illegalCommand | .phaseError | .capacity | .range => old

/-- The state after `raise e` (R180): LASTERR, ERRSYM for code 2, and the ERR word as the only response. Nothing is
saved, nothing is vectored, and there is no return from an error (R182). -/
def raiseState (e : ErrKind) (s : State) : State :=
  emitAll [.err (errCode e) (errInfo e)] { s with lasterr := errCode e, errsym := errsymAfter e s.errsym }

/-- `raise e`: the command ends there, with a next state (R180, R191). -/
def raise (e : ErrKind) (s : State) : Out := .next (raiseState e s)

/-- A command whose body may meet an entry that holds no value: DONE after the body, or the model's fault. -/
def completeBody : Except Fault State → Out
  | .ok s => complete [] s
  | .error f => .fault f

/-! ### The node store -/

/-- NODE[i], when it holds a value (R24, R53). -/
def nodeAt (nodes : List Node) (i : NodeIdx) : Option Node := nodes[i.toNat]?

/-- NODE[i] as a body reads it: a fault where the entry holds no value (R53). -/
def readNode (nodes : List Node) (i : NodeIdx) : Except Fault Node :=
  match nodeAt nodes i with
  | some n => .ok n
  | none => .error .noValue

/-- `NODE[NNODE] <- n; NNODE <- NNODE + 1` (R115, R116), with the index of the new node. -/
def pushNode (n : Node) (s : State) : Except Fault (NodeIdx × State) :=
  if s.nodes.length < Config.nnodeMax then
    .ok (BitVec.ofNat 9 s.nodes.length, { s with nodes := s.nodes ++ [n] })
  else .error .noEntry

/-! ### Reset -/

/-- Every piece of the block's state at its reset value (R50); the two ports are not the block's (R20). -/
def resetBlock (s : State) : State := { State.reset with resp := s.resp, port := s.port }

/-- Hardware reset (R200): as RESET, and the response stream is emptied; no response is produced. -/
def hardwareReset (s : State) : State := { resetBlock s with resp := [] }

end Sys2Proof.Machine
end

