-- ==== Sys2Proof/Machine/Flags.lean ====
section
/-! DEFINITION. The two status flags and the STATUS register (spec 10_state.md R33, R41). There are no carry, zero, sign
or overflow condition codes. -/

namespace Sys2Proof.Machine

/-- The code of a phase in PHASE and in STATUS[1:0] (R21, R41). -/
def phaseCode : Phase → BitVec 2
  | .count => 0
  | .merge => 1
  | .ready => 2

/-- ACCNE: 1 exactly when the accumulator is not empty (R33). -/
def accne (s : State) : Bool := !s.acc.isEmpty

/-- STATUS: PHASE in [1:0], ACCNE in [2], ACCOVF in [3], the rest 0 (R41). -/
def statusWord (s : State) : BitVec 32 :=
  ((BitVec.ofBool s.accovf ++ BitVec.ofBool (accne s)) ++ phaseCode s.phase).setWidth 32

end Sys2Proof.Machine
end

