-- ==== Sys2Proof/Machine/Operands.lean ====
section
/-! DEFINITION. What each operand form names (spec 30_encoding.md R93, 20_memory.md R61): a symbol is an index of FREQ
or CODE, a digit is appended to ACC, a register, node or slot number is compared with its range and then used. -/

namespace Sys2Proof.Machine

/-- FREQ[c] (R22). -/
def freqOperand (c : Symbol) (s : State) : Freq := tableGet s.freq c

/-- CODE[c], `none` when valid = 0 (R29). -/
def codeOperand (c : Symbol) (s : State) : Option Bits := tableGet s.code c

/-- NODE[i], `none` when i ≥ NNODE (R162). -/
def nodeOperand (i : NodeIdx) (s : State) : Option Node := nodeAt s.nodes i

/-- HEAP[j], `none` when j ≥ HEAPN (R163). -/
def heapOperand (j : NodeIdx) (s : State) : Option NodeIdx := s.heap[j.toNat]?

/-- The value of register r zero-extended to 32 bits, `none` for the numbers 9 to 15, which name no register (R40). -/
def registerOperand (r : RegNum) (s : State) : Option (BitVec 32) :=
  match r.toNat with
  | 0 => some (statusWord s)
  | 1 => some (s.lasterr.setWidth 32)
  | 2 => some (s.errsym.setWidth 32)
  | 3 => some s.total
  | 4 => some (s.nleaf.setWidth 32)
  | 5 => some (BitVec.ofNat 32 s.nnode)
  | 6 => some (s.root.setWidth 32)
  | 7 => some (BitVec.ofNat 32 s.heapn)
  | 8 => some (BitVec.ofNat 32 s.acclen)
  | _ => none

/-- The digit operand appended to the accumulator (R93, R147). -/
def appendDigit (b : Digit) (s : State) : Bits := s.acc ++ [b]

end Sys2Proof.Machine
end

