-- ==== Sys2Proof/Machine/CodeTable.lean ====
section
/-! DEFINITION. CODEGEN and RDCODE (spec 42_code_table.md). -/

namespace Sys2Proof.Machine

/-- The records Assign(n, p) writes, left subtree first (R131); the order of the writes cannot be observed (R135). The
first number bounds the depth of the walk: NNODE nodes suffice, since a child's index is below its parent's (R26). -/
def pathCodes (nodes : List Node) : Nat → NodeIdx → Bits → Except Fault (List (Symbol × Bits))
  | 0, _, _ => .error .endlessWalk
  | depth + 1, n, p =>
    match nodeAt nodes n with
    | none => .error .noValue
    | some (.leaf c _) => .ok [(c, p)]
    | some (.internal _ l r) =>
      match pathCodes nodes depth l (p ++ [0]), pathCodes nodes depth r (p ++ [1]) with
      | .ok a, .ok b => .ok (a ++ b)
      | .error f, _ => .error f
      | _, .error f => .error f

/-- The records CODEGEN writes for a root: one digit 0 for a root that is a leaf (R133), else the path codes (R132). -/
def rootCodes (nodes : List Node) (root : NodeIdx) : Except Fault (List (Symbol × Bits)) :=
  match nodeAt nodes root with
  | none => .error .noValue
  | some (.leaf c _) => .ok [(c, [0])]
  | some (.internal _ _ _) => pathCodes nodes nodes.length root []

/-- `CODE[c] <- {valid = 1, len = |p|, bits = p}` for each record (R131); CODE has 255 digit cells (R29). -/
def recordCodes : List (Symbol × Bits) → Vector (Option Bits) 256 → Except Fault (Vector (Option Bits) 256)
  | [], code => .ok code
  | (c, p) :: rest, code =>
    if p.length = 0 ∨ p.length > Config.codelenMax then .error .codeTooLong
    else recordCodes rest (tableSet code c (some p))

/-- The body of CODEGEN after its test, without its emit (R132, used by R117). -/
def codegenBody (s : State) : Except Fault State :=
  match s.heap[0]? with
  | none => .error .noValue
  | some root =>
    match rootCodes s.nodes root with
    | .error f => .error f
    | .ok records =>
      match recordCodes records s.code with
      | .error f => .error f
      | .ok code => .ok { s with root := root, code := code, acc := [], accovf := false, phase := .ready }

/-- CODEGEN (R132). -/
def execCodegen (s : State) : Out :=
  if s.phase ≠ .merge ∨ s.heapn ≠ 1 then raise .phaseError s
  else completeBody (codegenBody s)

/-- RDCODE c (R136): the length and the digits, or the length 0 of an absent symbol. -/
def execRdcode (c : Symbol) (s : State) : Out :=
  if s.phase ≠ .ready then raise .phaseError s
  else
    match codeOperand c s with
    | some p => complete (.data (BitVec.ofNat 32 p.length) :: bitResponses p) s
    | none => complete [.data 0] s

end Sys2Proof.Machine
end

