-- ==== Sys2Proof/Machine/Decoder.lean ====
section
/-! DEFINITION. DBIT and DEND (spec 44_decoder.md). -/

namespace Sys2Proof.Machine

/-- Match(a) (R146): the symbol whose code is exactly `a`. Where no two valid codes are equal, as after every
construction (R134), there is at most one; the search ascends (log entry 7). -/
def matchCode (code : Vector (Option Bits) 256) (a : Bits) : Option Symbol :=
  allSymbols.find? (fun c => tableGet code c == some a)

/-- DBIT b (R147, R148). -/
def execDbit (b : Digit) (s : State) : Out :=
  if s.phase ≠ .ready then raise .phaseError s
  else if s.accovf = true ∨ s.acclen = Config.accMax then complete [] { s with accovf := true }
  else
    match matchCode s.code (appendDigit b s) with
    | some c => complete [.symb c] { s with acc := [] }
    | none => complete [] { s with acc := appendDigit b s }

/-- DEND (R149): a non-empty accumulator is cleared before the error is raised. -/
def execDend (s : State) : Out :=
  if s.phase ≠ .ready then raise .phaseError s
  else if s.acclen ≠ 0 then raise .malformedBitstream { s with acc := [], accovf := false }
  else complete [] s

end Sys2Proof.Machine
end

