-- ==== Sys2Proof/Machine/Encoder.lean ====
section
/-! DEFINITION. ENC (spec 43_encoder.md). -/

namespace Sys2Proof.Machine

/-- ENC c (R141): the digits of CODE[c], or UnknownSymbolError naming c and no BIT word. -/
def execEnc (c : Symbol) (s : State) : Out :=
  if s.phase ≠ .ready then raise .phaseError s
  else
    match codeOperand c s with
    | none => raise (.unknownSymbol c) s
    | some p => complete (bitResponses p) s

end Sys2Proof.Machine
end

