-- ==== Sys2Proof/Machine/Frequency.lean ====
section
/-! DEFINITION. RESET and SYM (spec 40_frequency.md). -/

namespace Sys2Proof.Machine

/-- RESET (R100): legal in every phase; earlier responses stay in the stream. -/
def execReset (s : State) : Out := complete [] (resetBlock s)

/-- SYM c (R102 to R105). -/
def execSym (c : Symbol) (s : State) : Out :=
  if s.phase ≠ .count then raise .phaseError s
  else if s.total = Config.totalMax then raise .capacity s
  else complete [] { s with freq := tableSet s.freq c (freqOperand c s + 1), total := s.total + 1 }

end Sys2Proof.Machine
end

