-- ==== Sys2Proof/Machine/Readout.lean ====
section
/-! DEFINITION. RDREG, RDFREQ, RDNODE and RDHEAP (spec 45_readout.md): legal in every phase, no side effect (R164). -/

namespace Sys2Proof.Machine

/-- RDREG r (R160). -/
def execRdreg (r : RegNum) (s : State) : Out :=
  match registerOperand r s with
  | none => raise .range s
  | some v => complete [.data v] s

/-- RDFREQ c (R161). -/
def execRdfreq (c : Symbol) (s : State) : Out := complete [.data (freqOperand c s)] s

/-- The four DATA words of a node: kind, freq, a, b (R162, R24). -/
def nodeResponses : Node → List Response
  | .leaf c f => [.data 0, .data f, .data (c.setWidth 32), .data 0]
  | .internal f l r => [.data 1, .data f, .data (l.setWidth 32), .data (r.setWidth 32)]

/-- RDNODE i (R162). -/
def execRdnode (i : NodeIdx) (s : State) : Out :=
  match nodeOperand i s with
  | none => raise .range s
  | some n => complete (nodeResponses n) s

/-- RDHEAP j (R163). -/
def execRdheap (j : NodeIdx) (s : State) : Out :=
  match heapOperand j s with
  | none => raise .range s
  | some n => complete [.data (n.setWidth 32)] s

end Sys2Proof.Machine
end

