-- ==== Sys2Proof/Machine/Heap.lean ====
section
/-! DEFINITION. The key order and the heap primitives of the tree builder (spec 41_tree_builder.md R111 to R114), over
the node store and the list of occupied slots. A read of a slot or a node that holds no value is a fault (R53), which
no state that a run reaches meets. -/

namespace Sys2Proof.Machine

/-- HeapLess on two nodes with their indices: keys (frequency, index), lexicographic, unsigned (R111). -/
def keyLess (f : Freq) (m : NodeIdx) (g : Freq) (n : NodeIdx) : Bool :=
  decide (f < g ∨ (f = g ∧ m < n))

/-- HeapLess(m, n) (R111). -/
def heapLess (nodes : List Node) (m n : NodeIdx) : Except Fault Bool :=
  match nodeAt nodes m, nodeAt nodes n with
  | some a, some b => .ok (keyLess a.freqOf m b.freqOf n)
  | _, _ => .error .noValue

/-- HeapLess(HEAP[a], HEAP[b]) (R112, R113). -/
def slotLess (nodes : List Node) (heap : List NodeIdx) (a b : Nat) : Except Fault Bool :=
  match heap[a]?, heap[b]? with
  | some m, some n => heapLess nodes m n
  | _, _ => .error .noValue

/-- `swap HEAP[a] and HEAP[b]` (R112, R113). -/
def swapSlots (heap : List NodeIdx) (a b : Nat) : List NodeIdx :=
  match heap[a]?, heap[b]? with
  | some m, some n => (heap.set a n).set b m
  | _, _ => heap

/-- The parent of slot j, floor((j - 1) / 2) (R112). -/
def parentSlot (j : Nat) : Nat := (j - 1) >>> 1

/-- The sift-up loop of R112 from slot j. The first argument bounds the turns; j turns suffice, since the parent of a
slot j > 0 is below j. -/
def siftUp (nodes : List Node) : Nat → Nat → List NodeIdx → Except Fault (List NodeIdx)
  | 0, _, heap => .ok heap
  | turns + 1, j, heap =>
    if j = 0 then .ok heap
    else
      match slotLess nodes heap j (parentSlot j) with
      | .error f => .error f
      | .ok true => siftUp nodes turns (parentSlot j) (swapSlots heap j (parentSlot j))
      | .ok false => .ok heap

/-- HeapInsert(n) on the slots (R112): the first free slot, then sift up. There are 256 slots. -/
def heapInsert (nodes : List Node) (n : NodeIdx) (heap : List NodeIdx) : Except Fault (List NodeIdx) :=
  if heap.length < Config.heapMax then siftUp nodes heap.length heap.length (heap ++ [n])
  else .error .noEntry

/-- `if c < HEAPN and HeapLess(HEAP[c], HEAP[m]): m <- c` (R113). -/
def lesserSlot (nodes : List Node) (heap : List NodeIdx) (c m : Nat) : Except Fault Nat :=
  if c < heap.length then
    match slotLess nodes heap c m with
    | .error f => .error f
    | .ok true => .ok c
    | .ok false => .ok m
  else .ok m

/-- The least of slot j and its children, the left child tested first (R113). -/
def leastOfFamily (nodes : List Node) (heap : List NodeIdx) (j : Nat) : Except Fault Nat :=
  match lesserSlot nodes heap (2 * j + 1) j with
  | .error f => .error f
  | .ok m => lesserSlot nodes heap (2 * j + 2) m

/-- The sift-down loop of R113 from slot j. The first argument bounds the turns; HEAPN turns suffice, since a child's
slot is above its parent's. -/
def siftDown (nodes : List Node) : Nat → Nat → List NodeIdx → Except Fault (List NodeIdx)
  | 0, _, heap => .ok heap
  | turns + 1, j, heap =>
    match leastOfFamily nodes heap j with
    | .error f => .error f
    | .ok m => if m = j then .ok heap else siftDown nodes turns m (swapSlots heap j m)

/-- HeapExtractMin() on the slots (R113): the node of slot 0, and the slots after it. -/
def heapExtractMin (nodes : List Node) (heap : List NodeIdx) : Except Fault (NodeIdx × List NodeIdx) :=
  match heap with
  | [] => .error .noValue
  | r :: rest =>
    match rest.getLast? with
    | none => .ok (r, [])
    | some last =>
      match siftDown nodes rest.length 0 (last :: rest.dropLast) with
      | .error f => .error f
      | .ok heap' => .ok (r, heap')

/-- `NODE[NNODE] <- n; NNODE <- NNODE + 1; HeapInsert(NNODE - 1)`, as LEAVES and MERGE do it (R115, R116). -/
def createNode (n : Node) (s : State) : Except Fault State :=
  match pushNode n s with
  | .error f => .error f
  | .ok (i, s') =>
    match heapInsert s'.nodes i s'.heap with
    | .error f => .error f
    | .ok heap' => .ok { s' with heap := heap' }

end Sys2Proof.Machine
end

