-- ==== Sys2Proof/Machine/TreeBuilder.lean ====
section
/-! DEFINITION. LEAVES, MERGE and BUILD (spec 41_tree_builder.md). -/

namespace Sys2Proof.Machine

/-- `for s in ... ascending: if FREQ[s] != 0: NODE[NNODE] <- Leaf(s, FREQ[s]); NNODE + 1; HeapInsert(NNODE - 1)`
(R115). -/
def insertLeaves : List Symbol → State → Except Fault State
  | [], s => .ok s
  | c :: rest, s =>
    if freqOperand c s = 0 then insertLeaves rest s
    else
      match createNode (.leaf c (freqOperand c s)) s with
      | .error f => .error f
      | .ok s' => insertLeaves rest s'

/-- The body of LEAVES after its two tests, without its emit (R115, used by R117). -/
def leavesBody (s : State) : Except Fault State :=
  match insertLeaves allSymbols s with
  | .error f => .error f
  | .ok s' => .ok { s' with nleaf := BitVec.ofNat 9 s'.nnode, phase := .merge }

/-- The body of MERGE after its test, without its emit (R116, used by R117): the first extracted is the left child. -/
def mergeBody (s : State) : Except Fault State :=
  match heapExtractMin s.nodes s.heap with
  | .error f => .error f
  | .ok (a, heap1) =>
    match heapExtractMin s.nodes heap1 with
    | .error f => .error f
    | .ok (b, heap2) =>
      match readNode s.nodes a, readNode s.nodes b with
      | .ok na, .ok nb => createNode (.internal (na.freqOf + nb.freqOf) a b) { s with heap := heap2 }
      | .error f, _ => .error f
      | _, .error f => .error f

/-- `while HEAPN > 1: the body of MERGE` (R117). The number bounds the turns: HEAPN turns suffice, since each merge
lowers HEAPN by one (R119). -/
def mergeAll : Nat → State → Except Fault State
  | 0, s => .ok s
  | turns + 1, s =>
    if s.heapn > 1 then
      match mergeBody s with
      | .error f => .error f
      | .ok s' => mergeAll turns s'
    else .ok s

/-- The body of BUILD after its two tests (R117). -/
def buildBody (s : State) : Except Fault State :=
  match leavesBody s with
  | .error f => .error f
  | .ok s1 =>
    match mergeAll s1.heapn s1 with
    | .error f => .error f
    | .ok s2 => codegenBody s2

/-- LEAVES (R115). -/
def execLeaves (s : State) : Out :=
  if s.phase ≠ .count then raise .phaseError s
  else if s.total = 0 then raise .emptyInput s
  else completeBody (leavesBody s)

/-- MERGE (R116). -/
def execMerge (s : State) : Out :=
  if s.phase ≠ .merge ∨ s.heapn < 2 then raise .phaseError s
  else completeBody (mergeBody s)

/-- BUILD (R117): exactly one DONE; it does everything or nothing. -/
def execBuild (s : State) : Out :=
  if s.phase ≠ .count then raise .phaseError s
  else if s.total = 0 then raise .emptyInput s
  else completeBody (buildBody s)

end Sys2Proof.Machine
end

