-- ==== Sys2Proof/Machine/Dispatch.lean ====
section
/-! DEFINITION. One arm per command, each a direct call of its meaning. -/

namespace Sys2Proof.Machine

def exec (i : Instr) (s : State) : Host.Outcome State Fault Refusal :=
  match i with
  | .reset => Sys2Proof.Machine.execReset s
  | .sym c => Sys2Proof.Machine.execSym c s
  | .leaves => Sys2Proof.Machine.execLeaves s
  | .merge => Sys2Proof.Machine.execMerge s
  | .codegen => Sys2Proof.Machine.execCodegen s
  | .build => Sys2Proof.Machine.execBuild s
  | .enc c => Sys2Proof.Machine.execEnc c s
  | .dbit b => Sys2Proof.Machine.execDbit b s
  | .dend => Sys2Proof.Machine.execDend s
  | .rdreg r => Sys2Proof.Machine.execRdreg r s
  | .rdfreq c => Sys2Proof.Machine.execRdfreq c s
  | .rdnode n => Sys2Proof.Machine.execRdnode n s
  | .rdheap j => Sys2Proof.Machine.execRdheap j s
  | .rdcode c => Sys2Proof.Machine.execRdcode c s

end Sys2Proof.Machine
end

