-- ==== Sys2Proof/Machine/Port.lean ====
section
/-! DEFINITION. The command port: what the block does with the next thing the host presents (spec 20_memory.md R70,
30_encoding.md R83, 60_exceptions.md R175, 70_reset_and_hazards.md R200, R210). -/

namespace Sys2Proof.Machine

/-- One command word: the command it encodes, or IllegalCommand in every phase (R83, R175). The illegal-encoding test
comes before every other (R179). -/
def performWord (w : CmdWord) (s : State) : Out :=
  match decode w with
  | .ok i => exec i s
  | .error _ => raise .illegalCommand s

/-- One thing the host presents (R210). -/
def performEvent (e : HostEvent) (s : State) : Out :=
  match e with
  | .word w => performWord w s
  | .hardReset => .next (hardwareReset s)

/-- Take the next event from the port and perform it to completion (R70); with nothing presented the block is idle and
holds its state (R190, R200; log entry 2). -/
def performNext (s : State) : Out :=
  match s.port with
  | [] => .next s
  | e :: rest => performEvent e { s with port := rest }

/-- A run of R214: the words of a list in order, one step each, until the list is exhausted. -/
def performWords : List CmdWord → State → Out
  | [], s => .next s
  | w :: rest, s =>
    match performWord w s with
    | .next t => performWords rest t
    | .fault f => .fault f
    | .refused r => .refused r

/-- The commands of a list performed in order: the run of R214 on their words. -/
def performCommands (is : List Instr) (s : State) : Out := performWords (is.map encode) s

/-- The host presents word `w` before anything else it has presented. -/
def presentFirst (w : CmdWord) (s : State) : State := { s with port := .word w :: s.port }

end Sys2Proof.Machine
end

