-- ==== Sys2Proof/Machine/Step.lean ====
section
/-! DEFINITION. One step: the next event of the port, performed whole (spec 20_memory.md R70, 70_reset_and_hazards.md
R214). -/

namespace Sys2Proof.Machine

/-- One step of the machine. -/
def step (s : State) : Host.Outcome State Fault Refusal := performNext s

/-- `s` with the instruction of the given bits presented next at the command port: the block fetches nothing (R30), so
this stands for the host presenting the word (log entry 1). -/
def State.withFetchWord (s : State) (nbits w : Nat) : State := presentFirst (tableWord nbits w) s

end Sys2Proof.Machine
end

