-- ==== Sys2Proof/Machine/HostSide.lean ====
section
/-! DEFINITION. The host's side of the two ports: the pseudo-commands of spec 30_encoding.md R91 as the command
sequences they expand to, and what the host makes of the response words (R87, R88, R91, 43_encoder.md R142,
44_decoder.md R151, 70_reset_and_hazards.md R204). Nothing here is a step of the block (00_scope.md R17). -/

namespace Sys2Proof.Machine

/-! ### Response words as the host reads them -/

/-- TAG, bits [35:32] (R86). -/
def tagOf (r : RespWord) : BitVec 4 := r.extractLsb' 32 4

/-- PAYLOAD, bits [31:0] (R86). -/
def payloadOf (r : RespWord) : BitVec 32 := r.extractLsb' 0 32

/-- An ERR word (R87). -/
def isErr (r : RespWord) : Bool := tagOf r == 1#4

/-- DONE or ERR: the last response of every command (R88). -/
def isTerminator (r : RespWord) : Bool := tagOf r == 0#4 || tagOf r == 1#4

/-- The response stream cut at its terminators: the n-th group answers the n-th command (R88). Words after the last
terminator, of which a stream between commands has none, form no group. -/
def groupsFrom : List RespWord → List RespWord → List (List RespWord)
  | _, [] => []
  | part, r :: rest => if isTerminator r then (part ++ [r]) :: groupsFrom [] rest else groupsFrom (part ++ [r]) rest

def responseGroups (rs : List RespWord) : List (List RespWord) := groupsFrom [] rs

/-- The responses that answer one call's own commands, among those to a sequence in which other callers' commands may be
interleaved: `own` says of each command, in order, whether it is the call's (R88, 20_memory.md R75). -/
def ownResponses (own : List Bool) (rs : List RespWord) : List RespWord :=
  ((own.zip (responseGroups rs)).filter (fun g => g.1)).flatMap (fun g => g.2)

/-- The payloads of the BIT words, in order (R87, R91). -/
def bitPayloads (rs : List RespWord) : Bits :=
  (rs.filter (fun r => tagOf r == 2#4)).map (fun r => (payloadOf r).setWidth 1)

/-- The payloads of the SYMB words, in order (R87, R91). -/
def symbolPayloads (rs : List RespWord) : List Symbol :=
  (rs.filter (fun r => tagOf r == 3#4)).map (fun r => (payloadOf r).setWidth 8)

/-! ### Pseudo-commands (R91) -/

/-- A text of the host as symbols (R9): the same map for every text of an instance (R206). -/
def symbolsOf (t : List Char) : List Symbol := t.map Config.charmap

/-- `NEW t`: RESET, SYM for each symbol, BUILD. -/
def newCommands (t : List Symbol) : List Instr := .reset :: t.map .sym ++ [.build]

/-- NLEAF after LEAVES closes the training text `t`: its distinct symbols, those past the largest total count left out,
which SYM does not count (R103, R115). -/
def leafCount (t : List Symbol) : Nat := (t.take Config.totalMax.toNat).dedup.length

/-- `NEWSTEP t`: as NEW, with LEAVES, NLEAF - 1 times MERGE, CODEGEN in place of BUILD.
DESIGN CHOICE (log entry 18): for the empty text, of which R91 states only `NEW`, HEAPN never reads 1 and NLEAF - 1 is
no count; the model issues no MERGE, and issues CODEGEN after the LEAVES that failed. -/
def newstepCommands (t : List Symbol) : List Instr :=
  .reset :: t.map .sym ++ (.leaves :: List.replicate (leafCount t - 1) .merge) ++ [.codegen]

/-- `ENCODE t`: ENC for each symbol, of which the host issues those up to the first that ends in ERR (`encodeCall`). -/
def encodeCommands (t : List Symbol) : List Instr := t.map .enc

/-- `DECODE d`: DBIT for each digit, then DEND. -/
def decodeCommands (d : Bits) : List Instr := d.map .dbit ++ [.dend]

/-- `CODETABLE`: RDCODE for every symbol, ascending. -/
def codetableCommands : List Instr := allSymbols.map .rdcode

/-- The last response is an ERR word: the command that ends here raised an error, since its terminator is its last
response (R88). -/
def endedInErr (t : State) : Bool :=
  match t.resp.getLast? with
  | some r => isErr r
  | none => false

/-- The host issues the commands of a list in order and stops at the first that ends in ERR (R91). -/
def performUntilErr : List Instr → State → Out
  | [], s => .next s
  | i :: rest, s =>
    match performWord (encode i) s with
    | .next t => if endedInErr t then .next t else performUntilErr rest t
    | .fault f => .fault f
    | .refused r => .refused r

/-- `ENCODE t` as the host runs it: "at the first ERR the host stops and the call has failed" (R91, R142). -/
def encodeCall (t : List Symbol) (s : State) : Out := performUntilErr (encodeCommands t) s

/-- What ENCODE returns from the responses to its own commands: the concatenated digits, or nothing when a command ended
in ERR, the digits before it discarded (R142, R204). -/
def encodeResult (rs : List RespWord) : Option Bits := if rs.any isErr then none else some (bitPayloads rs)

/-- What DECODE returns from the responses of its call, whose last word is the terminator of its DEND: the emitted symbols
when that is DONE, nothing when it is ERR (R151, R204). No other word decides: of the commands that may be interleaved
with the call none emits SYMB (R89), and one that ends in ERR does not affect the call. With no response the call is not
closed and has no result. -/
def decodeResult (rs : List RespWord) : Option (List Symbol) :=
  match rs.getLast? with
  | some r => if isErr r then none else some (symbolPayloads rs)
  | none => none

/-- What CODETABLE returns from the groups that answer its own commands: an entry for each symbol whose DATA word is not 0
(R91, R136).
DESIGN CHOICE (log entry 19): when an RDCODE ended in ERR, as all do outside phase READY, the call has failed and there is
no mapping, not even an empty one; R91 states a failure for ENCODE and DECODE only. -/
def codetableResult (groups : List (List RespWord)) : Option (List (Symbol × Bits)) :=
  if groups.any (fun g => g.any isErr) then none
  else some (((allSymbols.zip groups).filter (fun g => !(bitPayloads g.2).isEmpty)).map (fun g => (g.1, bitPayloads g.2)))

/-- The ratio utility of 45_readout.md R168, which the host computes from two counts it has: the fraction (original
length times 8, encoded length). An empty Bitstring has none (93_implementation_defined.md U5). The document's
floating-point form is not modelled (00_scope.md R6 (c)). -/
def ratio (text : List Symbol) (d : Bits) : Option (Nat × Nat) :=
  if d.isEmpty then none else some (text.length * 8, d.length)

/-- The host presents commands after everything it has presented before (R210). -/
def presentCommands (is : List Instr) (s : State) : State :=
  { s with port := s.port ++ is.map (fun i => .word (encode i)) }

end Sys2Proof.Machine
end

