-- ==== Sys2Proof/Safety.lean ====
section
/-! DEFINITION. What claims about HUFFBLK are stated in: the invariant of spec 10_state.md R51 (with R23 to R31), the
heap order of R28, the tree a node stands for (R26, R131), prefix-freedom (42_code_table.md R134) and a run without
errors (60_exceptions.md R191). -/

namespace Sys2Proof.Machine

/-! ### Frequencies -/

/-- FREQ[0] + ... + FREQ[255] as natural numbers (R23). -/
def freqSum (f : Vector Freq 256) : Nat := (f.toList.map BitVec.toNat).sum

/-- The keys of the FrequencyTable, ascending: the symbols with FREQ[c] ≠ 0 (R22). -/
def support (f : Vector Freq 256) : List Symbol := allSymbols.filter (fun c => tableGet f c != 0)

/-- The leaves LEAVES makes: one per key, ascending (R25, R115). -/
def leafNodes (f : Vector Freq 256) : List Node := (support f).map (fun c => .leaf c (tableGet f c))

/-! ### Trees -/

/-- The tree below a node: each node with its index, a leaf with its symbol (R16, R26). -/
inductive Tree where
  | leaf (i : NodeIdx) (c : Symbol)
  | node (i : NodeIdx) (l r : Tree)
  deriving DecidableEq, Repr

/-- The indices of a tree's nodes, root first. -/
def Tree.indices : Tree → List NodeIdx
  | .leaf i _ => [i]
  | .node i l r => i :: (l.indices ++ r.indices)

/-- The symbols of a tree's leaves with their paths, left to right (R131). -/
def Tree.paths : Tree → Bits → List (Symbol × Bits)
  | .leaf _ c, p => [(c, p)]
  | .node _ l r, p => l.paths (p ++ [0]) ++ r.paths (p ++ [1])

/-- The tree below node `n`, when the walk from it meets only entries that hold a value and ends within `depth`. -/
def treeAt (nodes : List Node) : Nat → NodeIdx → Option Tree
  | 0, _ => none
  | depth + 1, n =>
    match nodeAt nodes n with
    | none => none
    | some (.leaf c _) => some (.leaf n c)
    | some (.internal _ l r) =>
      match treeAt nodes depth l, treeAt nodes depth r with
      | some a, some b => some (.node n a b)
      | _, _ => none

/-- The indices of the nodes below node `n`, itself first; none where there is no tree. -/
def indicesBelow (nodes : List Node) (depth : Nat) (n : NodeIdx) : List NodeIdx :=
  match treeAt nodes depth n with
  | some t => t.indices
  | none => []

/-- NODE[n].freq as a number, 0 where the entry holds no value. -/
def weightOf (nodes : List Node) (n : NodeIdx) : Nat :=
  match nodeAt nodes n with
  | some x => x.freqOf.toNat
  | none => 0

/-- Entry i, if it is internal, has children of smaller index and their frequencies' sum, without wrapping (R26, R116,
R121). -/
def nodeOk (nodes : List Node) (i : Nat) : Bool :=
  match nodes[i]? with
  | some (.internal f l r) =>
    decide (l.toNat < i) && decide (r.toNat < i) && decide (f.toNat = weightOf nodes l + weightOf nodes r)
  | _ => true

/-- Follow the digits of a Bitstring from node `n`, left on 0 and right on 1 (R131, R153): the node they lead to. -/
def follow (nodes : List Node) : NodeIdx → Bits → Option NodeIdx
  | n, [] => some n
  | n, b :: rest =>
    match nodeAt nodes n with
    | some (.internal _ l r) => follow nodes (if b = 0 then l else r) rest
    | _ => none

/-! ### The heap -/

/-- The heap property of R28: no slot j ≥ 1 has a smaller key than its parent. -/
def heapOrdered (nodes : List Node) (heap : List NodeIdx) : Prop :=
  ∀ j, j < heap.length → 1 ≤ j → slotLess nodes heap j (parentSlot j) = .ok false

/-- Node `m` has the least key of the nodes in `heap` (R113): no other node there has a smaller one. -/
def leastKey (nodes : List Node) (heap : List NodeIdx) (m : NodeIdx) : Prop :=
  ∀ n ∈ heap, n ≠ m → heapLess nodes m n = .ok true

/-- HeapInsert of each node of a list, in order (R112, R115). -/
def heapInsertAll (nodes : List Node) : List NodeIdx → List NodeIdx → Except Fault (List NodeIdx)
  | [], heap => .ok heap
  | n :: rest, heap =>
    match heapInsert nodes n heap with
    | .error f => .error f
    | .ok heap' => heapInsertAll nodes rest heap'

/-! ### The invariant -/

/-- What LEAVES establishes and MERGE keeps (R25 to R28, R51): the leaves in order, the internal nodes after them, the
counts, the heap's weight, and a forest whose trees hold every created node exactly once, so that every node has at
most one parent and the heap holds exactly the nodes that have none. -/
structure Built (s : State) : Prop where
  leaves    : s.nodes.take s.nleaf.toNat = leafNodes s.freq
  nleaf     : s.nleaf.toNat = (support s.freq).length
  internals : (s.nodes.drop s.nleaf.toNat).all (fun n => match n with | .internal _ _ _ => true | .leaf _ _ => false) = true
  children  : ∀ i, i < s.nnode → nodeOk s.nodes i = true
  counts    : s.nnode + s.heapn = 2 * s.nleaf.toNat
  nonempty  : 1 ≤ s.heapn
  weight    : (s.heap.map (weightOf s.nodes)).sum = s.total.toNat
  rooted    : ∀ n ∈ s.heap, (treeAt s.nodes s.nnode n).isSome = true
  forest    : ((s.heap.flatMap (indicesBelow s.nodes s.nnode)).map BitVec.toNat).Perm (List.range s.nnode)
  ordered   : heapOrdered s.nodes s.heap

/-- Phase COUNT (R51). -/
structure CountState (s : State) : Prop where
  nodes  : s.nodes = []
  heap   : s.heap = []
  nleaf  : s.nleaf = 0
  root   : s.root = 0
  code   : s.code = Vector.replicate 256 none
  acc    : s.acc = []
  accovf : s.accovf = false

/-- Phase MERGE (R51). -/
structure MergeState (s : State) : Prop where
  built  : Built s
  root   : s.root = 0
  code   : s.code = Vector.replicate 256 none
  acc    : s.acc = []
  accovf : s.accovf = false

/-- Phase READY (R51, R27, R31, R132): the tree is whole and CODE holds its path codes. -/
structure ReadyState (s : State) : Prop where
  built  : Built s
  heap   : s.heap = [s.root]
  root   : s.root.toNat + 1 = s.nnode
  code   : ∃ records, rootCodes s.nodes s.root = .ok records ∧
             recordCodes records (Vector.replicate 256 none) = .ok s.code
  acclen : s.acclen ≤ Config.accMax
  accovf : s.accovf = true → s.acclen = Config.accMax

/-- The invariant of R51 for each phase. -/
def phaseInv (s : State) : Prop :=
  match s.phase with
  | .count => CountState s
  | .merge => MergeState s
  | .ready => ReadyState s

/-- The invariant that holds between commands (R51). -/
structure Inv (s : State) : Prop where
  total : s.total.toNat = freqSum s.freq
  phase : phaseInv s

/-! ### Codes -/

/-- No valid code is a prefix of another symbol's code, itself included, so distinct symbols have distinct codes (R134
(c), (d)). -/
def prefixFree (code : Vector (Option Bits) 256) : Prop :=
  ∀ c d p q, tableGet code c = some p → tableGet code d = some q → p <+: q → c = d

/-- `a` is a proper prefix of some code: what an accumulator is between commands when k > 1 (R152). -/
def properPrefixOfCode (code : Vector (Option Bits) 256) (a : Bits) : Prop :=
  ∃ c p, tableGet code c = some p ∧ a <+: p ∧ a ≠ p

/-- The code of a symbol, the empty Bitstring for a symbol that has none. -/
def codeOf (code : Vector (Option Bits) 256) (c : Symbol) : Bits := (tableGet code c).getD []

/-- The weighted length of a code: the sum over the keys of FREQ[c] times the length of c's code (R122). -/
def weightedLength (f : Vector Freq 256) (code : Symbol → Bits) : Nat :=
  ((support f).map (fun c => (tableGet f c).toNat * (code c).length)).sum

/-! ### Commands and words -/

/-- The phases and heap conditions in which a command is allowed to proceed to its own tests: the table of R176. -/
def phaseAllows (i : Instr) (p : Phase) (heapn : Nat) : Bool :=
  match i with
  | .reset | .rdreg _ | .rdfreq _ | .rdnode _ | .rdheap _ => true
  | .sym _ | .leaves | .build => p == .count
  | .merge => p == .merge && decide (2 ≤ heapn)
  | .codegen => p == .merge && heapn == 1
  | .enc _ | .dbit _ | .dend | .rdcode _ => p == .ready

/-- The words of opcode `op`, whose operand has `n` bits, are the commands `mk x` when every other ARG bit is zero, and
raise IllegalCommand otherwise, in every state (R81, R83, R175). -/
def wordsMean (op : BitVec 4) (n : Nat) (mk : BitVec n → Instr) : Prop :=
  (∀ x s, performWord (op ++ x.setWidth 12) s = exec (mk x) s) ∧
  (∀ w s, opField w = op → argField w >>> n ≠ 0#12 → performWord w s = .next (raiseState .illegalCommand s))

/-- A DBIT word (R147). -/
def isDbitWord (w : CmdWord) : Bool := w == encode (.dbit 0) || w == encode (.dbit 1)

/-- A word of a decode call: DBIT or DEND (R151). -/
def isDecodeWord (w : CmdWord) : Bool := isDbitWord w || w == encode .dend

/-! ### A decoder with an unbounded accumulator (R152) -/

/-- What a decode call presents: one digit, or the end of the input. -/
inductive DecodeInput where
  | digit (b : Digit)
  | stop
  deriving DecidableEq, Repr

/-- The command of a decode input (R147, R149). -/
def DecodeInput.command : DecodeInput → Instr
  | .digit b => .dbit b
  | .stop => .dend

/-- The document's decoder (R145) over a code table: its responses to a list of inputs from accumulator `a`, which has
no bound. -/
def unboundedDecode (code : Vector (Option Bits) 256) : List DecodeInput → Bits → List Response
  | [], _ => []
  | .digit b :: rest, a =>
    match matchCode code (a ++ [b]) with
    | some c => .symb c :: .done :: unboundedDecode code rest []
    | none => .done :: unboundedDecode code rest (a ++ [b])
  | .stop :: rest, a =>
    if a.isEmpty then .done :: unboundedDecode code rest []
    else .err (errCode .malformedBitstream) 0 :: unboundedDecode code rest []

/-! ### Runs -/

/-- No terminator of the responses is an ERR word (R191). -/
def noErrors (rs : List RespWord) : Bool := !rs.any isErr

/-- The words a command added to the response stream. -/
def newResponses (s t : State) : List RespWord := t.resp.drop s.resp.length

end Sys2Proof.Machine
end

