-- ==== Sys2Proof/Certificates/Slice0/Obligations.lean ====
section
/-! DEFINITION. The statements for the provers. Each docstring names the rules of spec/ it formalises. A next state written
as a record update of the state before says what changes and, for every other field, that it does not (the frame). -/

open Sys2Proof Sys2Proof.Machine

/-! ### Encoding (30_encoding.md) -/

/-- Words written out from the opcode map and the operand forms (R80 to R82; 95_test_vectors.md section 2.1), legal and
illegal, decode to what they stand for. -/
def Obligations.DecodesWrittenOutWords : Prop :=
  decode 0x1000#16 = .ok .reset ∧ decode 0x2061#16 = .ok (.sym 0x61#8) ∧ decode 0x20FF#16 = .ok (.sym 0xFF#8) ∧
  decode 0x3000#16 = .ok .leaves ∧ decode 0x4000#16 = .ok .merge ∧ decode 0x5000#16 = .ok .codegen ∧
  decode 0x6000#16 = .ok .build ∧ decode 0x7064#16 = .ok (.enc 0x64#8) ∧ decode 0x8001#16 = .ok (.dbit 1#1) ∧
  decode 0x9000#16 = .ok .dend ∧ decode 0xA008#16 = .ok (.rdreg 8#4) ∧ decode 0xB020#16 = .ok (.rdfreq 0x20#8) ∧
  decode 0xC1FE#16 = .ok (.rdnode 510#9) ∧ decode 0xD0FF#16 = .ok (.rdheap 255#9) ∧
  decode 0xE07A#16 = .ok (.rdcode 0x7A#8) ∧
  decode 0x0000#16 = .error .unassignedOpcode ∧ decode 0xFFFF#16 = .error .unassignedOpcode ∧
  decode 0x1001#16 = .error .mustBeZero ∧ decode 0x2161#16 = .error .mustBeZero ∧
  decode 0x8002#16 = .error .mustBeZero ∧ decode 0xA010#16 = .error .mustBeZero ∧
  decode 0xC200#16 = .error .mustBeZero

/-- Decoding the word of a command gives the command back, with its operand at every value its field admits (R80 to
R82). -/
def Obligations.DecodeOfEncodeGivesTheInstruction : Prop :=
  ∀ i : Instr, i.wellFormed = true → decode (encode i) = .ok i

/-- Each word has one meaning: the word of the command a word decodes to is that word (R80 to R82). -/
def Obligations.EncodeOfDecodeGivesTheWord : Prop :=
  ∀ (w : CmdWord) (i : Instr), decode w = .ok i → encode i = w

/-- R82: a word is the command of a row of the opcode map exactly when (w AND mask) = match, the map has fourteen rows
with distinct opcodes, and OP values 0x0 and 0xF select none. -/
def Obligations.DecoderFollowsTheOpcodeMap : Prop :=
  (∀ (w : CmdWord) (r : OpRow), r ∈ opcodeMap →
    ((w &&& r.mask = r.pattern) ↔ ∃ i, decode w = .ok i ∧ opRow i = r)) ∧
  (∀ (w : CmdWord) (i : Instr), decode w = .ok i → opRow i ∈ opcodeMap) ∧
  opcodeMap.length = 14 ∧ (opcodeMap.map (fun r => opField r.pattern)).Nodup ∧
  (∀ w : CmdWord, opField w = 0x0#4 ∨ opField w = 0xF#4 → decode w = .error .unassignedOpcode)

/-- R81: each command's operand is the low bits of ARG, unsigned, unscaled, with every other ARG bit zero. -/
def Obligations.OperandIsTheLowBitsOfArg : Prop :=
  ∀ w : CmdWord,
    (decode w = .ok .reset ↔ opField w = 0x1#4 ∧ argField w = 0#12) ∧
    (∀ c, decode w = .ok (.sym c) ↔ opField w = 0x2#4 ∧ argField w = c.setWidth 12) ∧
    (decode w = .ok .leaves ↔ opField w = 0x3#4 ∧ argField w = 0#12) ∧
    (decode w = .ok .merge ↔ opField w = 0x4#4 ∧ argField w = 0#12) ∧
    (decode w = .ok .codegen ↔ opField w = 0x5#4 ∧ argField w = 0#12) ∧
    (decode w = .ok .build ↔ opField w = 0x6#4 ∧ argField w = 0#12) ∧
    (∀ c, decode w = .ok (.enc c) ↔ opField w = 0x7#4 ∧ argField w = c.setWidth 12) ∧
    (∀ b, decode w = .ok (.dbit b) ↔ opField w = 0x8#4 ∧ argField w = b.setWidth 12) ∧
    (decode w = .ok .dend ↔ opField w = 0x9#4 ∧ argField w = 0#12) ∧
    (∀ r, decode w = .ok (.rdreg r) ↔ opField w = 0xA#4 ∧ argField w = r.setWidth 12) ∧
    (∀ c, decode w = .ok (.rdfreq c) ↔ opField w = 0xB#4 ∧ argField w = c.setWidth 12) ∧
    (∀ n, decode w = .ok (.rdnode n) ↔ opField w = 0xC#4 ∧ argField w = n.setWidth 12) ∧
    (∀ j, decode w = .ok (.rdheap j) ↔ opField w = 0xD#4 ∧ argField w = j.setWidth 12) ∧
    (∀ c, decode w = .ok (.rdcode c) ↔ opField w = 0xE#4 ∧ argField w = c.setWidth 12)

/-- R175 with R83: a word no row of the opcode map accepts raises IllegalCommand, code 4, in every phase: LASTERR is 4,
the one response is the ERR word, nothing else changes. A word some row accepts is performed as its command. -/
def Obligations.IllegalWordRaisesIllegalCommand : Prop :=
  ∀ (w : CmdWord) (s : State),
    (wordLegal w = false →
      performWord w s = .next { s with lasterr := 4#3, resp := s.resp ++ [0x100000004#36] }) ∧
    (wordLegal w = true → ∃ i, decode w = .ok i ∧ performWord w s = exec i s)

/-! ### The machine: step, reset, responses, errors -/

/-- A step takes the oldest event of the port and performs it whole: a legal word is exec of its command, an illegal
word raises IllegalCommand, the reset signal resets; with nothing presented the block is idle (R70, R83, R190, R200,
R210). The port itself and the idle step are the model's (log entries 1, 2, 8). -/
def Obligations.StepPerformsTheNextEvent : Prop :=
  ∀ (s : State) (rest : List HostEvent),
    (∀ w i, s.port = .word w :: rest → decode w = .ok i → step s = exec i { s with port := rest }) ∧
    (∀ w e, s.port = .word w :: rest → decode w = .error e →
      step s = .next (raiseState .illegalCommand { s with port := rest })) ∧
    (s.port = .hardReset :: rest → step s = .next (hardwareReset { s with port := rest })) ∧
    (s.port = [] → step s = .next s)

/-- R50: the state after hardware reset, and identically after RESET: every piece at the value R50 gives, and no entry of
NODE or HEAP, and no code, holds a value. -/
def Obligations.ResetLeavesTheResetValues : Prop :=
  ∀ s t : State, (t = State.reset ∨ t = hardwareReset s ∨ exec .reset s = .next t) →
    t.phase = .count ∧ (∀ c, tableGet t.freq c = 0) ∧ t.total = 0 ∧ t.nnode = 0 ∧ t.nleaf = 0 ∧ t.heapn = 0 ∧
    t.root = 0 ∧ (∀ c, tableGet t.code c = none) ∧ t.acc = [] ∧ t.accovf = false ∧ t.lasterr = 0 ∧ t.errsym = 0 ∧
    (∀ i, nodeOperand i t = none) ∧ (∀ j, heapOperand j t = none)

/-- R200: hardware reset puts every piece of state at its R50 value and empties the response stream, without a response;
RESET does the same but keeps earlier responses and adds its own DONE; after reset the block performs nothing until a
word arrives. -/
def Obligations.HardwareResetEmptiesTheResponses : Prop :=
  (∀ (s : State) (rest : List HostEvent), s.port = .hardReset :: rest →
    step s = .next { State.reset with port := rest }) ∧
  (∀ s : State, exec .reset s = .next { State.reset with resp := s.resp ++ [0x000000000#36], port := s.port }) ∧
  step State.reset = .next State.reset

/-- R87: the tag and the payload of each response kind, payload bits not named being 0; every word a command adds to the
stream is the word of one of these kinds, so that tags 0x5 to 0xF are never produced; an ERR word has a code from 1 to 7
and its info is 0 but for UnknownSymbolError. -/
def Obligations.ResponseWordsHaveTheirFormat : Prop :=
  (tagOf (encodeResponse .done) = 0x0#4 ∧ payloadOf (encodeResponse .done) = 0#32) ∧
  (∀ code info, tagOf (encodeResponse (.err code info)) = 0x1#4 ∧
    (payloadOf (encodeResponse (.err code info))).extractLsb' 0 8 = code.setWidth 8 ∧
    (payloadOf (encodeResponse (.err code info))).extractLsb' 8 8 = info ∧
    (payloadOf (encodeResponse (.err code info))).extractLsb' 16 16 = 0#16) ∧
  (∀ b, tagOf (encodeResponse (.bit b)) = 0x2#4 ∧ payloadOf (encodeResponse (.bit b)) = b.setWidth 32) ∧
  (∀ c, tagOf (encodeResponse (.symb c)) = 0x3#4 ∧ payloadOf (encodeResponse (.symb c)) = c.setWidth 32) ∧
  (∀ v, tagOf (encodeResponse (.data v)) = 0x4#4 ∧ payloadOf (encodeResponse (.data v)) = v) ∧
  (∀ w s t, performWord w s = .next t →
    ∃ rs : List Response, t.resp = s.resp ++ rs.map encodeResponse ∧
      (∀ r ∈ rs.map encodeResponse, (tagOf r).toNat ≤ 4) ∧
      (∀ code info, .err code info ∈ rs → code ≠ 0 ∧ (code ≠ 2#3 → info = 0)))

/-- R180: `raise E(info)` writes LASTERR, writes ERRSYM for UnknownSymbolError only, emits the ERR word as the command's
only response, and changes nothing else; the word carries the code of R171 and the info. -/
def Obligations.RaiseRecordsTheError : Prop :=
  ∀ s : State,
    (∀ c, raiseState (.unknownSymbol c) s =
      { s with lasterr := 2#3, errsym := c, resp := s.resp ++ [encodeResponse (.err 2#3 c)] }) ∧
    (∀ p ∈ [(ErrKind.emptyInput, 1#3, 0x100000001#36), (.malformedBitstream, 3#3, 0x100000003#36),
            (.illegalCommand, 4#3, 0x100000004#36), (.phaseError, 5#3, 0x100000005#36),
            (.capacity, 6#3, 0x100000006#36), (.range, 7#3, 0x100000007#36)],
      raiseState p.1 s = { s with lasterr := p.2.1, resp := s.resp ++ [p.2.2] })

/-- R42: LASTERR holds the code of the most recent command that ended in ERR and ERRSYM the symbol of the most recent
UnknownSymbolError; a command that ends in DONE leaves both as they were, but for RESET, which, as hardware reset does,
clears them. -/
def Obligations.LasterrTracksTheLastError : Prop :=
  (∀ s : State, (hardwareReset s).lasterr = 0 ∧ (hardwareReset s).errsym = 0) ∧
  ∀ (w : CmdWord) (s t : State), performWord w s = .next t →
    (∀ r, t.resp = s.resp ++ [r] → isErr r = true →
      t.lasterr = (payloadOf r).setWidth 3 ∧ t.lasterr ≠ 0 ∧
      t.errsym = if t.lasterr = 2#3 then (payloadOf r).extractLsb' 8 8 else s.errsym) ∧
    ((newResponses s t).all (fun r => !isErr r) = true → decode w ≠ .ok .reset →
      t.lasterr = s.lasterr ∧ t.errsym = s.errsym) ∧
    (decode w = .ok .reset → t.lasterr = 0 ∧ t.errsym = 0)

/-- R181: a command that ends in ERR leaves every piece of state as it was but LASTERR, ERRSYM (UnknownSymbolError only)
and ACC and ACCOVF (MalformedBitstreamError only, which clears them). -/
def Obligations.ErrorsArePrecise : Prop :=
  ∀ (w : CmdWord) (s t : State) (r : RespWord), performWord w s = .next t → t.resp.getLast? = some r → isErr r = true →
    t = { s with lasterr := t.lasterr, errsym := t.errsym, acc := t.acc, accovf := t.accovf, resp := s.resp ++ [r] } ∧
    (t.lasterr ≠ 2#3 → t.errsym = s.errsym) ∧
    (t.lasterr ≠ 3#3 → t.acc = s.acc ∧ t.accovf = s.accovf) ∧
    (t.lasterr = 3#3 → t.acc = [] ∧ t.accovf = false)

/-- R88: every command adds to the stream exactly one terminator, and it is the last word; a command that ends in ERR
adds no other word; so the stream cut at terminators has one group per command. -/
def Obligations.OneTerminatorEndsEveryCommand : Prop :=
  ∀ (w : CmdWord) (s t : State), performWord w s = .next t →
    ∃ (body : List RespWord) (last : RespWord), t.resp = s.resp ++ (body ++ [last]) ∧
      isTerminator last = true ∧ (∀ r ∈ body, isTerminator r = false) ∧ (isErr last = true → body = []) ∧
      responseGroups (body ++ [last]) = [body ++ [last]]

/-- R176: a legal command raises PhaseError exactly in the phases and heap conditions the table refuses. -/
def Obligations.PhaseTableDecidesPhaseError : Prop :=
  ∀ (i : Instr) (s : State),
    (phaseAllows i s.phase s.heapn = false →
      exec i s = .next { s with lasterr := 5#3, resp := s.resp ++ [0x100000005#36] }) ∧
    (phaseAllows i s.phase s.heapn = true → ∀ t, exec i s = .next t → t.resp ≠ s.resp ++ [0x100000005#36])

/-- R21: the phase codes, 3 never held, and the only transitions: COUNT to MERGE by LEAVES, MERGE to READY by CODEGEN,
COUNT to READY by BUILD, any phase to COUNT by reset and RESET. -/
def Obligations.PhaseMovesAsTheLifecycleSays : Prop :=
  (phaseCode .count = 0#2 ∧ phaseCode .merge = 1#2 ∧ phaseCode .ready = 2#2 ∧ ∀ p, phaseCode p ≠ 3#2) ∧
  (∀ (i : Instr) (s t : State), exec i s = .next t → t.phase ≠ s.phase →
    (i = .leaves ∧ s.phase = .count ∧ t.phase = .merge) ∨ (i = .codegen ∧ s.phase = .merge ∧ t.phase = .ready) ∨
    (i = .build ∧ s.phase = .count ∧ t.phase = .ready) ∨ (i = .reset ∧ t.phase = .count)) ∧
  (∀ s : State, (hardwareReset s).phase = .count)

/-- R52: in phase READY no command except RESET changes FREQ, TOTAL, NODE, NNODE, NLEAF, HEAP, HEAPN, ROOT, CODE or
PHASE: only ACC, ACCOVF, LASTERR, ERRSYM and the response stream. -/
def Obligations.ReadyInstanceIsImmutable : Prop :=
  ∀ (w : CmdWord) (s t : State), s.phase = .ready → performWord w s = .next t → decode w ≠ .ok .reset →
    t = { s with acc := t.acc, accovf := t.accovf, lasterr := t.lasterr, errsym := t.errsym, resp := t.resp }

/-! ### The invariant (10_state.md R23 to R31, R51) -/

/-- The invariant holds at reset. -/
def Obligations.InvariantHoldsAtReset : Prop := Inv State.reset

/-- Every step from a state that meets the invariant of R51, R26 to R28 and R31 ends in a state that meets it. -/
def Obligations.EveryStepKeepsTheInvariant : Prop :=
  ∀ s t : State, Inv s → step s = .next t → Inv t

/-- R191: from every state that meets the invariant, every event, every 16-bit word among them, has a next state: no
fault, no refusal, no stuck state. -/
def Obligations.EveryWordHasANextState : Prop :=
  (∀ (s : State) (w : CmdWord), Inv s → ∃ t, performWord w s = .next t) ∧
  (∀ s : State, Inv s → ∃ t, step s = .next t)

/-- R51: what the invariant says of each phase, in the words of R51. -/
def Obligations.InvariantSaysWhatEachPhaseHolds : Prop :=
  ∀ s : State, Inv s →
    s.total.toNat = freqSum s.freq ∧ s.heapn ≤ s.nleaf.toNat ∧ s.nleaf.toNat ≤ s.nnode ∧ s.nnode ≤ 511 ∧
    (s.phase = .count → s.nnode = 0 ∧ s.nleaf = 0 ∧ s.heapn = 0 ∧ s.root = 0 ∧ (∀ c, tableGet s.code c = none) ∧
      s.acc = [] ∧ s.accovf = false) ∧
    (s.phase = .merge → 1 ≤ s.nleaf.toNat ∧ s.nleaf.toNat = (support s.freq).length ∧
      s.nnode + 1 ≤ 2 * s.nleaf.toNat ∧ s.heapn + s.nnode = 2 * s.nleaf.toNat ∧ 1 ≤ s.heapn ∧
      (s.heap.map (weightOf s.nodes)).sum = s.total.toNat ∧ (∀ c, tableGet s.code c = none) ∧ s.acc = [] ∧
      s.accovf = false ∧ s.root = 0) ∧
    (s.phase = .ready → s.nnode + 1 = 2 * s.nleaf.toNat ∧ s.heap = [s.root] ∧ s.root.toNat + 1 = s.nnode ∧
      weightOf s.nodes s.root = s.total.toNat ∧
      (∀ c, (∃ p, tableGet s.code c = some p) ↔ tableGet s.freq c ≠ 0) ∧
      (∀ c d p q, tableGet s.code c = some p → tableGet s.code d = some q → p <+: q → c = d))

/-- R26, R28, R31: what the invariant says of the node store, the heap and the accumulator. A child has a smaller index
than its parent and no other parent, and is not both its children; the heap is ordered, its nodes are distinct, and they
are exactly the created nodes that are no node's child, of which there is only ROOT in phase READY; ACCOVF = 1 implies
that 255 digits are held. -/
def Obligations.InvariantSaysTheStoreIsAForest : Prop :=
  ∀ s : State, Inv s →
    (∀ i f l r, nodeAt s.nodes i = some (.internal f l r) → l.toNat < i.toNat ∧ r.toNat < i.toNat ∧ l ≠ r) ∧
    (∀ i j f g l r l' r', nodeAt s.nodes i = some (.internal f l r) → nodeAt s.nodes j = some (.internal g l' r') →
      i ≠ j → l ≠ l' ∧ l ≠ r' ∧ r ≠ l' ∧ r ≠ r') ∧
    heapOrdered s.nodes s.heap ∧ s.heap.Nodup ∧
    (∀ n, n ∈ s.heap ↔ n.toNat < s.nnode ∧ ∀ i f l r, nodeAt s.nodes i = some (.internal f l r) → n ≠ l ∧ n ≠ r) ∧
    (s.phase = .ready → ∀ n, n = s.root ↔
      n.toNat < s.nnode ∧ ∀ i f l r, nodeAt s.nodes i = some (.internal f l r) → n ≠ l ∧ n ≠ r) ∧
    s.acc.length ≤ 255 ∧ (s.accovf = true → s.acc.length = 255)

/-- R208, R214, R88: a run of any finite list of words from a state that meets the invariant ends, in such a state, and
its responses cut at terminators are one group per word. -/
def Obligations.EveryRunEndsWithOneGroupPerWord : Prop :=
  ∀ (ws : List CmdWord) (s : State), Inv s → ∃ t, performWords ws s = .next t ∧ Inv t ∧
    t.resp = s.resp ++ newResponses s t ∧ (responseGroups (newResponses s t)).length = ws.length

/-- R191: for a run from reset that contains no RESET command, no terminator is an ERR word exactly when LASTERR is 0 at
the end. -/
def Obligations.ErrorFreeRunLeavesLasterrZero : Prop :=
  ∀ (ws : List CmdWord) (t : State), (∀ w ∈ ws, decode w ≠ .ok .reset) → performWords ws State.reset = .next t →
    (noErrors t.resp = true ↔ t.lasterr = 0)

/-! ### RESET and SYM (40_frequency.md) -/

/-- R100: RESET in every phase puts every piece of state at its R50 value, keeps the earlier responses and adds DONE; a
word of its opcode with any ARG bit set resets nothing. -/
def Obligations.ResetDiscardsTheInstance : Prop :=
  wordsMean 0x1#4 0 (fun _ => .reset) ∧
  ∀ s : State, ∃ t, exec .reset s = .next t ∧ t.phase = .count ∧ (∀ c, tableGet t.freq c = 0) ∧ t.total = 0 ∧
    t.nodes = [] ∧ t.nleaf = 0 ∧ t.heap = [] ∧ t.root = 0 ∧ (∀ c, tableGet t.code c = none) ∧ t.acc = [] ∧
    t.accovf = false ∧ t.lasterr = 0 ∧ t.errsym = 0 ∧ t.resp = s.resp ++ [encodeResponse .done] ∧ t.port = s.port

/-- R102, R103, R105: SYM c in phase COUNT below the capacity adds 1 to FREQ[c] and TOTAL, without wrapping where the
invariant holds, and ends in DONE; at TOTAL = 2^32 - 1 it raises CapacityError, out of phase COUNT PhaseError. -/
def Obligations.SymCountsOneOccurrence : Prop :=
  wordsMean 0x2#4 8 .sym ∧
  ∀ (c : Symbol) (s : State),
    (s.phase ≠ .count → exec (.sym c) s = .next (raiseState .phaseError s)) ∧
    (s.phase = .count → s.total = 0xFFFFFFFF#32 → exec (.sym c) s = .next (raiseState .capacity s)) ∧
    (s.phase = .count → s.total ≠ 0xFFFFFFFF#32 → ∃ t, exec (.sym c) s = .next t ∧
      (∀ d, tableGet t.freq d = if d = c then tableGet s.freq c + 1 else tableGet s.freq d) ∧ t.total = s.total + 1 ∧
      t = { s with freq := t.freq, total := t.total, resp := s.resp ++ [encodeResponse .done] } ∧
      (Inv s → (tableGet t.freq c).toNat = (tableGet s.freq c).toNat + 1 ∧ t.total.toNat = s.total.toNat + 1))

/-- R101, R22: from a new instance, the SYM commands of a text leave in FREQ[c] the number of times c occurs in it, in
whatever order, and in TOTAL its length. -/
def Obligations.FrequencyTableCountsTheText : Prop :=
  ∀ (text : List Symbol) (s : State), s.phase = .count → s.total = 0 → (∀ c, tableGet s.freq c = 0) →
    text.length < 2 ^ 32 →
    ∃ t, performCommands (text.map .sym) s = .next t ∧ (∀ c, (tableGet t.freq c).toNat = text.count c) ∧
      t.total.toNat = text.length ∧
      t = { s with freq := t.freq, total := t.total,
                   resp := s.resp ++ List.replicate text.length (encodeResponse .done) }

/-! ### LEAVES, MERGE, CODEGEN, BUILD (41_tree_builder.md, 42_code_table.md) -/

/-- R115: LEAVES in phase COUNT with a non-empty training text makes one leaf per key, ascending, inserts them in
the heap one after the other by R112, and moves to MERGE; an empty text raises EmptyInputError, another phase
PhaseError. -/
def Obligations.LeavesMakesOneLeafPerKey : Prop :=
  wordsMean 0x3#4 0 (fun _ => .leaves) ∧
  ∀ s : State,
    (s.phase ≠ .count → exec .leaves s = .next (raiseState .phaseError s)) ∧
    (s.phase = .count → s.total = 0 → exec .leaves s = .next (raiseState .emptyInput s)) ∧
    (Inv s → s.phase = .count → s.total ≠ 0 → ∃ t, exec .leaves s = .next t ∧
      t.nodes = (support s.freq).map (fun c => .leaf c (tableGet s.freq c)) ∧
      t.nleaf.toNat = (support s.freq).length ∧ t.nnode = t.nleaf.toNat ∧ t.heapn = t.nleaf.toNat ∧ 1 ≤ t.nnode ∧
      heapInsertAll t.nodes ((List.range t.nnode).map (BitVec.ofNat 9)) [] = .ok t.heap ∧
      t = { s with nodes := t.nodes, nleaf := t.nleaf, heap := t.heap, phase := .merge,
                   resp := s.resp ++ [encodeResponse .done] })

/-- R116: MERGE in phase MERGE with two nodes or more in the heap takes out the node of least key and then the node
of next-least key, appends their parent, the first as its left child, with the exact sum of their frequencies, and
inserts it; otherwise it raises PhaseError. -/
def Obligations.MergeJoinsTheTwoLeastNodes : Prop :=
  wordsMean 0x4#4 0 (fun _ => .merge) ∧
  ∀ s : State,
    (s.phase ≠ .merge ∨ s.heapn < 2 → exec .merge s = .next (raiseState .phaseError s)) ∧
    (Inv s → s.phase = .merge → 2 ≤ s.heapn → ∃ t a b heap1 heap2 f, exec .merge s = .next t ∧
      heapExtractMin s.nodes s.heap = .ok (a, heap1) ∧ heapExtractMin s.nodes heap1 = .ok (b, heap2) ∧
      leastKey s.nodes s.heap a ∧ leastKey s.nodes heap1 b ∧ heapLess s.nodes a b = .ok true ∧ a ≠ b ∧
      t.nodes = s.nodes ++ [.internal f a b] ∧ f.toNat = weightOf s.nodes a + weightOf s.nodes b ∧
      a.toNat < s.nnode ∧ b.toNat < s.nnode ∧
      heapInsert t.nodes (BitVec.ofNat 9 s.nnode) heap2 = .ok t.heap ∧ t.heapn + 1 = s.heapn ∧
      t = { s with nodes := t.nodes, heap := t.heap, resp := s.resp ++ [encodeResponse .done] })

/-- R131 to R133: CODEGEN in phase MERGE with one node in the heap fixes the root, gives each leaf's symbol the digits of
its path (0 left, 1 right), or the one digit 0 when the root is a leaf, clears the accumulator and moves to READY;
otherwise it raises PhaseError. -/
def Obligations.CodegenDerivesThePathCodes : Prop :=
  wordsMean 0x5#4 0 (fun _ => .codegen) ∧
  ∀ s : State,
    (s.phase ≠ .merge ∨ s.heapn ≠ 1 → exec .codegen s = .next (raiseState .phaseError s)) ∧
    (Inv s → s.phase = .merge → s.heapn = 1 → ∃ t, exec .codegen s = .next t ∧ s.heap = [t.root] ∧
      (∀ c f, nodeAt s.nodes t.root = some (.leaf c f) →
        ∀ d, tableGet t.code d = if d = c then some [0#1] else none) ∧
      (∀ f l r, nodeAt s.nodes t.root = some (.internal f l r) → ∀ c p,
        tableGet t.code c = some p ↔ ∃ i g, follow s.nodes t.root p = some i ∧ nodeAt s.nodes i = some (.leaf c g)) ∧
      t = { s with root := t.root, code := t.code, acc := [], accovf := false, phase := .ready,
                   resp := s.resp ++ [encodeResponse .done] })

/-- R118, R133: with one distinct symbol in the training text, after LEAVES no MERGE is legal, and CODEGEN makes the leaf
the root and gives the symbol the code [0]. -/
def Obligations.SingleSymbolGetsTheCodeZero : Prop :=
  ∀ (s : State) (c : Symbol), Inv s → s.phase = .count → support s.freq = [c] →
    ∃ t u v, exec .leaves s = .next t ∧ t.nodes = [.leaf c (tableGet s.freq c)] ∧ t.heap = [0#9] ∧
      exec .merge t = .next u ∧ u = raiseState .phaseError t ∧ exec .codegen u = .next v ∧ v.phase = .ready ∧
      v.nodes = t.nodes ∧ v.root = 0#9 ∧
      (∀ d, tableGet v.code d = if d = c then some [0#1] else none)

/-- R117, R119: BUILD in phase COUNT with a non-empty training text ends in the state that LEAVES, then MERGE k - 1 times,
then CODEGEN end in, with one DONE in place of theirs; an empty text raises EmptyInputError, another phase PhaseError. -/
def Obligations.BuildEqualsSteppedConstruction : Prop :=
  wordsMean 0x6#4 0 (fun _ => .build) ∧
  ∀ s : State,
    (s.phase ≠ .count → exec .build s = .next (raiseState .phaseError s)) ∧
    (s.phase = .count → s.total = 0 → exec .build s = .next (raiseState .emptyInput s)) ∧
    (Inv s → s.phase = .count → s.total ≠ 0 → ∃ t u, exec .build s = .next t ∧
      performCommands (.leaves :: List.replicate ((support s.freq).length - 1) .merge ++ [.codegen]) s = .next u ∧
      (newResponses s u).all (· == encodeResponse .done) = true ∧ t.phase = .ready ∧
      t.nnode + 1 = 2 * (support s.freq).length ∧
      t = { u with resp := s.resp ++ [encodeResponse .done] })

/-- R123: the node store, NLEAF, the heap, ROOT and the code table that a construction ends with are functions of FREQ
alone. -/
def Obligations.ConstructionDependsOnFrequenciesAlone : Prop :=
  ∀ s s' t t' : State, Inv s → Inv s' → s.phase = .count → s'.phase = .count → s.total ≠ 0 → s.freq = s'.freq →
    exec .build s = .next t → exec .build s' = .next t' →
    t.nodes = t'.nodes ∧ t.nleaf = t'.nleaf ∧ t.heap = t'.heap ∧ t.root = t'.root ∧ t.code = t'.code

/-- R122: the code table that construction ends in, by BUILD or stepped, has the least weighted length of all codes over
the keys that are non-empty and prefix-free (for one key, whose code has length 1: of all that are non-empty). -/
def Obligations.BuiltCodeIsOptimal : Prop :=
  ∀ (s t : State) (code : Symbol → Bits), Inv s → s.phase = .count → s.total ≠ 0 →
    (exec .build s = .next t ∨
      performCommands (.leaves :: List.replicate ((support s.freq).length - 1) .merge ++ [.codegen]) s = .next t) →
    (∀ c ∈ support s.freq, code c ≠ []) →
    (∀ c ∈ support s.freq, ∀ d ∈ support s.freq, code c <+: code d → c = d) →
    t.phase = .ready ∧ t.freq = s.freq ∧
      weightedLength t.freq (codeOf t.code) ≤ weightedLength t.freq code

/-! ### The heap primitives -/

/-- R111: HeapLess compares (frequency, index) pairs, unsigned, and is a strict total order on distinct nodes. -/
def Obligations.HeapLessIsAStrictTotalOrder : Prop :=
  ∀ (nodes : List Node) (m n : NodeIdx) (x y : Node), nodeAt nodes m = some x → nodeAt nodes n = some y →
    (heapLess nodes m n = .ok true ↔
      x.freqOf.toNat < y.freqOf.toNat ∨ (x.freqOf.toNat = y.freqOf.toNat ∧ m.toNat < n.toNat)) ∧
    heapLess nodes m m = .ok false ∧
    (m ≠ n → (heapLess nodes m n = .ok true ↔ heapLess nodes n m = .ok false)) ∧
    (∀ k z, nodeAt nodes k = some z → heapLess nodes m n = .ok true → heapLess nodes n k = .ok true →
      heapLess nodes m k = .ok true)

/-- R112: HeapInsert of a node into a heap with a free slot adds exactly that node, does not fault, and keeps the heap
property of R28. -/
def Obligations.HeapInsertAddsTheNodeAndKeepsOrder : Prop :=
  ∀ (nodes : List Node) (n : NodeIdx) (heap : List NodeIdx), (∀ m ∈ heap, (nodeAt nodes m).isSome = true) →
    (nodeAt nodes n).isSome = true → heap.length < 256 →
    ∃ heap', heapInsert nodes n heap = .ok heap' ∧ heap'.Perm (n :: heap) ∧
      (heapOrdered nodes heap → heapOrdered nodes heap')

/-- R113, R114: HeapExtractMin of a non-empty heap takes out exactly the node of slot 0, does not fault, keeps the heap
property, and where that property holds the node is the one of least key. -/
def Obligations.HeapExtractMinTakesTheLeast : Prop :=
  ∀ (nodes : List Node) (heap : List NodeIdx), (∀ m ∈ heap, (nodeAt nodes m).isSome = true) → heap ≠ [] →
    ∃ r heap', heapExtractMin nodes heap = .ok (r, heap') ∧ heap.head? = some r ∧ heap.Perm (r :: heap') ∧
      (heapOrdered nodes heap → heapOrdered nodes heap' ∧ leastKey nodes heap r)

/-! ### RDCODE, ENC, DBIT, DEND (42_code_table.md to 44_decoder.md) -/

/-- R136: RDCODE c in phase READY answers the length and the digits of c's code, or the length 0, then DONE, and changes
nothing else; a code has 1 to 255 digits; out of phase READY it raises PhaseError. -/
def Obligations.RdcodeReadsTheCode : Prop :=
  wordsMean 0xE#4 8 .rdcode ∧
  ∀ (c : Symbol) (s : State),
    (s.phase ≠ .ready → exec (.rdcode c) s = .next (raiseState .phaseError s)) ∧
    (s.phase = .ready → ∀ p, tableGet s.code c = some p → exec (.rdcode c) s = .next
      { s with resp := s.resp ++ (encodeResponse (.data (BitVec.ofNat 32 p.length)) ::
                 (p.map (fun b => encodeResponse (.bit b)) ++ [encodeResponse .done])) }) ∧
    (s.phase = .ready → tableGet s.code c = none → exec (.rdcode c) s = .next
      { s with resp := s.resp ++ [encodeResponse (.data 0), encodeResponse .done] }) ∧
    (Inv s → s.phase = .ready → ∀ p, tableGet s.code c = some p → 1 ≤ p.length ∧ p.length ≤ 255)

/-- R141: ENC c in phase READY emits the digits of c's code, first digit first, then DONE, and changes nothing else; a
symbol without a code raises UnknownSymbolError naming it, with no BIT word; a code has 1 to 255 digits; out of phase
READY it raises PhaseError. -/
def Obligations.EncEmitsTheCode : Prop :=
  wordsMean 0x7#4 8 .enc ∧
  ∀ (c : Symbol) (s : State),
    (s.phase ≠ .ready → exec (.enc c) s = .next (raiseState .phaseError s)) ∧
    (s.phase = .ready → tableGet s.code c = none → exec (.enc c) s = .next (raiseState (.unknownSymbol c) s)) ∧
    (s.phase = .ready → ∀ p, tableGet s.code c = some p → exec (.enc c) s = .next
      { s with resp := s.resp ++ (p.map (fun b => encodeResponse (.bit b)) ++ [encodeResponse .done]) }) ∧
    (Inv s → s.phase = .ready → ∀ p, tableGet s.code c = some p → 1 ≤ p.length ∧ p.length ≤ 255)

/-- R91 (ENCODE), R142, R144: for a text whose symbols all have codes, every ENC command of the call is issued and ends
without error, the host's result is the concatenation of their codes, its length the sum of their lengths, and the block's
state is unchanged; for a text with a symbol that has none, the call stops with ERRSYM naming the first such symbol, the
host has no result, and only LASTERR and ERRSYM change. A host that goes on past the ERR has no result either. -/
def Obligations.EncodeConcatenatesTheCodes : Prop :=
  (∀ (text : List Symbol) (s : State), Inv s → s.phase = .ready → (∃ c ∈ text, tableGet s.freq c = 0) →
    (∃ t, encodeCall text s = .next t ∧ encodeResult (newResponses s t) = none ∧
      text.find? (fun c => tableGet s.freq c == 0) = some t.errsym ∧
      t = { s with lasterr := 2#3, errsym := t.errsym, resp := t.resp }) ∧
    ∃ t, performCommands (encodeCommands text) s = .next t ∧ encodeResult (newResponses s t) = none ∧
      t = { s with lasterr := 2#3, errsym := t.errsym, resp := t.resp }) ∧
  ∀ (text : List Symbol) (s : State), Inv s → s.phase = .ready → (∀ c ∈ text, tableGet s.freq c ≠ 0) →
    ∃ t, encodeCall text s = .next t ∧ performCommands (encodeCommands text) s = .next t ∧
      encodeResult (newResponses s t) = some (text.flatMap (codeOf s.code)) ∧
      (text.flatMap (codeOf s.code)).length = (text.map (fun c => (codeOf s.code c).length)).sum ∧
      t = { s with resp := t.resp }

/-- R91 (ENCODE), R204: where `c` is the first symbol of a text that has no code, the call issues ENC for the symbols
before it and for `c`, and nothing after the ERR: the responses are the digits and DONE of each symbol before `c`, then
ERR(2, c), whatever stands in the text after it. The host has no result; the instance stays READY, with the code table it
had. -/
def Obligations.EncodeStopsAtTheFirstUnknownSymbol : Prop :=
  ∀ (before rest : List Symbol) (c : Symbol) (s : State), Inv s → s.phase = .ready →
    (∀ d ∈ before, tableGet s.freq d ≠ 0) → tableGet s.freq c = 0 →
    ∃ t, encodeCall (before ++ c :: rest) s = .next t ∧
      newResponses s t = before.flatMap (fun d => (codeOf s.code d).map (fun b => encodeResponse (.bit b)) ++
        [encodeResponse .done]) ++ [encodeResponse (.err 2#3 c)] ∧
      encodeResult (newResponses s t) = none ∧
      t = { s with lasterr := 2#3, errsym := c, resp := s.resp ++ newResponses s t }

/-- R146: Match(a) is the symbol whose code is exactly a; in a ready instance there is at most one, and none for the empty
Bitstring. -/
def Obligations.MatchFindsTheOneSymbol : Prop :=
  ∀ (s : State) (a : Bits), Inv s → s.phase = .ready →
    (∀ c, matchCode s.code a = some c ↔ tableGet s.code c = some a) ∧
    (matchCode s.code a = none ↔ ∀ c, tableGet s.code c ≠ some a) ∧
    (∀ c d, tableGet s.code c = some a → tableGet s.code d = some a → c = d) ∧
    matchCode s.code [] = none

/-- R147, R148: DBIT b in phase READY drops the digit and sets ACCOVF when ACCOVF is set or 255 digits are held; else it
appends it, and on a match emits the symbol and clears ACC; then DONE; out of phase READY it raises PhaseError. -/
def Obligations.DbitAccumulatesAndMatches : Prop :=
  wordsMean 0x8#4 1 .dbit ∧
  ∀ (b : Digit) (s : State),
    (s.phase ≠ .ready → exec (.dbit b) s = .next (raiseState .phaseError s)) ∧
    (s.phase = .ready → s.accovf = true ∨ s.acc.length = 255 → exec (.dbit b) s = .next
      { s with accovf := true, resp := s.resp ++ [encodeResponse .done] }) ∧
    (s.phase = .ready → s.accovf = false → s.acc.length ≠ 255 → ∀ c, matchCode s.code (s.acc ++ [b]) = some c →
      exec (.dbit b) s = .next
        { s with acc := [], resp := s.resp ++ [encodeResponse (.symb c), encodeResponse .done] }) ∧
    (s.phase = .ready → s.accovf = false → s.acc.length ≠ 255 → matchCode s.code (s.acc ++ [b]) = none →
      exec (.dbit b) s = .next { s with acc := s.acc ++ [b], resp := s.resp ++ [encodeResponse .done] })

/-- R149: DEND in phase READY with an empty accumulator ends in DONE and changes nothing; with a non-empty one it clears
ACC and ACCOVF and raises MalformedBitstreamError; out of phase READY it raises PhaseError. -/
def Obligations.DendClosesTheCall : Prop :=
  wordsMean 0x9#4 0 (fun _ => .dend) ∧
  ∀ s : State,
    (s.phase ≠ .ready → exec .dend s = .next (raiseState .phaseError s)) ∧
    (s.phase = .ready → s.acc = [] → exec .dend s = .next { s with resp := s.resp ++ [encodeResponse .done] }) ∧
    (s.phase = .ready → s.acc ≠ [] → exec .dend s = .next
      { s with acc := [], accovf := false, lasterr := 3#3, resp := s.resp ++ [0x100000003#36] })

/-! ### Read-outs (45_readout.md) -/

/-- R160, R40, R41: RDREG r in every phase answers the register's value zero-extended to 32 bits, then DONE, and changes
nothing else; numbers 9 to 15 raise RangeError. STATUS has PHASE in [1:0], ACCNE in [2], ACCOVF in [3], 0 above. -/
def Obligations.RdregReadsTheRegister : Prop :=
  wordsMean 0xA#4 4 .rdreg ∧
  (∀ s : State, (statusWord s).extractLsb' 0 2 = phaseCode s.phase ∧
    (statusWord s)[2] = decide (s.acc ≠ []) ∧ (statusWord s)[3] = s.accovf ∧ (statusWord s).extractLsb' 4 28 = 0#28) ∧
  ∀ (r : RegNum) (s : State),
    (9 ≤ r.toNat → exec (.rdreg r) s = .next (raiseState .range s)) ∧
    (∀ v, (r.toNat, v) ∈ [(0, statusWord s), (1, s.lasterr.setWidth 32), (2, s.errsym.setWidth 32), (3, s.total),
        (4, s.nleaf.setWidth 32), (5, BitVec.ofNat 32 s.nnode), (6, s.root.setWidth 32), (7, BitVec.ofNat 32 s.heapn),
        (8, BitVec.ofNat 32 s.acc.length)] →
      exec (.rdreg r) s = .next { s with resp := s.resp ++ [encodeResponse (.data v), encodeResponse .done] })

/-- R161: RDFREQ c in every phase answers FREQ[c], then DONE, and changes nothing else. -/
def Obligations.RdfreqReadsTheCount : Prop :=
  wordsMean 0xB#4 8 .rdfreq ∧
  ∀ (c : Symbol) (s : State), exec (.rdfreq c) s = .next
    { s with resp := s.resp ++ [encodeResponse (.data (tableGet s.freq c)), encodeResponse .done] }

/-- R162: RDNODE i in every phase answers kind, frequency and the two fields of node i, then DONE, and changes nothing
else; i ≥ NNODE raises RangeError. -/
def Obligations.RdnodeReadsTheNode : Prop :=
  wordsMean 0xC#4 9 .rdnode ∧
  ∀ (i : NodeIdx) (s : State),
    (s.nnode ≤ i.toNat → exec (.rdnode i) s = .next (raiseState .range s)) ∧
    (∀ c f, s.nodes[i.toNat]? = some (.leaf c f) → exec (.rdnode i) s = .next
      { s with resp := s.resp ++ [encodeResponse (.data 0), encodeResponse (.data f),
                 encodeResponse (.data (c.setWidth 32)), encodeResponse (.data 0), encodeResponse .done] }) ∧
    (∀ f l r, s.nodes[i.toNat]? = some (.internal f l r) → exec (.rdnode i) s = .next
      { s with resp := s.resp ++ [encodeResponse (.data 1), encodeResponse (.data f),
                 encodeResponse (.data (l.setWidth 32)), encodeResponse (.data (r.setWidth 32)),
                 encodeResponse .done] })

/-- R163: RDHEAP j in every phase answers the node index in slot j, then DONE, and changes nothing else; j ≥ HEAPN raises
RangeError. -/
def Obligations.RdheapReadsTheSlot : Prop :=
  wordsMean 0xD#4 9 .rdheap ∧
  ∀ (j : NodeIdx) (s : State),
    (s.heapn ≤ j.toNat → exec (.rdheap j) s = .next (raiseState .range s)) ∧
    (∀ n, s.heap[j.toNat]? = some n → exec (.rdheap j) s = .next
      { s with resp := s.resp ++ [encodeResponse (.data (n.setWidth 32)), encodeResponse .done] })

/-- R164: RDREG, RDFREQ, RDNODE, RDHEAP and RDCODE change no state of the block when they end in DONE and only LASTERR when
they end in ERR, and the same command twice in a row gives the same responses. -/
def Obligations.ReadoutsChangeNothing : Prop :=
  ∀ (i : Instr) (s t : State),
    (∃ r, i = .rdreg r) ∨ (∃ c, i = .rdfreq c) ∨ (∃ n, i = .rdnode n) ∨ (∃ j, i = .rdheap j) ∨ (∃ c, i = .rdcode c) →
    exec i s = .next t →
    t = { s with lasterr := t.lasterr, resp := t.resp } ∧
    ((newResponses s t).all (fun r => !isErr r) = true → t.lasterr = s.lasterr) ∧
    ∃ u, exec i t = .next u ∧ newResponses t u = newResponses s t

/-! ### Properties of a ready instance -/

/-- R134: (a) the valid codes are those of the symbols with FREQ ≠ 0; (b) their lengths; (c) distinct symbols have
distinct codes; (d) no code is a prefix of another; (e) with k > 1 every Bitstring of 255 digits has exactly one code as
a prefix, with k = 1 none that begins with 1 has. -/
def Obligations.CodeTableIsPrefixFreeAndComplete : Prop :=
  ∀ s : State, Inv s → s.phase = .ready →
    (∀ c, (∃ p, tableGet s.code c = some p) ↔ tableGet s.freq c ≠ 0) ∧
    (∀ c p, tableGet s.code c = some p → 1 ≤ p.length ∧ p.length ≤ 255 ∧
      (1 < s.nleaf.toNat → p.length + 1 ≤ s.nleaf.toNat) ∧ (s.nleaf.toNat = 1 → p.length = 1)) ∧
    (∀ c d p, tableGet s.code c = some p → tableGet s.code d = some p → c = d) ∧
    (∀ c d p q, tableGet s.code c = some p → tableGet s.code d = some q → c ≠ d → ¬ p <+: q) ∧
    (1 < s.nleaf.toNat → ∀ bits : Bits, bits.length = 255 →
      ∃ c p, tableGet s.code c = some p ∧ p <+: bits ∧
        ∀ d q, tableGet s.code d = some q → q <+: bits → d = c) ∧
    (s.nleaf.toNat = 1 → ∀ bits : Bits, ∀ c p, tableGet s.code c = some p → ¬ p <+: (1#1 :: bits))

/-- R153: with k > 1, Match(a) is c exactly when the digits of a lead from ROOT to the leaf of c. -/
def Obligations.MatchIsAWalkOfTheTree : Prop :=
  ∀ (s : State) (a : Bits) (c : Symbol), Inv s → s.phase = .ready → 1 < s.nleaf.toNat →
    (matchCode s.code a = some c ↔
      ∃ i f, follow s.nodes s.root a = some i ∧ nodeAt s.nodes i = some (.leaf c f))

/-- R151: a decode call, DBIT words ended by one DEND with any other words but RESET interleaved, ends with an empty
accumulator in phase READY, adding its responses to those emitted before. Its result is what the DBIT words and the DEND
alone give: the SYMB payloads in order where the DEND ends in DONE, nothing where it ends in ERR(3, 0), whatever error an
interleaved command ended in. -/
def Obligations.DecodeCallIsDecidedByItsDend : Prop :=
  ∀ (ws : List CmdWord) (s : State), Inv s → s.phase = .ready →
    (∀ w ∈ ws, w ≠ encode .reset ∧ w ≠ encode .dend) →
    ∃ t u, performWords (ws ++ [encode .dend]) s = .next t ∧
      performWords (ws.filter isDbitWord ++ [encode .dend]) s = .next u ∧
      decodeResult (newResponses s t) = decodeResult (newResponses s u) ∧
      ((t.resp.getLast? = some (encodeResponse .done) ∧
          decodeResult (newResponses s t) = some (symbolPayloads (newResponses s t))) ∨
        (t.resp.getLast? = some 0x100000003#36 ∧ decodeResult (newResponses s t) = none)) ∧
      t.resp = s.resp ++ newResponses s t ∧ t.acc = [] ∧ t.accovf = false ∧ t.phase = .ready

/-- R75, R88: in phase READY, with no RESET among the words of all callers, the words of one caller are answered as if
they were presented alone, when of the DBIT and DEND words either all are its own or none. RDREG is excepted among its own:
it answers registers that other callers' commands write. -/
def Obligations.InterleavedCommandsAnswerAsAlone : Prop :=
  ∀ (cs : List (Bool × CmdWord)) (s : State), Inv s → s.phase = .ready → (∀ x ∈ cs, x.2 ≠ encode .reset) →
    (∀ x ∈ cs, x.1 = true → ∀ r, x.2 ≠ encode (.rdreg r)) →
    (∃ own, ∀ x ∈ cs, isDecodeWord x.2 = true → x.1 = own) →
    ∃ t u, performWords (cs.map (fun x => x.2)) s = .next t ∧
      performWords ((cs.filter (fun x => x.1)).map (fun x => x.2)) s = .next u ∧
      ownResponses (cs.map (fun x => x.1)) (newResponses s t) = newResponses s u

/-- R91 (CODETABLE), R136: in phase READY the 256 RDCODE commands give the mapping of exactly the valid codes, by ascending
symbol, and change nothing but the responses. -/
def Obligations.CodetableIsTheMapping : Prop :=
  ∀ s : State, Inv s → s.phase = .ready →
    ∃ t m, performCommands codetableCommands s = .next t ∧
      codetableResult (responseGroups (newResponses s t)) = some m ∧
      (∀ c p, (c, p) ∈ m ↔ tableGet s.code c = some p) ∧ m.map (fun e => e.1) = support s.freq ∧
      t = { s with resp := t.resp }

/-- R152, second part: with k > 1, a ready state whose accumulator is a proper prefix of some code stays one under every
command that keeps it in phase READY, so |ACC| ≤ 254 and ACCOVF = 0 between commands; construction starts it so. -/
def Obligations.AccumulatorStaysAProperPrefix : Prop :=
  (∀ (w : CmdWord) (s t : State), Inv s → s.phase = .ready → 1 < s.nleaf.toNat → properPrefixOfCode s.code s.acc →
    s.accovf = false → performWord w s = .next t → t.phase = .ready →
    properPrefixOfCode t.code t.acc ∧ t.accovf = false ∧ t.acc.length ≤ 254) ∧
  (∀ s : State, Inv s → s.phase = .ready → s.acc = [] → properPrefixOfCode s.code s.acc)

/-- R152, first part: from an empty accumulator, the responses to any sequence of DBIT and DEND commands are those of the
document's decoder with an unbounded accumulator. -/
def Obligations.BoundedAccumulatorIsUnobservable : Prop :=
  ∀ (inputs : List DecodeInput) (s : State), Inv s → s.phase = .ready → s.acc = [] →
    ∃ t, performCommands (inputs.map DecodeInput.command) s = .next t ∧
      t.resp = s.resp ++ (unboundedDecode s.code inputs []).map encodeResponse

/-- R156: in phase READY, for every text whose symbols all have codes, decoding what the ENC commands of the call emitted,
from an empty accumulator, emits the symbols of the text in order, and DEND ends in DONE. -/
def Obligations.DecodeOfEncodeIsTheText : Prop :=
  ∀ (text : List Symbol) (s : State), Inv s → s.phase = .ready → s.acc = [] → (∀ c ∈ text, tableGet s.freq c ≠ 0) →
    ∃ t u d, encodeCall text s = .next t ∧ encodeResult (newResponses s t) = some d ∧
      performCommands (decodeCommands d) t = .next u ∧ decodeResult (newResponses t u) = some text ∧
      noErrors (newResponses t u) = true ∧ u.acc = []
end

