-- ==== Sys2Proof/Laws/State.lean ====
section
/-! SUPPORT. One lemma per field per named update of State, true by definition. -/

namespace Sys2Proof.Machine

section

variable (s : State) (rs : List Response) (e : ErrKind) (w : CmdWord)

/-! ### emitAll -/

@[simp] theorem emitAll_phase : (emitAll rs s).phase = s.phase := rfl
@[simp] theorem emitAll_freq : (emitAll rs s).freq = s.freq := rfl
@[simp] theorem emitAll_total : (emitAll rs s).total = s.total := rfl
@[simp] theorem emitAll_nodes : (emitAll rs s).nodes = s.nodes := rfl
@[simp] theorem emitAll_nleaf : (emitAll rs s).nleaf = s.nleaf := rfl
@[simp] theorem emitAll_heap : (emitAll rs s).heap = s.heap := rfl
@[simp] theorem emitAll_root : (emitAll rs s).root = s.root := rfl
@[simp] theorem emitAll_code : (emitAll rs s).code = s.code := rfl
@[simp] theorem emitAll_acc : (emitAll rs s).acc = s.acc := rfl
@[simp] theorem emitAll_accovf : (emitAll rs s).accovf = s.accovf := rfl
@[simp] theorem emitAll_lasterr : (emitAll rs s).lasterr = s.lasterr := rfl
@[simp] theorem emitAll_errsym : (emitAll rs s).errsym = s.errsym := rfl
@[simp] theorem emitAll_resp : (emitAll rs s).resp = s.resp ++ rs.map encodeResponse := rfl
@[simp] theorem emitAll_port : (emitAll rs s).port = s.port := rfl

/-! ### raiseState -/

@[simp] theorem raiseState_phase : (raiseState e s).phase = s.phase := rfl
@[simp] theorem raiseState_freq : (raiseState e s).freq = s.freq := rfl
@[simp] theorem raiseState_total : (raiseState e s).total = s.total := rfl
@[simp] theorem raiseState_nodes : (raiseState e s).nodes = s.nodes := rfl
@[simp] theorem raiseState_nleaf : (raiseState e s).nleaf = s.nleaf := rfl
@[simp] theorem raiseState_heap : (raiseState e s).heap = s.heap := rfl
@[simp] theorem raiseState_root : (raiseState e s).root = s.root := rfl
@[simp] theorem raiseState_code : (raiseState e s).code = s.code := rfl
@[simp] theorem raiseState_acc : (raiseState e s).acc = s.acc := rfl
@[simp] theorem raiseState_accovf : (raiseState e s).accovf = s.accovf := rfl
@[simp] theorem raiseState_lasterr : (raiseState e s).lasterr = errCode e := rfl
@[simp] theorem raiseState_errsym : (raiseState e s).errsym = errsymAfter e s.errsym := rfl
@[simp] theorem raiseState_resp : (raiseState e s).resp = s.resp ++ [encodeResponse (.err (errCode e) (errInfo e))] := rfl
@[simp] theorem raiseState_port : (raiseState e s).port = s.port := rfl

/-! ### resetBlock -/

@[simp] theorem resetBlock_phase : (resetBlock s).phase = .count := rfl
@[simp] theorem resetBlock_freq : (resetBlock s).freq = Vector.replicate 256 0 := rfl
@[simp] theorem resetBlock_total : (resetBlock s).total = 0 := rfl
@[simp] theorem resetBlock_nodes : (resetBlock s).nodes = [] := rfl
@[simp] theorem resetBlock_nleaf : (resetBlock s).nleaf = 0 := rfl
@[simp] theorem resetBlock_heap : (resetBlock s).heap = [] := rfl
@[simp] theorem resetBlock_root : (resetBlock s).root = 0 := rfl
@[simp] theorem resetBlock_code : (resetBlock s).code = Vector.replicate 256 none := rfl
@[simp] theorem resetBlock_acc : (resetBlock s).acc = [] := rfl
@[simp] theorem resetBlock_accovf : (resetBlock s).accovf = false := rfl
@[simp] theorem resetBlock_lasterr : (resetBlock s).lasterr = 0 := rfl
@[simp] theorem resetBlock_errsym : (resetBlock s).errsym = 0 := rfl
@[simp] theorem resetBlock_resp : (resetBlock s).resp = s.resp := rfl
@[simp] theorem resetBlock_port : (resetBlock s).port = s.port := rfl

/-! ### hardwareReset -/

@[simp] theorem hardwareReset_phase : (hardwareReset s).phase = .count := rfl
@[simp] theorem hardwareReset_freq : (hardwareReset s).freq = Vector.replicate 256 0 := rfl
@[simp] theorem hardwareReset_total : (hardwareReset s).total = 0 := rfl
@[simp] theorem hardwareReset_nodes : (hardwareReset s).nodes = [] := rfl
@[simp] theorem hardwareReset_nleaf : (hardwareReset s).nleaf = 0 := rfl
@[simp] theorem hardwareReset_heap : (hardwareReset s).heap = [] := rfl
@[simp] theorem hardwareReset_root : (hardwareReset s).root = 0 := rfl
@[simp] theorem hardwareReset_code : (hardwareReset s).code = Vector.replicate 256 none := rfl
@[simp] theorem hardwareReset_acc : (hardwareReset s).acc = [] := rfl
@[simp] theorem hardwareReset_accovf : (hardwareReset s).accovf = false := rfl
@[simp] theorem hardwareReset_lasterr : (hardwareReset s).lasterr = 0 := rfl
@[simp] theorem hardwareReset_errsym : (hardwareReset s).errsym = 0 := rfl
@[simp] theorem hardwareReset_resp : (hardwareReset s).resp = [] := rfl
@[simp] theorem hardwareReset_port : (hardwareReset s).port = s.port := rfl

/-! ### presentFirst -/

@[simp] theorem presentFirst_phase : (presentFirst w s).phase = s.phase := rfl
@[simp] theorem presentFirst_freq : (presentFirst w s).freq = s.freq := rfl
@[simp] theorem presentFirst_total : (presentFirst w s).total = s.total := rfl
@[simp] theorem presentFirst_nodes : (presentFirst w s).nodes = s.nodes := rfl
@[simp] theorem presentFirst_nleaf : (presentFirst w s).nleaf = s.nleaf := rfl
@[simp] theorem presentFirst_heap : (presentFirst w s).heap = s.heap := rfl
@[simp] theorem presentFirst_root : (presentFirst w s).root = s.root := rfl
@[simp] theorem presentFirst_code : (presentFirst w s).code = s.code := rfl
@[simp] theorem presentFirst_acc : (presentFirst w s).acc = s.acc := rfl
@[simp] theorem presentFirst_accovf : (presentFirst w s).accovf = s.accovf := rfl
@[simp] theorem presentFirst_lasterr : (presentFirst w s).lasterr = s.lasterr := rfl
@[simp] theorem presentFirst_errsym : (presentFirst w s).errsym = s.errsym := rfl
@[simp] theorem presentFirst_resp : (presentFirst w s).resp = s.resp := rfl
@[simp] theorem presentFirst_port : (presentFirst w s).port = .word w :: s.port := rfl

end

end Sys2Proof.Machine
end

