-- ==== Sys2Proof/Laws/Ops.lean ====
section
/-! SUPPORT. What the named operations do: tables, responses, raising an error, the node store. -/

namespace Sys2Proof.Machine

/-! ### Tables -/

@[simp] theorem tableGet_tableSet_same {α : Type} (t : Vector α 256) (c : Symbol) (x : α) :
    tableGet (tableSet t c x) c = x := by
  simp [tableGet, tableSet]

theorem tableGet_tableSet_other {α : Type} (t : Vector α 256) {c d : Symbol} (x : α) (h : c ≠ d) :
    tableGet (tableSet t c x) d = tableGet t d := by
  have hn : c.toNat ≠ d.toNat := fun e => h (BitVec.eq_of_toNat_eq e)
  simp [tableGet, tableSet, hn]

theorem tableGet_tableSet {α : Type} (t : Vector α 256) (c d : Symbol) (x : α) :
    tableGet (tableSet t c x) d = if c = d then x else tableGet t d := by
  split
  · subst_vars; simp
  · exact tableGet_tableSet_other t x ‹_›

@[simp] theorem tableGet_replicate {α : Type} (x : α) (c : Symbol) : tableGet (Vector.replicate 256 x) c = x := by
  simp [tableGet]

theorem table_ext {α : Type} {t u : Vector α 256} (h : ∀ c, tableGet t c = tableGet u c) : t = u := by
  apply Vector.ext
  intro i hi
  have := h (BitVec.ofNat 8 i)
  simpa [tableGet, Nat.mod_eq_of_lt hi] using this

theorem mem_allSymbols (c : Symbol) : c ∈ allSymbols := by
  simp only [allSymbols, List.mem_map, List.mem_range]
  exact ⟨c.toNat, c.isLt, by simp⟩

theorem allSymbols_nodup : allSymbols.Nodup := by
  unfold allSymbols
  refine List.Nodup.map_on ?_ List.nodup_range
  intro a ha b hb h
  have := congrArg BitVec.toNat h
  simp only [List.mem_range] at ha hb
  simpa [Nat.mod_eq_of_lt ha, Nat.mod_eq_of_lt hb] using this

@[simp] theorem allSymbols_length : allSymbols.length = 256 := by simp [allSymbols]

/-! ### Outcomes -/

theorem complete_next (rs : List Response) (s : State) : complete rs s = .next (emitAll (rs ++ [.done]) s) := rfl

theorem raise_next (e : ErrKind) (s : State) : raise e s = .next (raiseState e s) := rfl

@[simp] theorem completeBody_ok (s : State) : completeBody (.ok s) = .next (emitAll [.done] s) := rfl

@[simp] theorem completeBody_error (f : Fault) : completeBody (.error f) = .fault f := rfl

/-- A body that completes gave its state. -/
theorem completeBody_eq_next {b : Except Fault State} {t : State} (h : completeBody b = .next t) :
    ∃ u, b = .ok u ∧ t = emitAll [.done] u := by
  cases b with
  | ok u => exact ⟨u, rfl, by simpa using h.symm⟩
  | error f => simp at h

/-! ### The node store -/

theorem nodeAt_of_lt {nodes : List Node} {n : NodeIdx} (h : n.toNat < nodes.length) :
    nodeAt nodes n = some nodes[n.toNat] := by
  simp [nodeAt, h]

theorem nodeAt_append {nodes : List Node} {n : NodeIdx} (more : List Node) (h : n.toNat < nodes.length) :
    nodeAt (nodes ++ more) n = nodeAt nodes n := by
  simp [nodeAt, List.getElem?_append_left h]

theorem lt_of_nodeAt {nodes : List Node} {n : NodeIdx} {x : Node} (h : nodeAt nodes n = some x) :
    n.toNat < nodes.length := by
  simp only [nodeAt, List.getElem?_eq_some_iff] at h
  exact h.1

theorem pushNode_ok {n : Node} {s : State} (h : s.nodes.length < 511) :
    pushNode n s = .ok (BitVec.ofNat 9 s.nodes.length, { s with nodes := s.nodes ++ [n] }) := by
  simp [pushNode, h]

theorem weightOf_append {nodes : List Node} {n : NodeIdx} (more : List Node) (h : n.toNat < nodes.length) :
    weightOf (nodes ++ more) n = weightOf nodes n := by
  simp [weightOf, nodeAt_append more h]

theorem toNat_ofNat9 {k : Nat} (h : k < 511) : (BitVec.ofNat 9 k).toNat = k := by
  simp only [BitVec.toNat_ofNat]; omega

end Sys2Proof.Machine
end

