-- ==== Sys2Proof/Laws/Heap.lean ====
section
/-! SUPPORT. What the heap primitives do (spec 41_tree_builder.md R111 to R114). The key of a node is one natural
number, so that the order of R111 is the order of numbers. -/

namespace Sys2Proof.Machine

/-- The key (frequency, index) as one number: an index is below 512. -/
def keyNat (nodes : List Node) (n : NodeIdx) : Nat := weightOf nodes n * 512 + n.toNat

/-- Every slot names a node that holds a value. -/
def validHeap (nodes : List Node) (heap : List NodeIdx) : Prop := ∀ n ∈ heap, n.toNat < nodes.length

theorem keyNat_injective {nodes : List Node} {m n : NodeIdx} (h : keyNat nodes m = keyNat nodes n) : m = n := by
  apply BitVec.eq_of_toNat_eq
  have hm := m.isLt
  have hn := n.isLt
  simp only [keyNat] at h
  omega

theorem keyNat_append {nodes : List Node} {n : NodeIdx} (more : List Node) (h : n.toNat < nodes.length) :
    keyNat (nodes ++ more) n = keyNat nodes n := by
  simp [keyNat, weightOf_append more h]

theorem keyLess_eq (f g : Freq) (m n : NodeIdx) :
    keyLess f m g n = decide (f.toNat * 512 + m.toNat < g.toNat * 512 + n.toNat) := by
  have hm := m.isLt
  have hn := n.isLt
  simp only [keyLess, BitVec.lt_def, decide_eq_decide]
  constructor
  · rintro (h | ⟨rfl, h⟩) <;> omega
  · intro h
    rcases Nat.lt_trichotomy f.toNat g.toNat with h1 | h1 | h1
    · exact .inl h1
    · exact .inr ⟨BitVec.eq_of_toNat_eq h1, by omega⟩
    · omega

theorem heapLess_eq {nodes : List Node} {m n : NodeIdx} (hm : m.toNat < nodes.length) (hn : n.toNat < nodes.length) :
    heapLess nodes m n = .ok (decide (keyNat nodes m < keyNat nodes n)) := by
  simp [heapLess, nodeAt_of_lt hm, nodeAt_of_lt hn, keyLess_eq, keyNat, weightOf]

theorem slotLess_eq {nodes : List Node} {heap : List NodeIdx} (hv : validHeap nodes heap) {a b : Nat}
    (ha : a < heap.length) (hb : b < heap.length) :
    slotLess nodes heap a b = .ok (decide (keyNat nodes heap[a] < keyNat nodes heap[b])) := by
  simp [slotLess, ha, hb, heapLess_eq (hv _ (List.getElem_mem ha)) (hv _ (List.getElem_mem hb))]

theorem parentSlot_lt {j : Nat} (h : 0 < j) : parentSlot j < j := by
  simp only [parentSlot, Nat.shiftRight_succ, Nat.shiftRight_zero]; omega

theorem parentSlot_eq (j : Nat) : parentSlot j = (j - 1) / 2 := by
  simp [parentSlot, Nat.shiftRight_succ]

/-! ### Swapping two slots -/

theorem swapSlots_eq {heap : List NodeIdx} {a b : Nat} (ha : a < heap.length) (hb : b < heap.length) :
    swapSlots heap a b = (heap.set a heap[b]).set b heap[a] := by
  simp [swapSlots, ha, hb]

theorem swapSlots_perm (heap : List NodeIdx) (a b : Nat) : (swapSlots heap a b).Perm heap := by
  by_cases ha : a < heap.length
  · by_cases hb : b < heap.length
    · rw [swapSlots_eq ha hb]; exact List.set_set_perm ha hb
    · simp [swapSlots, hb]
  · simp [swapSlots, ha]

@[simp] theorem swapSlots_length (heap : List NodeIdx) (a b : Nat) : (swapSlots heap a b).length = heap.length :=
  (swapSlots_perm heap a b).length_eq

theorem validHeap_perm {nodes : List Node} {h h' : List NodeIdx} (p : h'.Perm h) (hv : validHeap nodes h) :
    validHeap nodes h' := fun n hn => hv n (p.mem_iff.mp hn)

/-- The key in slot i. -/
def slotKey (nodes : List Node) (heap : List NodeIdx) (i : Nat) : Nat :=
  match heap[i]? with
  | some n => keyNat nodes n
  | none => 0

theorem slotKey_lt {nodes : List Node} {heap : List NodeIdx} {i : Nat} (h : i < heap.length) :
    slotKey nodes heap i = keyNat nodes heap[i] := by
  simp [slotKey, h]

theorem slotLess_key {nodes : List Node} {heap : List NodeIdx} (hv : validHeap nodes heap) {a b : Nat}
    (ha : a < heap.length) (hb : b < heap.length) :
    slotLess nodes heap a b = .ok (decide (slotKey nodes heap a < slotKey nodes heap b)) := by
  rw [slotLess_eq hv ha hb, slotKey_lt ha, slotKey_lt hb]

theorem slotKey_swap (nodes : List Node) {heap : List NodeIdx} {a b : Nat} (ha : a < heap.length)
    (hb : b < heap.length) (i : Nat) :
    slotKey nodes (swapSlots heap a b) i =
      if i = a then slotKey nodes heap b else if i = b then slotKey nodes heap a else slotKey nodes heap i := by
  rw [swapSlots_eq ha hb]
  simp only [slotKey, List.getElem?_set, List.length_set]
  by_cases h1 : i = a <;> by_cases h2 : i = b <;> subst_vars <;> simp_all [eq_comm]

/-- The heap property (R28) on keys. -/
theorem heapOrdered_iff {nodes : List Node} {heap : List NodeIdx} (hv : validHeap nodes heap) :
    heapOrdered nodes heap ↔
      ∀ j, j < heap.length → 1 ≤ j → slotKey nodes heap (parentSlot j) ≤ slotKey nodes heap j := by
  unfold heapOrdered
  refine forall_congr' fun j => forall_congr' fun hj => forall_congr' fun h1 => ?_
  have hp := parentSlot_lt (show 0 < j from h1)
  rw [slotLess_key hv hj (by omega)]
  simp

/-! ### Sift up (R112) -/

/-- The heap property but for the edge above slot j, across which the grandparent still bounds the children. -/
def orderedBut (nodes : List Node) (heap : List NodeIdx) (j : Nat) : Prop :=
  (∀ i, i < heap.length → 1 ≤ i → i ≠ j → slotKey nodes heap (parentSlot i) ≤ slotKey nodes heap i) ∧
  (∀ i, i < heap.length → 1 ≤ i → 1 ≤ j → parentSlot i = j →
    slotKey nodes heap (parentSlot j) ≤ slotKey nodes heap i)

/-- Sift up ends without fault in an arrangement of the same nodes, and restores the heap property. -/
theorem siftUp_spec {nodes : List Node} : ∀ (turns j : Nat) (heap : List NodeIdx), validHeap nodes heap →
    j < heap.length → j ≤ turns →
    ∃ heap', siftUp nodes turns j heap = .ok heap' ∧ heap'.Perm heap ∧
      (orderedBut nodes heap j → heapOrdered nodes heap')
  | 0, j, heap, hv, hj, ht => by
    obtain rfl : j = 0 := by omega
    refine ⟨heap, rfl, List.Perm.refl _, fun ho => (heapOrdered_iff hv).mpr fun i hi h1 => ho.1 i hi h1 (by omega)⟩
  | turns + 1, j, heap, hv, hj, ht => by
    unfold siftUp
    by_cases h0 : j = 0
    · subst h0
      refine ⟨heap, by simp, List.Perm.refl _, fun ho => (heapOrdered_iff hv).mpr fun i hi h1 => ho.1 i hi h1 (by omega)⟩
    · have hp : parentSlot j < j := parentSlot_lt (by omega)
      rw [slotLess_key hv hj (by omega), if_neg h0]
      by_cases hk : slotKey nodes heap j < slotKey nodes heap (parentSlot j)
      · obtain ⟨heap', he, hperm, hord⟩ := siftUp_spec turns (parentSlot j) (swapSlots heap j (parentSlot j))
          (validHeap_perm (swapSlots_perm ..) hv) (by rw [swapSlots_length]; omega) (by omega)
        refine ⟨heap', by simp [hk, he], hperm.trans (swapSlots_perm ..), fun ho => hord ?_⟩
        have key := slotKey_swap nodes hj (show parentSlot j < heap.length by omega)
        constructor
        · intro i hi h1 hne
          rw [swapSlots_length] at hi
          rw [key, key]
          have hpi : parentSlot i < i := parentSlot_lt (by omega)
          by_cases hij : i = j
          · subst hij
            rw [if_neg (by omega), if_pos rfl, if_pos rfl]; omega
          · rw [if_neg hij, if_neg hne]
            have := ho.1 i hi h1 hij
            by_cases hpj : parentSlot i = j
            · rw [if_pos hpj]; exact ho.2 i hi h1 (by omega) hpj
            · rw [if_neg hpj]
              by_cases hpp : parentSlot i = parentSlot j
              · rw [if_pos hpp]; rw [hpp] at this; omega
              · rw [if_neg hpp]; exact this
        · intro i hi h1 hpp1 hpi
          rw [swapSlots_length] at hi
          have hpp : parentSlot (parentSlot j) < parentSlot j := parentSlot_lt (by omega)
          have hpi' : parentSlot i < i := parentSlot_lt (by omega)
          have hb := ho.1 (parentSlot j) (by omega) (by omega) (by omega)
          rw [key, key, if_neg (by omega), if_neg (by omega)]
          by_cases hij : i = j
          · rw [if_pos hij]; exact hb
          · rw [if_neg hij, if_neg (by omega)]
            have := ho.1 i hi h1 hij
            rw [hpi] at this; omega
      · refine ⟨heap, by simp [hk], List.Perm.refl _, fun ho => (heapOrdered_iff hv).mpr fun i hi h1 => ?_⟩
        by_cases hij : i = j
        · subst hij; omega
        · exact ho.1 i hi h1 hij

/-- HeapInsert ends without fault where a slot is free, adds the node and keeps the heap property (R112). -/
theorem heapInsert_spec {nodes : List Node} {n : NodeIdx} {heap : List NodeIdx} (hv : validHeap nodes heap)
    (hn : n.toNat < nodes.length) (hl : heap.length < 256) :
    ∃ heap', heapInsert nodes n heap = .ok heap' ∧ heap'.Perm (n :: heap) ∧
      (heapOrdered nodes heap → heapOrdered nodes heap') := by
  have hv' : validHeap nodes (heap ++ [n]) := by
    intro m hm
    rcases List.mem_append.mp hm with h | h
    · exact hv m h
    · simp only [List.mem_singleton] at h; exact h ▸ hn
  obtain ⟨heap', he, hp, ho⟩ := siftUp_spec heap.length heap.length (heap ++ [n]) hv' (by simp) (Nat.le_refl _)
  refine ⟨heap', by simp [heapInsert, hl, he], hp.trans (List.perm_append_singleton n heap), fun hord => ho ?_⟩
  rw [heapOrdered_iff hv] at hord
  have key : ∀ i, i < heap.length → slotKey nodes (heap ++ [n]) i = slotKey nodes heap i := by
    intro i hi; simp [slotKey, List.getElem?_append_left hi]
  constructor
  · intro i hi h1 hne
    simp only [List.length_append, List.length_singleton] at hi
    have hpi : parentSlot i < i := parentSlot_lt (by omega)
    rw [key _ (by omega), key _ (by omega)]
    exact hord i (by omega) h1
  · intro i hi h1 _ hpi
    simp only [List.length_append, List.length_singleton] at hi
    have : parentSlot i < i := parentSlot_lt (by omega)
    omega

/-- Appending nodes does not change an insertion among the nodes there were. -/
theorem siftUp_append {nodes : List Node} (more : List Node) : ∀ (turns j : Nat) (heap : List NodeIdx),
    validHeap nodes heap → j < heap.length → siftUp (nodes ++ more) turns j heap = siftUp nodes turns j heap
  | 0, _, _, _, _ => rfl
  | turns + 1, j, heap, hv, hj => by
    unfold siftUp
    by_cases h0 : j = 0
    · simp [h0]
    · have hp : parentSlot j < j := parentSlot_lt (by omega)
      have hv' : validHeap (nodes ++ more) heap := fun n hn => by
        have := hv n hn; rw [List.length_append]; omega
      rw [if_neg h0, if_neg h0, slotLess_eq hv hj (by omega), slotLess_eq hv' hj (by omega),
        keyNat_append more (hv _ (List.getElem_mem hj)), keyNat_append more (hv _ (List.getElem_mem _)),
        siftUp_append more turns _ _ (validHeap_perm (swapSlots_perm ..) hv) (by rw [swapSlots_length]; omega)]

theorem heapInsert_append {nodes : List Node} (more : List Node) {n : NodeIdx} {heap : List NodeIdx}
    (hv : validHeap nodes heap) (hn : n.toNat < nodes.length) :
    heapInsert (nodes ++ more) n heap = heapInsert nodes n heap := by
  unfold heapInsert
  rw [siftUp_append more _ _ _ ?_ (by simp)]
  intro m hm
  rcases List.mem_append.mp hm with h | h
  · exact hv m h
  · simp only [List.mem_singleton] at h; exact h ▸ hn

/-! ### Sift down (R113) -/

/-- The heap property but for the edges below slot j, across which the parent of j still bounds the children. -/
def orderedBelow (nodes : List Node) (heap : List NodeIdx) (j : Nat) : Prop :=
  (∀ i, i < heap.length → 1 ≤ i → parentSlot i ≠ j → slotKey nodes heap (parentSlot i) ≤ slotKey nodes heap i) ∧
  (∀ i, i < heap.length → 1 ≤ i → 1 ≤ j → parentSlot i = j →
    slotKey nodes heap (parentSlot j) ≤ slotKey nodes heap i)

theorem lesserSlot_spec {nodes : List Node} {heap : List NodeIdx} (hv : validHeap nodes heap) {c m : Nat}
    (hm : m < heap.length) :
    ∃ r, lesserSlot nodes heap c m = .ok r ∧ r < heap.length ∧ (r = c ∨ r = m) ∧
      slotKey nodes heap r ≤ slotKey nodes heap m ∧ (c < heap.length → slotKey nodes heap r ≤ slotKey nodes heap c) := by
  unfold lesserSlot
  by_cases hc : c < heap.length
  · rw [if_pos hc, slotLess_key hv hc hm]
    by_cases hk : slotKey nodes heap c < slotKey nodes heap m
    · exact ⟨c, by simp [hk], hc, .inl rfl, by omega, fun _ => Nat.le_refl _⟩
    · exact ⟨m, by simp [hk], hm, .inr rfl, Nat.le_refl _, fun _ => by omega⟩
  · rw [if_neg hc]
    exact ⟨m, rfl, hm, .inr rfl, Nat.le_refl _, fun h => absurd h hc⟩

theorem leastOfFamily_spec {nodes : List Node} {heap : List NodeIdx} (hv : validHeap nodes heap) {j : Nat}
    (hj : j < heap.length) :
    ∃ m, leastOfFamily nodes heap j = .ok m ∧ m < heap.length ∧ (m = j ∨ m = 2 * j + 1 ∨ m = 2 * j + 2) ∧
      slotKey nodes heap m ≤ slotKey nodes heap j ∧
      (∀ i, i < heap.length → 1 ≤ i → parentSlot i = j → slotKey nodes heap m ≤ slotKey nodes heap i) := by
  obtain ⟨l, hl, hll, hlc, hlk, hlk'⟩ := lesserSlot_spec hv (c := 2 * j + 1) hj
  obtain ⟨r, hr, hrl, hrc, hrk, hrk'⟩ := lesserSlot_spec hv (c := 2 * j + 2) hll
  refine ⟨r, by simp [leastOfFamily, hl, hr], hrl, ?_, by omega, ?_⟩
  · rcases hrc with h | h <;> rcases hlc with h' | h' <;> omega
  · intro i hi h1 hpi
    rw [parentSlot_eq] at hpi
    have : i = 2 * j + 1 ∨ i = 2 * j + 2 := by omega
    rcases this with rfl | rfl
    · exact Nat.le_trans hrk (hlk' hi)
    · exact hrk' hi

/-- Sift down ends without fault in an arrangement of the same nodes, and restores the heap property. -/
theorem siftDown_spec {nodes : List Node} : ∀ (turns j : Nat) (heap : List NodeIdx), validHeap nodes heap →
    j < heap.length → heap.length ≤ turns + j →
    ∃ heap', siftDown nodes turns j heap = .ok heap' ∧ heap'.Perm heap ∧
      (orderedBelow nodes heap j → heapOrdered nodes heap')
  | 0, j, heap, hv, hj, ht => by omega
  | turns + 1, j, heap, hv, hj, ht => by
    unfold siftDown
    obtain ⟨m, hm, hml, hmc, hmk, hmk'⟩ := leastOfFamily_spec hv hj
    rw [hm]
    by_cases hmj : m = j
    · refine ⟨heap, by simp [hmj], List.Perm.refl _, fun ho => (heapOrdered_iff hv).mpr fun i hi h1 => ?_⟩
      by_cases hpi : parentSlot i = j
      · have := hmk' i hi h1 hpi
        rw [hpi, ← hmj]; exact this
      · exact ho.1 i hi h1 hpi
    · have hpm : parentSlot m = j := by rw [parentSlot_eq]; omega
      have hm1 : 1 ≤ m := by omega
      obtain ⟨heap', he, hperm, hord⟩ := siftDown_spec turns m (swapSlots heap j m)
          (validHeap_perm (swapSlots_perm ..) hv) (by rw [swapSlots_length]; omega) (by rw [swapSlots_length]; omega)
      refine ⟨heap', by simp [hmj, he], hperm.trans (swapSlots_perm ..), fun ho => hord ?_⟩
      have key := slotKey_swap nodes hj hml
      constructor
      · intro i hi h1 hne
        rw [swapSlots_length] at hi
        have hpi : parentSlot i < i := parentSlot_lt (by omega)
        rw [key, key, if_neg hne]
        by_cases hpj : parentSlot i = j
        · rw [if_pos hpj, if_neg (by omega)]
          split
          · exact hmk
          · exact hmk' i hi h1 hpj
        · rw [if_neg hpj]
          have := ho.1 i hi h1 hpj
          by_cases hij : i = j
          · subst hij
            rw [if_pos rfl]; exact ho.2 m hml hm1 h1 hpm
          · rw [if_neg hij, if_neg (by intro h; subst h; exact hpj hpm)]; exact this
      · intro i hi h1 _ hpi
        rw [swapSlots_length] at hi
        have hpi' : parentSlot i < i := parentSlot_lt (by omega)
        rw [key, key, hpm, if_pos rfl, if_neg (by omega), if_neg (by omega)]
        have := ho.1 i hi h1 (by omega)
        rw [hpi] at this; exact this

/-- HeapExtractMin ends without fault on a non-empty heap, takes the node of slot 0 out and keeps the heap property
(R113). -/
theorem heapExtractMin_spec {nodes : List Node} {r : NodeIdx} {rest : List NodeIdx} (hv : validHeap nodes (r :: rest)) :
    ∃ heap', heapExtractMin nodes (r :: rest) = .ok (r, heap') ∧ heap'.Perm rest ∧
      (heapOrdered nodes (r :: rest) → heapOrdered nodes heap') := by
  unfold heapExtractMin
  rcases List.eq_nil_or_concat rest with rfl | ⟨init, last, hrest⟩
  · exact ⟨[], rfl, List.Perm.refl _, fun _ j hj => by simp at hj⟩
  · subst hrest
    have hperm : (last :: init).Perm (init.concat last) := by
      rw [List.concat_eq_append]; exact (List.perm_append_singleton last init).symm
    have hv' : validHeap nodes (last :: init) := fun n hn =>
      hv n (List.mem_cons_of_mem _ (hperm.mem_iff.mp hn))
    obtain ⟨heap', he, hp, ho⟩ := siftDown_spec (init.concat last).length 0 (last :: init) hv' (by simp) (by simp)
    refine ⟨heap', ?_, hp.trans hperm, fun hord => ho ?_⟩
    · simp only [List.concat_eq_append, List.getLast?_append, List.getLast?_singleton, List.dropLast_concat,
        Option.some_or]
      simp only [List.concat_eq_append] at he
      rw [he]
    · rw [heapOrdered_iff hv] at hord
      have key : ∀ i, 1 ≤ i → i < (last :: init).length →
          slotKey nodes (last :: init) i = slotKey nodes (r :: init.concat last) i := by
        intro i h1 hi
        obtain ⟨k, rfl⟩ : ∃ k, i = k + 1 := ⟨i - 1, by omega⟩
        simp only [List.length_cons] at hi
        simp only [slotKey, List.getElem?_cons_succ, List.concat_eq_append]
        rw [List.getElem?_append_left (by omega)]
      constructor
      · intro i hi h1 hne
        have hpi : parentSlot i < i := parentSlot_lt (by omega)
        rw [key i h1 hi, key _ (by omega) (by omega)]
        refine hord i ?_ h1
        simp only [List.length_cons, List.concat_eq_append, List.length_append, List.length_nil] at hi ⊢
        omega
      · intro i _ _ h; omega

/-- In an ordered heap slot 0 has the least key (R28, R113). -/
theorem heapOrdered_root_least {nodes : List Node} {r : NodeIdx} {rest : List NodeIdx}
    (hv : validHeap nodes (r :: rest)) (ho : heapOrdered nodes (r :: rest)) :
    ∀ n ∈ r :: rest, keyNat nodes r ≤ keyNat nodes n := by
  rw [heapOrdered_iff hv] at ho
  have all : ∀ i, i < (r :: rest).length → slotKey nodes (r :: rest) 0 ≤ slotKey nodes (r :: rest) i := by
    intro i
    induction i using Nat.strong_induction_on with
    | _ i ih =>
      intro hi
      rcases Nat.eq_zero_or_pos i with rfl | hpos
      · exact Nat.le_refl _
      · have hp := parentSlot_lt hpos
        exact Nat.le_trans (ih _ hp (by omega)) (ho i hi hpos)
  intro n hn
  obtain ⟨i, hi, rfl⟩ := List.getElem_of_mem hn
  have := all i hi
  rwa [slotKey_lt hi, slotKey_lt (by simp), List.getElem_cons_zero] at this

/-- In an ordered heap without repeats slot 0 is the least in the words of R113. -/
theorem leastKey_root {nodes : List Node} {r : NodeIdx} {rest : List NodeIdx} (hv : validHeap nodes (r :: rest))
    (ho : heapOrdered nodes (r :: rest)) : leastKey nodes (r :: rest) r := by
  intro n hn hne
  rw [heapLess_eq (hv r (by simp)) (hv n hn)]
  have h1 := heapOrdered_root_least hv ho n hn
  have h2 : keyNat nodes r ≠ keyNat nodes n := fun h => hne (keyNat_injective h).symm
  simp only [Except.ok.injEq, decide_eq_true_eq]
  omega

end Sys2Proof.Machine
end

