-- ==== Sys2Proof/Laws/Tree.lean ====
section
/-! SUPPORT. The trees of the node store: growth, indices, paths (spec 10_state.md R26, 42_code_table.md R131). -/

namespace Sys2Proof.Machine

/-! ### treeAt -/

/-- A tree that is there stays as it is when nodes are appended and the depth bound grows. -/
theorem treeAt_mono {nodes : List Node} (more : List Node) : ∀ {d d' : Nat} {n : NodeIdx} {t : Tree},
    treeAt nodes d n = some t → d ≤ d' → treeAt (nodes ++ more) d' n = some t
  | 0, _, _, _, h, _ => by simp [treeAt] at h
  | d + 1, 0, _, _, _, hd => by omega
  | d + 1, d' + 1, n, t, h, hd => by
    unfold treeAt at h ⊢
    cases hn : nodeAt nodes n with
    | none => simp [hn] at h
    | some x =>
      rw [nodeAt_append more (lt_of_nodeAt hn), hn]
      rw [hn] at h
      cases x with
      | leaf c f => exact h
      | internal f l r =>
        simp only at h ⊢
        cases hl : treeAt nodes d l with
        | none => simp [hl] at h
        | some a =>
          cases hr : treeAt nodes d r with
          | none => simp [hl, hr] at h
          | some b =>
            rw [treeAt_mono more hl (by omega), treeAt_mono more hr (by omega)]
            simpa [hl, hr] using h

/-- The root of a tree is the node it is below, and holds a value. -/
theorem treeAt_root {nodes : List Node} {d : Nat} {n : NodeIdx} {t : Tree} (h : treeAt nodes d n = some t) :
    n.toNat < nodes.length ∧ ∃ rest, t.indices = n :: rest := by
  cases d with
  | zero => simp [treeAt] at h
  | succ d =>
    unfold treeAt at h
    cases hn : nodeAt nodes n with
    | none => simp [hn] at h
    | some x =>
      refine ⟨lt_of_nodeAt hn, ?_⟩
      rw [hn] at h
      cases x with
      | leaf c f => simp only [Option.some.injEq] at h; subst h; exact ⟨[], rfl⟩
      | internal f l r =>
        simp only at h
        split at h
        · simp only [Option.some.injEq] at h; subst h; exact ⟨_, rfl⟩
        · simp at h

/-- Where children have smaller indices, every index of a tree is at most its root's. -/
theorem treeAt_indices_le {nodes : List Node} (hc : ∀ i, i < nodes.length → nodeOk nodes i = true) :
    ∀ {d : Nat} {n : NodeIdx} {t : Tree}, treeAt nodes d n = some t → ∀ i ∈ t.indices, i.toNat ≤ n.toNat
  | 0, _, _, h => by simp [treeAt] at h
  | d + 1, n, t, h => by
    unfold treeAt at h
    cases hn : nodeAt nodes n with
    | none => simp [hn] at h
    | some x =>
      rw [hn] at h
      cases x with
      | leaf c f => simp only [Option.some.injEq] at h; subst h; simp [Tree.indices]
      | internal f l r =>
        simp only at h
        have ok := hc n.toNat (lt_of_nodeAt hn)
        rw [nodeAt] at hn
        simp only [nodeOk, hn, Bool.and_eq_true, decide_eq_true_eq] at ok
        split at h
        · rename_i a b ha hb
          simp only [Option.some.injEq] at h
          subst h
          intro i hi
          simp only [Tree.indices, List.mem_cons, List.mem_append] at hi
          rcases hi with rfl | hi | hi
          · exact Nat.le_refl _
          · have := treeAt_indices_le hc ha i hi; omega
          · have := treeAt_indices_le hc hb i hi; omega
        · simp at h

/-! ### Parents -/

/-- The children of node `n`, none for a leaf (R16). -/
def childrenOf (nodes : List Node) (n : NodeIdx) : List NodeIdx :=
  match nodeAt nodes n with
  | some (.internal _ l r) => [l, r]
  | _ => []

/-- The indices of a tree are its root and the children of its nodes, each as often as it is a child (R26). -/
theorem treeAt_indices_perm {nodes : List Node} : ∀ {d : Nat} {n : NodeIdx} {t : Tree}, treeAt nodes d n = some t →
    t.indices.Perm (n :: t.indices.flatMap (childrenOf nodes))
  | 0, _, _, h => by simp [treeAt] at h
  | d + 1, n, t, h => by
    unfold treeAt at h
    cases hn : nodeAt nodes n with
    | none => simp [hn] at h
    | some x =>
      rw [hn] at h
      cases x with
      | leaf c f =>
        simp only [Option.some.injEq] at h; subst h
        simp [Tree.indices, childrenOf, hn]
      | internal f l r =>
        simp only at h
        split at h
        · rename_i a b ha hb
          simp only [Option.some.injEq] at h
          subst h
          simp only [Tree.indices, List.flatMap_cons, List.flatMap_append, childrenOf, hn, List.cons_append,
            List.nil_append]
          refine List.Perm.cons _ ?_
          refine ((treeAt_indices_perm ha).append (treeAt_indices_perm hb)).trans ?_
          simp only [List.cons_append]
          exact (List.perm_middle).cons l
        · simp at h

/-! ### Paths -/

/-- How many leaves a tree has. -/
def Tree.leafCount : Tree → Nat
  | .leaf _ _ => 1
  | .node _ l r => l.leafCount + r.leafCount

theorem Tree.leafCount_pos : ∀ t : Tree, 1 ≤ t.leafCount
  | .leaf _ _ => Nat.le_refl 1
  | .node _ l r => by have := l.leafCount_pos; simp only [Tree.leafCount]; omega

theorem Tree.indices_length : ∀ t : Tree, t.indices.length + 1 = 2 * t.leafCount
  | .leaf _ _ => rfl
  | .node _ l r => by
    have := l.indices_length
    have := r.indices_length
    simp only [Tree.indices, Tree.leafCount, List.length_cons, List.length_append]; omega

/-- A path extends the path to the root, by fewer digits than the tree has leaves (R134 (b)). -/
theorem Tree.paths_bounds : ∀ (t : Tree) (p : Bits) (x : Symbol × Bits), x ∈ t.paths p →
    ∃ q, x.2 = p ++ q ∧ q.length + 1 ≤ t.leafCount
  | .leaf _ c, p, x, h => by
    simp only [Tree.paths, List.mem_singleton] at h; subst h; exact ⟨[], by simp, by simp [Tree.leafCount]⟩
  | .node _ l r, p, x, h => by
    have hl := l.leafCount_pos
    have hr := r.leafCount_pos
    simp only [Tree.paths, List.mem_append] at h
    rcases h with h | h
    · obtain ⟨q, hq, hlen⟩ := l.paths_bounds _ x h
      exact ⟨0 :: q, by simp [hq], by simp only [List.length_cons, Tree.leafCount]; omega⟩
    · obtain ⟨q, hq, hlen⟩ := r.paths_bounds _ x h
      exact ⟨1 :: q, by simp [hq], by simp only [List.length_cons, Tree.leafCount]; omega⟩

/-- The walk of the model gives the paths of the tree (R131). -/
theorem pathCodes_eq {nodes : List Node} : ∀ {d : Nat} {n : NodeIdx} {t : Tree} (p : Bits),
    treeAt nodes d n = some t → pathCodes nodes d n p = .ok (t.paths p)
  | 0, _, _, _, h => by simp [treeAt] at h
  | d + 1, n, t, p, h => by
    unfold treeAt at h
    unfold pathCodes
    cases hn : nodeAt nodes n with
    | none => simp [hn] at h
    | some x =>
      rw [hn] at h
      cases x with
      | leaf c f => simp only [Option.some.injEq] at h; subst h; rfl
      | internal f l r =>
        simp only at h ⊢
        split at h
        · rename_i a b ha hb
          simp only [Option.some.injEq] at h
          subst h
          simp [pathCodes_eq _ ha, pathCodes_eq _ hb, Tree.paths]
        · simp at h

/-! ### The model's walk from a root -/

theorem rootCodes_leaf {nodes : List Node} {n : NodeIdx} {c : Symbol} {f : Freq}
    (h : nodeAt nodes n = some (.leaf c f)) : rootCodes nodes n = .ok [(c, [0])] := by
  simp [rootCodes, h]

theorem rootCodes_internal {nodes : List Node} {n l r : NodeIdx} {f : Freq} {t : Tree}
    (h : nodeAt nodes n = some (.internal f l r)) (ht : treeAt nodes nodes.length n = some t) :
    rootCodes nodes n = .ok (t.paths []) := by
  simp [rootCodes, h, pathCodes_eq [] ht]

/-- A tree whose root is internal is a node of two trees. -/
theorem treeAt_internal {nodes : List Node} {d : Nat} {n l r : NodeIdx} {f : Freq} {t : Tree}
    (h : nodeAt nodes n = some (.internal f l r)) (ht : treeAt nodes d n = some t) :
    ∃ d' a b, d = d' + 1 ∧ treeAt nodes d' l = some a ∧ treeAt nodes d' r = some b ∧ t = .node n a b := by
  cases d with
  | zero => simp [treeAt] at ht
  | succ d =>
    unfold treeAt at ht
    rw [h] at ht
    simp only at ht
    split at ht
    · rename_i a b ha hb
      simp only [Option.some.injEq] at ht
      exact ⟨d, a, b, rfl, ha, hb, ht.symm⟩
    · simp at ht

/-- Recording codes that fit ends without fault. -/
theorem recordCodes_ok : ∀ (records : List (Symbol × Bits)) (code : Vector (Option Bits) 256),
    (∀ x ∈ records, 1 ≤ x.2.length ∧ x.2.length ≤ 255) → ∃ code', recordCodes records code = .ok code'
  | [], code, _ => ⟨code, rfl⟩
  | (c, p) :: rest, code, h => by
    have hp := h (c, p) (by simp)
    simp only at hp
    obtain ⟨code', hc⟩ := recordCodes_ok rest (tableSet code c (some p)) fun x hx => h x (by simp [hx])
    exact ⟨code', by rw [recordCodes, if_neg (by simp only [Config.codelenMax]; omega), hc]⟩

/-- What recording leaves: an entry is as it was, or is one of the records. -/
theorem recordCodes_get : ∀ {records : List (Symbol × Bits)} {code code' : Vector (Option Bits) 256},
    recordCodes records code = .ok code' → (records.map Prod.fst).Nodup → ∀ c p,
    (tableGet code' c = some p ↔ (c, p) ∈ records ∨ (c ∉ records.map Prod.fst ∧ tableGet code c = some p))
  | [], code, code', h, _, c, p => by
    simp only [recordCodes, Except.ok.injEq] at h; subst h; simp
  | (d, q) :: rest, code, code', h, hn, c, p => by
    rw [recordCodes] at h
    split at h
    · simp at h
    · simp only [List.map_cons, List.nodup_cons] at hn
      rw [recordCodes_get h hn.2 c p, tableGet_tableSet]
      by_cases hdc : d = c
      · subst hdc
        have : (d, p) ∉ rest := fun hm => hn.1 (List.mem_map.mpr ⟨_, hm, rfl⟩)
        simp [hn.1, this, eq_comm]
      · simp [hdc, Ne.symm hdc]

end Sys2Proof.Machine
end

