-- ==== Sys2Proof/Laws/Build.lean ====
section
/-! SUPPORT. What the bodies of LEAVES, MERGE and CODEGEN do to a state that meets the invariant (spec 10_state.md R51,
41_tree_builder.md R115 to R121, 42_code_table.md R132). -/

namespace Sys2Proof.Machine

/-! ### Frequencies -/

theorem toList_eq_map_tableGet {α : Type} (f : Vector α 256) : f.toList = allSymbols.map (tableGet f) := by
  apply List.ext_getElem
  · simp
  · intro i h1 h2
    simp only [Vector.length_toList] at h1
    simp [allSymbols, tableGet, Nat.mod_eq_of_lt h1]

theorem sum_filter_ne_zero {α : Type} (l : List α) (g : α → Freq) :
    ((l.filter (fun c => g c != 0)).map (fun c => (g c).toNat)).sum = (l.map (fun c => (g c).toNat)).sum := by
  induction l with
  | nil => rfl
  | cons c l ih =>
    by_cases h : g c = 0
    · rw [List.filter_cons, if_neg (by simp [h]), ih]; simp [h]
    · rw [List.filter_cons, if_pos (by simpa using h), List.map_cons, List.sum_cons, ih, List.map_cons, List.sum_cons]

/-- The sum of the table is the sum over its keys. -/
theorem freqSum_eq_support (f : Vector Freq 256) :
    freqSum f = ((support f).map (fun c => (tableGet f c).toNat)).sum := by
  rw [support, sum_filter_ne_zero, freqSum, toList_eq_map_tableGet, List.map_map]
  rfl

theorem mem_support {f : Vector Freq 256} {c : Symbol} : c ∈ support f ↔ tableGet f c ≠ 0 := by
  simp [support, mem_allSymbols]

theorem support_nodup (f : Vector Freq 256) : (support f).Nodup := allSymbols_nodup.filter _

theorem support_length_le (f : Vector Freq 256) : (support f).length ≤ 256 :=
  (List.length_filter_le _ _).trans (by simp)

theorem support_ne_nil {f : Vector Freq 256} (h : freqSum f ≠ 0) : support f ≠ [] := by
  intro he
  rw [freqSum_eq_support, he] at h
  exact h rfl

/-! ### createNode -/

theorem heapOrdered_append {nodes : List Node} {heap : List NodeIdx} (more : List Node)
    (hv : validHeap nodes heap) (ho : heapOrdered nodes heap) : heapOrdered (nodes ++ more) heap := by
  have hv' : validHeap (nodes ++ more) heap := fun n hn => by
    have := hv n hn; rw [List.length_append]; omega
  rw [heapOrdered_iff hv'] ; rw [heapOrdered_iff hv] at ho
  have key : ∀ i, i < heap.length → slotKey (nodes ++ more) heap i = slotKey nodes heap i := by
    intro i hi
    rw [slotKey_lt hi, slotKey_lt hi, keyNat_append more (hv _ (List.getElem_mem hi))]
  intro j hj h1
  have hp := parentSlot_lt (show 0 < j from h1)
  rw [key _ hj, key _ (by omega)]
  exact ho j hj h1

/-- Creating a node ends without fault where there is room: the node is appended, its index is in the heap, nothing else
changes, and the heap property is kept (R115, R116). -/
theorem createNode_spec {n : Node} {s : State} (hv : validHeap s.nodes s.heap) (hn : s.nodes.length < 511)
    (hh : s.heap.length < 256) :
    ∃ heap', createNode n s = .ok { s with nodes := s.nodes ++ [n], heap := heap' } ∧
      heapInsert (s.nodes ++ [n]) (BitVec.ofNat 9 s.nodes.length) s.heap = .ok heap' ∧
      heap'.Perm (BitVec.ofNat 9 s.nodes.length :: s.heap) ∧
      validHeap (s.nodes ++ [n]) heap' ∧
      (heapOrdered s.nodes s.heap → heapOrdered (s.nodes ++ [n]) heap') := by
  have hv' : validHeap (s.nodes ++ [n]) s.heap := fun m hm => by
    have := hv m hm; rw [List.length_append]; omega
  have hi : (BitVec.ofNat 9 s.nodes.length).toNat < (s.nodes ++ [n]).length := by
    rw [toNat_ofNat9 hn]; simp
  obtain ⟨heap', he, hp, ho⟩ := heapInsert_spec hv' hi hh
  refine ⟨heap', by simp [createNode, pushNode_ok hn, he], he, hp, ?_,
    fun h => ho (heapOrdered_append [n] hv h)⟩
  intro m hm
  rcases List.mem_cons.mp (hp.mem_iff.mp hm) with rfl | hm
  · exact hi
  · exact hv' m hm

/-! ### LEAVES -/

/-- The keys among `cs`, as leaves. -/
def leavesOf (f : Vector Freq 256) (cs : List Symbol) : List Node :=
  (cs.filter (fun c => tableGet f c != 0)).map (fun c => .leaf c (tableGet f c))

/-- What the loop of LEAVES does: one leaf per key, each in the heap, nothing else (R115). -/
theorem insertLeaves_spec : ∀ (cs : List Symbol) (s : State), validHeap s.nodes s.heap →
    s.nodes.length + cs.length ≤ 511 → s.heap.length + cs.length ≤ 256 →
    ∃ heap', insertLeaves cs s = .ok { s with nodes := s.nodes ++ leavesOf s.freq cs, heap := heap' } ∧
      (heap'.map BitVec.toNat).Perm
        (s.heap.map BitVec.toNat ++ List.range' s.nodes.length (leavesOf s.freq cs).length) ∧
      validHeap (s.nodes ++ leavesOf s.freq cs) heap' ∧
      (heapOrdered s.nodes s.heap → heapOrdered (s.nodes ++ leavesOf s.freq cs) heap') ∧
      heapInsertAll (s.nodes ++ leavesOf s.freq cs)
        ((List.range' s.nodes.length (leavesOf s.freq cs).length).map (BitVec.ofNat 9)) s.heap = .ok heap'
  | [], s, hv, _, _ => ⟨s.heap, by simp [insertLeaves, leavesOf], by simp [leavesOf], by simpa [leavesOf] using hv,
      by simp [leavesOf], by simp [leavesOf, heapInsertAll]⟩
  | c :: cs, s, hv, hn, hh => by
    simp only [List.length_cons] at hn hh
    by_cases h0 : freqOperand c s = 0
    · have h0' : tableGet s.freq c = 0 := h0
      obtain ⟨heap', he, hp, hv', ho, ha⟩ := insertLeaves_spec cs s hv (by omega) (by omega)
      have hl : leavesOf s.freq (c :: cs) = leavesOf s.freq cs := by simp [leavesOf, h0']
      rw [hl]
      exact ⟨heap', by rw [insertLeaves, if_pos h0, he], hp, hv', ho, ha⟩
    · have h0' : tableGet s.freq c ≠ 0 := h0
      obtain ⟨heap1, he1, hi1, hp1, hv1, ho1⟩ := createNode_spec (n := .leaf c (freqOperand c s)) hv
        (by omega) (by omega)
      have hlen1 := hp1.length_eq
      simp only [List.length_cons] at hlen1
      obtain ⟨heap', he, hp, hv', ho, ha⟩ := insertLeaves_spec cs
        { s with nodes := s.nodes ++ [.leaf c (freqOperand c s)], heap := heap1 } hv1
        (by simp only [List.length_append, List.length_singleton]; omega) (by simp only; omega)
      have hl : leavesOf s.freq (c :: cs) = .leaf c (freqOperand c s) :: leavesOf s.freq cs := by
        rw [leavesOf, List.filter_cons, if_pos (by simpa using h0'), List.map_cons]; rfl
      refine ⟨heap', ?_, ?_, ?_, ?_, ?_⟩
      · rw [insertLeaves, if_neg h0, he1, hl]
        simpa using he
      · refine hp.trans ?_
        rw [hl]
        have : (heap1.map BitVec.toNat).Perm (s.nodes.length :: s.heap.map BitVec.toNat) := by
          have := hp1.map BitVec.toNat
          rwa [List.map_cons, toNat_ofNat9 (by omega)] at this
        refine (this.append_right _).trans ?_
        simp only [List.length_append, List.length_cons, List.length_nil, List.range'_succ, List.cons_append]
        exact List.perm_middle.symm
      · rw [hl]; simpa using hv'
      · intro h; rw [hl]; simpa using ho (ho1 h)
      · rw [hl]
        simp only [List.append_assoc, List.singleton_append, List.length_append, List.length_singleton] at ha
        simp only [List.length_cons, List.range'_succ, List.map_cons, heapInsertAll]
        have hb : (BitVec.ofNat 9 s.nodes.length).toNat < (s.nodes ++ [Node.leaf c (freqOperand c s)]).length := by
          rw [toNat_ofNat9 (by omega)]; simp
        have hvs : validHeap (s.nodes ++ [Node.leaf c (freqOperand c s)]) s.heap := fun m hm => by
          have := hv m hm; rw [List.length_append]; omega
        have hi2 := heapInsert_append (leavesOf s.freq cs) hvs hb
        rw [List.append_assoc, List.singleton_append] at hi2
        rw [hi2, hi1]
        exact ha

theorem sum_map_perm {α : Type} {l l' : List α} (g : α → Nat) (p : l.Perm l') : (l.map g).sum = (l'.map g).sum :=
  (p.map g).sum_eq

/-- A heap that holds 0..k-1, each once. -/
theorem heap_perm_of_toNat {heap : List NodeIdx} {k : Nat}
    (h : (heap.map BitVec.toNat).Perm (List.range k)) : heap.Perm ((List.range k).map (BitVec.ofNat 9)) := by
  have := h.map (BitVec.ofNat 9)
  rw [List.map_map] at this
  have e : (BitVec.ofNat 9 ∘ BitVec.toNat : NodeIdx → NodeIdx) = id := by
    funext x; simp
  rwa [e, List.map_id] at this

theorem treeAt_leaf {nodes : List Node} {n : NodeIdx} {c : Symbol} {f : Freq} (d : Nat)
    (h : nodeAt nodes n = some (.leaf c f)) : treeAt nodes (d + 1) n = some (.leaf n c) := by
  simp [treeAt, h]

/-- The body of LEAVES in phase COUNT with a non-empty training text (R115). -/
theorem leavesBody_spec {s : State} (hi : Inv s) (hp : s.phase = .count) (ht : s.total ≠ 0) :
    ∃ heap', leavesBody s = .ok { s with nodes := leafNodes s.freq, heap := heap', phase := .merge,
                                         nleaf := BitVec.ofNat 9 (support s.freq).length } ∧
      (heap'.map BitVec.toNat).Perm (List.range (support s.freq).length) ∧
      heapInsertAll (leafNodes s.freq) ((List.range (support s.freq).length).map (BitVec.ofNat 9)) [] = .ok heap' ∧
      MergeState { s with nodes := leafNodes s.freq, heap := heap', phase := .merge,
                          nleaf := BitVec.ofNat 9 (support s.freq).length } := by
  have hc : CountState s := by have := hi.phase; rwa [phaseInv, hp] at this
  have hv0 : validHeap s.nodes s.heap := by rw [hc.heap]; intro n hn; simp at hn
  obtain ⟨heap', he, hperm, hv, ho, hall⟩ := insertLeaves_spec allSymbols s hv0
    (by rw [hc.nodes, allSymbols_length]; simp) (by rw [hc.heap, allSymbols_length]; simp)
  have hl : s.nodes ++ leavesOf s.freq allSymbols = leafNodes s.freq := by rw [hc.nodes]; rfl
  have hlen : (leavesOf s.freq allSymbols).length = (support s.freq).length := by simp [leavesOf, support]
  have hlen' : (leafNodes s.freq).length = (support s.freq).length := by simp [leafNodes]
  have hle := support_length_le s.freq
  rw [hl, hlen, hc.heap, hc.nodes, List.length_nil, ← List.range_eq_range'] at hall
  rw [hl] at he hv ho
  rw [hlen, hc.heap, hc.nodes] at hperm
  simp only [List.map_nil, List.nil_append, List.length_nil, ← List.range_eq_range'] at hperm
  have hlenh : heap'.length = (support s.freq).length := by simpa using hperm.length_eq
  have hnl : (BitVec.ofNat 9 (support s.freq).length).toNat = (support s.freq).length := toNat_ofNat9 (by omega)
  have hne : freqSum s.freq ≠ 0 := by
    rw [← hi.total]; intro h; exact ht (BitVec.eq_of_toNat_eq h)
  have hpos : 1 ≤ (support s.freq).length := List.length_pos_of_ne_nil (support_ne_nil hne)
  have hhp := heap_perm_of_toNat hperm
  have hleaf : ∀ n ∈ heap', ∃ c f, nodeAt (leafNodes s.freq) n = some (.leaf c f) := by
    intro n hn
    have hb := hv n hn
    refine ⟨_, _, by rw [nodeAt_of_lt hb]; simp only [leafNodes, List.getElem_map]; rfl⟩
  obtain ⟨k, hk⟩ : ∃ k, (support s.freq).length = k + 1 := ⟨_, (Nat.succ_pred_eq_of_pos hpos).symm⟩
  refine ⟨heap', ?_, hperm, hall, ⟨?_, hc.root, hc.code, hc.acc, hc.accovf⟩⟩
  · simp [leavesBody, he, State.nnode, hlen']
  · constructor
    · simp only [hnl]
      rw [List.take_of_length_le (by omega)]
    · exact hnl
    · simp only [hnl]
      rw [List.drop_of_length_le (by omega)]; rfl
    · intro i hi'
      simp only [State.nnode] at hi'
      simp [nodeOk, leafNodes]
    · simp only [State.nnode, State.heapn, hnl]; omega
    · simp only [State.heapn]; omega
    · simp only
      rw [sum_map_perm _ hhp, hi.total, freqSum_eq_support, List.map_map]
      congr 1
      apply List.ext_getElem
      · simp
      · intro i h1 h2
        simp only [List.length_map, List.length_range] at h1
        simp [weightOf, nodeAt, leafNodes, Node.freqOf, Nat.mod_eq_of_lt (show i < 512 by omega), h1]
    · intro n hn
      obtain ⟨c, f, h⟩ := hleaf n hn
      simp only [State.nnode, hlen', hk]
      rw [treeAt_leaf k h]; rfl
    · have : heap'.flatMap (indicesBelow (leafNodes s.freq) (k + 1)) = heap' := by
        have h1 : heap'.flatMap (indicesBelow (leafNodes s.freq) (k + 1)) = heap'.flatMap (fun n => [n]) := by
          apply List.flatMap_congr
          intro n hn
          obtain ⟨c, f, h⟩ := hleaf n hn
          simp [indicesBelow, treeAt_leaf k h, Tree.indices]
        simpa using h1
      simp only [State.nnode, hlen']
      rw [hk] at hperm ⊢
      rwa [this]
    · refine ho ?_
      rw [hc.heap]
      intro j hj; simp at hj

/-! ### MERGE -/

/-- The heap of a built state names nodes that hold a value. -/
theorem Built.valid {s : State} (h : Built s) : validHeap s.nodes s.heap := by
  intro n hn
  have := h.rooted n hn
  obtain ⟨t, ht⟩ := Option.isSome_iff_exists.mp this
  exact (treeAt_root ht).1

theorem Built.nleaf_le {s : State} (h : Built s) : s.nleaf.toNat ≤ 256 := by
  rw [h.nleaf]; exact support_length_le _

theorem Built.nnode_le {s : State} (h : Built s) : s.nodes.length ≤ 511 := by
  have h1 := h.nleaf_le
  have h2 := h.counts
  have h3 := h.nonempty
  simp only [State.nnode] at h2
  omega

theorem Built.nleaf_le_nnode {s : State} (h : Built s) : s.nleaf.toNat ≤ s.nodes.length := by
  have := congrArg List.length h.leaves
  simp only [List.length_take, leafNodes, List.length_map, ← h.nleaf] at this
  omega

theorem weightOf_eq {nodes : List Node} {n : NodeIdx} {x : Node} (h : nodeAt nodes n = some x) :
    weightOf nodes n = x.freqOf.toNat := by
  simp [weightOf, h]

theorem nodeOk_append {nodes : List Node} {i : Nat} (more : List Node) (hi : i < nodes.length)
    (h : nodeOk nodes i = true) : nodeOk (nodes ++ more) i = true := by
  unfold nodeOk at h ⊢
  rw [List.getElem?_append_left hi]
  cases hx : nodes[i]? with
  | none => simp
  | some x =>
    cases x with
    | leaf c f => rfl
    | internal f l r =>
      simp only [hx, Bool.and_eq_true, decide_eq_true_eq] at h
      obtain ⟨⟨hl, hr⟩, hf⟩ := h
      simp [hl, hr, hf, weightOf_append more (show l.toNat < nodes.length by omega),
        weightOf_append more (show r.toNat < nodes.length by omega)]

/-- The created nodes are the nodes in the heap and the children of created nodes, each exactly once (R26, R28). -/
theorem Built.parents {s : State} (h : Built s) :
    (s.heap ++ ((List.range s.nnode).map (BitVec.ofNat 9)).flatMap (childrenOf s.nodes)).Perm
      ((List.range s.nnode).map (BitVec.ofNat 9)) := by
  have hf := heap_perm_of_toNat h.forest
  refine List.Perm.trans ?_ hf
  refine ((hf.symm.flatMap_right _).append_left _).trans ?_
  have key : ∀ l : List NodeIdx, (∀ n ∈ l, (treeAt s.nodes s.nnode n).isSome = true) →
      (l ++ (l.flatMap (indicesBelow s.nodes s.nnode)).flatMap (childrenOf s.nodes)).Perm
        (l.flatMap (indicesBelow s.nodes s.nnode)) := by
    intro l
    induction l with
    | nil => intro _; simp
    | cons n l ih =>
      intro hl
      obtain ⟨t, ht⟩ := Option.isSome_iff_exists.mp (hl n (by simp))
      have hi : indicesBelow s.nodes s.nnode n = t.indices := by simp [indicesBelow, ht]
      have hp := treeAt_indices_perm ht
      have hrest := ih fun m hm => hl m (by simp [hm])
      simp only [List.flatMap_cons, List.flatMap_append, hi, List.cons_append]
      refine List.Perm.trans ?_ (hp.symm.append hrest)
      simp only [List.cons_append]
      refine List.Perm.cons _ ?_
      rw [← List.append_assoc, ← List.append_assoc]
      exact (List.perm_append_comm).append_right _
  exact key s.heap h.rooted

/-- What a state looks like after the body of MERGE that extracted `a`, then `b` (R116). -/
structure MergeEffect (s t : State) (a b : NodeIdx) : Prop where
  first  : ∃ heap1 heap2, heapExtractMin s.nodes s.heap = .ok (a, heap1) ∧ heapExtractMin s.nodes heap1 = .ok (b, heap2) ∧
    heapInsert t.nodes (BitVec.ofNat 9 s.nnode) heap2 = .ok t.heap
  order  : heapLess s.nodes a b = .ok true
  least  : leastKey s.nodes s.heap a
  next   : ∀ heap1, heapExtractMin s.nodes s.heap = .ok (a, heap1) → leastKey s.nodes heap1 b
  ne     : a ≠ b
  sum    : weightOf t.nodes (BitVec.ofNat 9 s.nnode) = weightOf s.nodes a + weightOf s.nodes b
  nodes  : ∃ f, t.nodes = s.nodes ++ [.internal f a b]
  below  : a.toNat < s.nnode ∧ b.toNat < s.nnode
  heapn  : t.heapn + 1 = s.heapn
  frame  : t = { s with nodes := t.nodes, heap := t.heap }

/-- The body of MERGE on a built state with at least two nodes in the heap (R116). -/
theorem mergeBody_spec {s : State} (hb : Built s) (h2 : 2 ≤ s.heapn) :
    ∃ t a b, mergeBody s = .ok t ∧ Built t ∧ MergeEffect s t a b := by
  have hvalid := hb.valid
  have hord := hb.ordered
  obtain ⟨a, rest, hheap⟩ : ∃ a rest, s.heap = a :: rest := by
    cases hh : s.heap with
    | nil => simp [State.heapn, hh] at h2
    | cons a rest => exact ⟨a, rest, rfl⟩
  have hvalid' := hvalid
  have hord' := hord
  rw [hheap] at hvalid' hord'
  obtain ⟨heap1, he1, hp1, ho1⟩ := heapExtractMin_spec hvalid'
  have hv1 : validHeap s.nodes heap1 := fun n hn => hvalid' n (List.mem_cons_of_mem _ (hp1.mem_iff.mp hn))
  have hlen1 := hp1.length_eq
  have hlenh : s.heap.length = rest.length + 1 := by rw [hheap]; rfl
  obtain ⟨b, rest1, hheap1⟩ : ∃ b rest1, heap1 = b :: rest1 := by
    cases hh : heap1 with
    | nil => simp only [State.heapn] at h2; rw [hh] at hlen1; simp only [List.length_nil] at hlen1; omega
    | cons b rest1 => exact ⟨b, rest1, rfl⟩
  have hv1' := hv1
  have ho1' := ho1 hord'
  rw [hheap1] at hv1' ho1'
  obtain ⟨heap2, he2, hp2, ho2⟩ := heapExtractMin_spec hv1'
  have hv2 : validHeap s.nodes heap2 := fun n hn => hv1' n (List.mem_cons_of_mem _ (hp2.mem_iff.mp hn))
  have hlen2 := hp2.length_eq
  have hlen1' : heap1.length = rest1.length + 1 := by rw [hheap1]; rfl
  -- the heap is a, b and the rest
  have hperm : s.heap.Perm (a :: b :: heap2) := by
    rw [hheap]
    exact (hp1.symm.trans (hheap1 ▸ hp2.symm.cons b)).cons a
  have ha : a.toNat < s.nodes.length := hvalid' a (by simp)
  have hbn : b.toNat < s.nodes.length := hv1' b (by simp)
  have hna := nodeAt_of_lt ha
  have hnb := nodeAt_of_lt hbn
  -- the two nodes are distinct
  obtain ⟨ta, hta⟩ := Option.isSome_iff_exists.mp (hb.rooted a (hperm.mem_iff.mpr (by simp)))
  obtain ⟨tb, htb⟩ := Option.isSome_iff_exists.mp (hb.rooted b (hperm.mem_iff.mpr (by simp)))
  have hforest := (hperm.flatMap_right (indicesBelow s.nodes s.nnode)).map BitVec.toNat
  have hforest' := hforest.symm.trans hb.forest
  have hia : indicesBelow s.nodes s.nnode a = ta.indices := by simp [indicesBelow, hta]
  have hib : indicesBelow s.nodes s.nnode b = tb.indices := by simp [indicesBelow, htb]
  simp only [List.flatMap_cons, hia, hib, List.map_append] at hforest'
  have hab : a ≠ b := by
    intro h
    have hnd := hforest'.nodup_iff.mpr List.nodup_range
    rw [List.nodup_append] at hnd
    obtain ⟨ra, hra⟩ := (treeAt_root hta).2
    obtain ⟨rb, hrb⟩ := (treeAt_root htb).2
    exact hnd.2.2 a.toNat (by rw [hra]; simp) b.toNat (by rw [hrb]; simp) (by rw [h])
  -- weights
  have hw := hb.weight
  rw [sum_map_perm _ hperm] at hw
  simp only [List.map_cons, List.sum_cons] at hw
  have htot := s.total.isLt
  have hsum : (s.nodes[a.toNat].freqOf + s.nodes[b.toNat].freqOf).toNat = weightOf s.nodes a + weightOf s.nodes b := by
    rw [weightOf_eq hna, weightOf_eq hnb] at *
    rw [BitVec.toNat_add, Nat.mod_eq_of_lt (by omega)]
  -- counts
  have hcnt := hb.counts
  have hle := hb.nleaf_le
  have hln := hb.nleaf_le_nnode
  simp only [State.nnode, State.heapn] at hcnt h2
  -- the new node
  have hlen2' : heap2.length + 2 = s.heap.length := by omega
  obtain ⟨heap', hc, hins, hp', hv', ho'⟩ := createNode_spec
    (n := .internal (s.nodes[a.toNat].freqOf + s.nodes[b.toNat].freqOf) a b) (s := { s with heap := heap2 })
    hv2 (by simp only; omega) (by simp only; omega)
  simp only at hc hins hp' hv' ho'
  have hlen' := hp'.length_eq
  simp only [List.length_cons] at hlen'
  have hnew : (BitVec.ofNat 9 s.nodes.length).toNat = s.nodes.length := toNat_ofNat9 (by omega)
  have hnodenew : nodeAt (s.nodes ++ [Node.internal (s.nodes[a.toNat].freqOf + s.nodes[b.toNat].freqOf) a b])
      (BitVec.ofNat 9 s.nodes.length) = some (.internal (s.nodes[a.toNat].freqOf + s.nodes[b.toNat].freqOf) a b) := by
    simp [nodeAt, Nat.mod_eq_of_lt (show s.nodes.length < 512 by omega)]
  have hmono : ∀ {n t}, treeAt s.nodes s.nnode n = some t →
      treeAt (s.nodes ++ [Node.internal (s.nodes[a.toNat].freqOf + s.nodes[b.toNat].freqOf) a b]) (s.nnode + 1) n
        = some t := fun h => treeAt_mono _ h (by omega)
  have htnew : treeAt (s.nodes ++ [Node.internal (s.nodes[a.toNat].freqOf + s.nodes[b.toNat].freqOf) a b]) (s.nnode + 1)
      (BitVec.ofNat 9 s.nodes.length) = some (.node (BitVec.ofNat 9 s.nodes.length) ta tb) := by
    rw [treeAt, hnodenew]
    simp only [treeAt_mono [Node.internal (s.nodes[a.toNat].freqOf + s.nodes[b.toNat].freqOf) a b] hta (Nat.le_refl _),
      treeAt_mono [Node.internal (s.nodes[a.toNat].freqOf + s.nodes[b.toNat].freqOf) a b] htb (Nat.le_refl _)]
  have hwnew : weightOf (s.nodes ++ [Node.internal (s.nodes[a.toNat].freqOf + s.nodes[b.toNat].freqOf) a b])
      (BitVec.ofNat 9 s.nodes.length) = weightOf s.nodes a + weightOf s.nodes b := by
    rw [weightOf_eq hnodenew]; exact hsum
  refine ⟨{ s with nodes := s.nodes ++ [.internal (s.nodes[a.toNat].freqOf + s.nodes[b.toNat].freqOf) a b],
                   heap := heap' }, a, b, ?_, ⟨?_, hb.nleaf, ?_, ?_, ?_, ?_, ?_, ?_, ?_, ?_⟩, ?_⟩
  · unfold mergeBody
    rw [hheap, he1]
    simp only
    rw [hheap1, he2]
    simp only [readNode, hna, hnb]
    exact hc
  · simp only
    rw [List.take_append_of_le_length hln, hb.leaves]
  · simp only
    rw [List.drop_append_of_le_length hln, List.all_append, hb.internals]; rfl
  · intro i hi
    simp only [State.nnode, List.length_append, List.length_singleton] at hi
    by_cases h : i < s.nodes.length
    · exact nodeOk_append _ h (hb.children i h)
    · obtain rfl : i = s.nodes.length := by omega
      simp only [nodeOk, List.getElem?_concat_length, ha, hbn, decide_true, Bool.true_and, Bool.and_self,
        decide_eq_true_eq]
      rw [weightOf_append _ ha, weightOf_append _ hbn, hsum]
  · simp only [State.nnode, State.heapn, List.length_append, List.length_singleton]
    omega
  · simp only [State.heapn]; omega
  · simp only
    rw [sum_map_perm _ hp', List.map_cons, List.sum_cons, hwnew, ← hw]
    have : heap2.map (weightOf (s.nodes ++ [Node.internal (s.nodes[a.toNat].freqOf + s.nodes[b.toNat].freqOf) a b])) =
        heap2.map (weightOf s.nodes) := by
      apply List.map_congr_left
      intro n hn; exact weightOf_append _ (hv2 n hn)
    rw [this]; omega
  · intro n hn
    simp only [State.nnode, List.length_append, List.length_singleton] at hn ⊢
    rcases List.mem_cons.mp (hp'.mem_iff.mp hn) with rfl | hn
    · have := htnew; simp only [State.nnode] at this; rw [this]; rfl
    · obtain ⟨t, ht⟩ := Option.isSome_iff_exists.mp (hb.rooted n (hperm.mem_iff.mpr (by simp [hn])))
      have := hmono ht; simp only [State.nnode] at this; rw [this]; rfl
  · simp only [State.nnode, List.length_append, List.length_singleton]
    refine ((hp'.flatMap_right _).map BitVec.toNat).trans ?_
    have h1 : heap2.flatMap (indicesBelow (s.nodes ++ [Node.internal (s.nodes[a.toNat].freqOf + s.nodes[b.toNat].freqOf) a b])
        (s.nodes.length + 1)) = heap2.flatMap (indicesBelow s.nodes s.nnode) := by
      apply List.flatMap_congr
      intro n hn
      obtain ⟨t, ht⟩ := Option.isSome_iff_exists.mp (hb.rooted n (hperm.mem_iff.mpr (by simp [hn])))
      have := hmono ht; simp only [State.nnode] at this
      simp [indicesBelow, this, ht]
    have h2' : indicesBelow (s.nodes ++ [Node.internal (s.nodes[a.toNat].freqOf + s.nodes[b.toNat].freqOf) a b])
        (s.nodes.length + 1) (BitVec.ofNat 9 s.nodes.length) =
        BitVec.ofNat 9 s.nodes.length :: (ta.indices ++ tb.indices) := by
      have := htnew; simp only [State.nnode] at this
      simp [indicesBelow, this, Tree.indices]
    rw [List.flatMap_cons, h1, h2', List.range_succ]
    simp only [List.map_append, List.map_cons, hnew, List.cons_append, List.append_assoc]
    exact (hforest'.cons _).trans (List.perm_append_singleton _ _).symm
  · exact ho' (ho2 ho1')
  · refine ⟨⟨heap1, heap2, ?_, ?_, hins⟩, ?_, ?_, ?_, ?_, ?_, ⟨_, rfl⟩, ⟨ha, hbn⟩, ?_, rfl⟩
    · rw [hheap]; exact he1
    · rw [hheap1]; exact he2
    · exact (by rw [hheap]; exact leastKey_root hvalid' hord' :
        leastKey s.nodes s.heap a) b (hperm.mem_iff.mpr (by simp)) (Ne.symm hab)
    · rw [hheap]; exact leastKey_root hvalid' hord'
    · intro h1 hh1
      rw [hheap, he1] at hh1
      simp only [Except.ok.injEq, Prod.mk.injEq, true_and] at hh1
      rw [← hh1, hheap1]; exact leastKey_root hv1' ho1'
    · exact hab
    · exact hwnew
    · simp only [State.heapn]; omega

end Sys2Proof.Machine
end

