-- ==== Sys2Proof/Laws/Codes.lean ====
section
/-! SUPPORT. The code table: what CODEGEN and BUILD establish, and what follows of the codes in phase READY (spec
42_code_table.md R131 to R134, 44_decoder.md R146, R152, R153). -/

namespace Sys2Proof.Machine

/-! ### One tree -/

/-- A built state with one node in the heap: that node is the root, its tree holds every node, and it is the last made
(R27). -/
theorem Built.oneTree {s : State} (hb : Built s) {r : NodeIdx} (hr : s.heap = [r]) :
    ∃ t, treeAt s.nodes s.nodes.length r = some t ∧ (t.indices.map BitVec.toNat).Perm (List.range s.nodes.length) ∧
      t.leafCount = s.nleaf.toNat ∧ r.toNat + 1 = s.nodes.length := by
  obtain ⟨t, ht⟩ := Option.isSome_iff_exists.mp (hb.rooted r (by simp [hr]))
  rw [State.nnode] at ht
  have hf := hb.forest
  rw [hr] at hf
  simp only [List.flatMap_cons, List.flatMap_nil, List.append_nil, indicesBelow, State.nnode, ht] at hf
  have hcnt := hb.counts
  simp only [State.nnode, State.heapn, hr, List.length_singleton] at hcnt
  have hlen := hf.length_eq
  simp only [List.length_map, List.length_range] at hlen
  have hleaf := t.indices_length
  have hlt := (treeAt_root ht).1
  refine ⟨t, ht, hf, by omega, ?_⟩
  have hm : s.nodes.length - 1 ∈ t.indices.map BitVec.toNat := hf.mem_iff.mpr (List.mem_range.mpr (by omega))
  obtain ⟨i, hi, he⟩ := List.mem_map.mp hm
  have := treeAt_indices_le hb.children ht i hi
  omega

/-- The records CODEGEN writes for a whole tree fit their cells. -/
theorem rootCodes_fit {s : State} (hb : Built s) {r : NodeIdx} (hr : s.heap = [r]) :
    ∃ records, rootCodes s.nodes r = .ok records ∧ ∀ x ∈ records, 1 ≤ x.2.length ∧ x.2.length ≤ 255 := by
  obtain ⟨t, ht, -, hleaf, -⟩ := hb.oneTree hr
  have hle := hb.nleaf_le
  have hlt := (treeAt_root ht).1
  cases hn : s.nodes[r.toNat] with
  | leaf c f =>
    exact ⟨_, rootCodes_leaf (by rw [nodeAt_of_lt hlt, hn]), by simp⟩
  | internal f l rr =>
    have hna : nodeAt s.nodes r = some (.internal f l rr) := by rw [nodeAt_of_lt hlt, hn]
    refine ⟨_, rootCodes_internal hna ht, ?_⟩
    obtain ⟨d, a, b, -, -, -, rfl⟩ := treeAt_internal hna ht
    intro x hx
    obtain ⟨q, hq, hql⟩ := Tree.paths_bounds _ _ x hx
    simp only [List.nil_append] at hq
    rw [hq]
    refine ⟨?_, by omega⟩
    simp only [Tree.paths, List.nil_append, List.mem_append] at hx
    rcases hx with hx | hx <;> obtain ⟨q', hq', -⟩ := Tree.paths_bounds _ _ x hx <;> rw [← hq, hq'] <;> simp

/-- The body of CODEGEN on a whole tree (R132). -/
theorem codegenBody_spec {s : State} (hm : MergeState s) {r : NodeIdx} (hr : s.heap = [r]) :
    ∃ code, codegenBody s = .ok { s with root := r, code := code, acc := [], accovf := false, phase := .ready } ∧
      ReadyState { s with root := r, code := code, acc := [], accovf := false, phase := .ready } := by
  obtain ⟨records, hrec, hfit⟩ := rootCodes_fit hm.built hr
  obtain ⟨code, hcode⟩ := recordCodes_ok records (Vector.replicate 256 none) hfit
  obtain ⟨t, -, -, -, hroot⟩ := hm.built.oneTree hr
  have hb := hm.built
  refine ⟨code, ?_, ⟨⟨hb.leaves, hb.nleaf, hb.internals, hb.children, hb.counts, hb.nonempty, hb.weight, hb.rooted,
    hb.forest, hb.ordered⟩, hr, hroot, ⟨records, hrec, hcode⟩, by simp [State.acclen], by simp⟩⟩
  simp [codegenBody, hr, hrec, hm.code, hcode]

/-! ### Symbols of a tree -/

/-- The symbol of a leaf. -/
def leafSymbol (nodes : List Node) (i : NodeIdx) : Option Symbol :=
  match nodeAt nodes i with
  | some (.leaf c _) => some c
  | _ => none

/-- The symbols of the paths, in order, are the symbols of the tree's indices. -/
theorem paths_symbols {nodes : List Node} : ∀ {d : Nat} {n : NodeIdx} {t : Tree} (p : Bits),
    treeAt nodes d n = some t → (t.paths p).map Prod.fst = t.indices.filterMap (leafSymbol nodes)
  | 0, _, _, _, h => by simp [treeAt] at h
  | d + 1, n, t, p, h => by
    unfold treeAt at h
    cases hn : nodeAt nodes n with
    | none => simp [hn] at h
    | some x =>
      rw [hn] at h
      cases x with
      | leaf c f =>
        simp only [Option.some.injEq] at h; subst h
        simp [Tree.paths, Tree.indices, leafSymbol, hn]
      | internal f l r =>
        simp only at h
        split at h
        · rename_i a b ha hb
          simp only [Option.some.injEq] at h
          subst h
          simp [Tree.paths, Tree.indices, leafSymbol, hn, paths_symbols _ ha, paths_symbols _ hb]
        · simp at h

theorem filterMap_range_getElem {α : Type} (l : List α) : (List.range l.length).filterMap (fun i => l[i]?) = l := by
  have h : (List.range l.length).map (fun i => l[i]?) = l.map some := by
    apply List.ext_getElem
    · simp
    · intro i h1 h2
      simp only [List.length_map, List.length_range] at h1
      simp [h1]
  have h2 := congrArg (List.filterMap id) h
  rw [List.filterMap_map, List.filterMap_map] at h2
  simpa [Function.comp_def] using h2

/-- The symbols of a built store's nodes, by index, are the keys of the frequency table. -/
theorem Built.symbols {s : State} (hb : Built s) :
    ((List.range s.nodes.length).map (BitVec.ofNat 9)).filterMap (leafSymbol s.nodes) = support s.freq := by
  have hle := hb.nnode_le
  have hln := hb.nleaf_le_nnode
  have e1 : ((List.range s.nodes.length).map (BitVec.ofNat 9)).filterMap (leafSymbol s.nodes) =
      s.nodes.filterMap (fun x => match x with | .leaf c _ => some c | .internal _ _ _ => none) := by
    conv_rhs => rw [← filterMap_range_getElem s.nodes]
    rw [List.filterMap_map, List.filterMap_filterMap]
    apply List.filterMap_congr
    intro i hi
    have hi' := List.mem_range.mp hi
    simp only [Function.comp, leafSymbol, nodeAt]
    rw [toNat_ofNat9 (by omega), List.getElem?_eq_getElem hi']
    cases s.nodes[i] <;> rfl
  rw [e1]
  conv_lhs => rw [← List.take_append_drop s.nleaf.toNat s.nodes]
  rw [List.filterMap_append, hb.leaves]
  have e2 : (s.nodes.drop s.nleaf.toNat).filterMap
      (fun x => match x with | .leaf c _ => some c | .internal _ _ _ => none) = ([] : List Symbol) := by
    rw [List.filterMap_eq_nil_iff]
    intro x hx
    have := List.all_eq_true.mp hb.internals x hx
    cases x with
    | leaf c f => simp at this
    | internal f l r => rfl
  rw [e2, List.append_nil, leafNodes, List.filterMap_map]
  have : ((fun x => match x with | Node.leaf c _ => some c | .internal _ _ _ => none) ∘
      fun c => Node.leaf c (tableGet s.freq c)) = (some : Symbol → Option Symbol) := by funext c; rfl
  rw [this, List.filterMap_some]

/-- The records of a whole tree name every key of the frequency table, each once (R134 (a)). -/
theorem records_symbols {s : State} (hb : Built s) {r : NodeIdx} (hr : s.heap = [r]) {records : List (Symbol × Bits)}
    (hrec : rootCodes s.nodes r = .ok records) : (records.map Prod.fst).Perm (support s.freq) := by
  obtain ⟨t, ht, hperm, -, -⟩ := hb.oneTree hr
  have hlt := (treeAt_root ht).1
  have hp := (heap_perm_of_toNat hperm).filterMap (leafSymbol s.nodes)
  rw [hb.symbols] at hp
  cases hn : s.nodes[r.toNat] with
  | leaf c f =>
    have hna : nodeAt s.nodes r = some (.leaf c f) := by rw [nodeAt_of_lt hlt, hn]
    rw [rootCodes_leaf hna] at hrec
    simp only [Except.ok.injEq] at hrec
    subst hrec
    obtain ⟨k, hk⟩ : ∃ k, s.nodes.length = k + 1 := ⟨s.nodes.length - 1, by omega⟩
    rw [hk, treeAt_leaf k hna] at ht
    simp only [Option.some.injEq] at ht
    subst ht
    simpa [Tree.indices, leafSymbol, hna] using hp
  | internal f l rr =>
    have hna : nodeAt s.nodes r = some (.internal f l rr) := by rw [nodeAt_of_lt hlt, hn]
    rw [rootCodes_internal hna ht] at hrec
    simp only [Except.ok.injEq] at hrec
    subst hrec
    rw [paths_symbols [] ht]; exact hp

/-- The records of a ready state, and what they say of CODE. -/
theorem ReadyState.records {s : State} (h : ReadyState s) :
    ∃ records, rootCodes s.nodes s.root = .ok records ∧ (records.map Prod.fst).Perm (support s.freq) ∧
      (∀ x ∈ records, 1 ≤ x.2.length ∧ x.2.length ≤ 255) ∧
      ∀ c p, tableGet s.code c = some p ↔ (c, p) ∈ records := by
  obtain ⟨records, hrec, hcode⟩ := h.code
  have hperm := records_symbols h.built h.heap hrec
  obtain ⟨records', hrec', hfit⟩ := rootCodes_fit h.built h.heap
  rw [hrec] at hrec'
  simp only [Except.ok.injEq] at hrec'
  subst hrec'
  refine ⟨records, hrec, hperm, hfit, fun c p => ?_⟩
  rw [recordCodes_get hcode (hperm.nodup_iff.mpr (support_nodup _)) c p]
  simp

/-- The codes have 1 to 255 digits (R134 (b)). -/
theorem ReadyState.codeLength {s : State} (h : ReadyState s) {c : Symbol} {p : Bits}
    (hc : tableGet s.code c = some p) : 1 ≤ p.length ∧ p.length ≤ 255 := by
  obtain ⟨records, -, -, hfit, hget⟩ := h.records
  exact hfit _ ((hget c p).mp hc)

/-- A code is valid exactly for the keys of the frequency table (R134 (a)). -/
theorem ReadyState.valid_iff {s : State} (h : ReadyState s) (c : Symbol) :
    (∃ p, tableGet s.code c = some p) ↔ tableGet s.freq c ≠ 0 := by
  obtain ⟨records, -, hperm, -, hget⟩ := h.records
  rw [← mem_support, ← hperm.mem_iff, List.mem_map]
  constructor
  · rintro ⟨p, hp⟩; exact ⟨_, (hget c p).mp hp, rfl⟩
  · rintro ⟨⟨d, p⟩, hm, rfl⟩; exact ⟨p, (hget d p).mpr hm⟩

/-! ### Prefix-freedom (R134 (c), (d)) -/

/-- Of two paths of a tree, the one a prefix of the other, the symbols' leaves are the same: neither path leaves the
other. -/
theorem Tree.paths_prefix : ∀ (t : Tree) (p : Bits), ((t.paths p).map Prod.fst).Nodup →
    ∀ x ∈ t.paths p, ∀ y ∈ t.paths p, x.2 <+: y.2 → x.1 = y.1
  | .leaf _ c, p, _, x, hx, y, hy, _ => by
    simp only [Tree.paths, List.mem_singleton] at hx hy; rw [hx, hy]
  | .node _ l r, p, hn, x, hx, y, hy, hxy => by
    simp only [Tree.paths, List.map_append, List.nodup_append, List.mem_append] at hn hx hy
    have step : ∀ (a b : Digit) (u v : Bits), (p ++ [a]) ++ u <+: (p ++ [b]) ++ v → a = b := by
      intro a b u v huv
      simp only [List.append_assoc, List.prefix_append_right_inj, List.singleton_append, List.cons_prefix_cons] at huv
      exact huv.1
    rcases hx with hx | hx <;> rcases hy with hy | hy
    · exact l.paths_prefix _ hn.1 x hx y hy hxy
    · obtain ⟨u, hu, -⟩ := l.paths_bounds _ x hx
      obtain ⟨v, hv, -⟩ := r.paths_bounds _ y hy
      rw [hu, hv] at hxy
      exact absurd (step _ _ _ _ hxy) (by decide)
    · obtain ⟨u, hu, -⟩ := r.paths_bounds _ x hx
      obtain ⟨v, hv, -⟩ := l.paths_bounds _ y hy
      rw [hu, hv] at hxy
      exact absurd (step _ _ _ _ hxy) (by decide)
    · exact r.paths_prefix _ hn.2.1 x hx y hy hxy

/-- The records of a whole tree are the one digit 0 of a leaf, or the paths of the tree. -/
theorem records_shape {s : State} (hb : Built s) {r : NodeIdx} (hr : s.heap = [r]) {records : List (Symbol × Bits)}
    (hrec : rootCodes s.nodes r = .ok records) :
    (∃ c, records = [(c, [0])] ∧ s.nleaf.toNat = 1 ∧ ∃ f, nodeAt s.nodes r = some (.leaf c f)) ∨
    (∃ t, treeAt s.nodes s.nodes.length r = some t ∧ records = t.paths [] ∧ 2 ≤ s.nleaf.toNat ∧
      t.leafCount = s.nleaf.toNat ∧ ∃ f l rr, nodeAt s.nodes r = some (.internal f l rr)) := by
  obtain ⟨t, ht, -, hleaf, -⟩ := hb.oneTree hr
  have hlt := (treeAt_root ht).1
  cases hn : s.nodes[r.toNat] with
  | leaf c f =>
    have hna : nodeAt s.nodes r = some (.leaf c f) := by rw [nodeAt_of_lt hlt, hn]
    rw [rootCodes_leaf hna] at hrec
    simp only [Except.ok.injEq] at hrec
    obtain ⟨k, hk⟩ : ∃ k, s.nodes.length = k + 1 := ⟨s.nodes.length - 1, by omega⟩
    rw [hk, treeAt_leaf k hna] at ht
    simp only [Option.some.injEq] at ht
    subst ht
    exact .inl ⟨c, hrec.symm, hleaf.symm, f, hna⟩
  | internal f l rr =>
    have hna : nodeAt s.nodes r = some (.internal f l rr) := by rw [nodeAt_of_lt hlt, hn]
    rw [rootCodes_internal hna ht] at hrec
    simp only [Except.ok.injEq] at hrec
    refine .inr ⟨t, ht, hrec.symm, ?_, hleaf, f, l, rr, hna⟩
    obtain ⟨d, a, b, -, -, -, rfl⟩ := treeAt_internal hna ht
    have := a.leafCount_pos
    have := b.leafCount_pos
    simp only [Tree.leafCount] at hleaf
    omega

/-- The codes of a ready state are prefix-free (R134). -/
theorem ReadyState.prefixFree {s : State} (h : ReadyState s) : prefixFree s.code := by
  obtain ⟨records, hrec, hperm, -, hget⟩ := h.records
  have hnd := hperm.nodup_iff.mpr (support_nodup _)
  intro c d p q hc hd hpq
  have hc' := (hget c p).mp hc
  have hd' := (hget d q).mp hd
  rcases records_shape h.built h.heap hrec with ⟨e, rfl, -⟩ | ⟨t, -, rfl, -⟩
  · simp only [List.mem_singleton, Prod.mk.injEq] at hc' hd'
    rw [hc'.1, hd'.1]
  · exact t.paths_prefix [] hnd _ hc' _ hd' hpq

end Sys2Proof.Machine
end

