-- ==== Sys2Proof/Laws/Decoding.lean ====
section
/-! SUPPORT. Codes as walks of the tree, completeness, and the match of the decoder (spec 42_code_table.md R134 (e),
44_decoder.md R146, R152, R153). -/

namespace Sys2Proof.Machine

theorem digit_cases (b : Digit) : b = 0 ∨ b = 1 := by revert b; decide

/-- A path of a tree leads, digit by digit, to the leaf of its symbol (R131, R153). -/
theorem paths_follow {nodes : List Node} {c : Symbol} : ∀ {d : Nat} {n : NodeIdx} {t : Tree} (q p : Bits),
    treeAt nodes d n = some t →
    ((c, q ++ p) ∈ t.paths q ↔ ∃ i f, follow nodes n p = some i ∧ nodeAt nodes i = some (.leaf c f))
  | 0, _, _, _, _, h => by simp [treeAt] at h
  | d + 1, n, t, q, p, h => by
    unfold treeAt at h
    cases hn : nodeAt nodes n with
    | none => simp [hn] at h
    | some x =>
      rw [hn] at h
      cases x with
      | leaf e g =>
        simp only [Option.some.injEq] at h; subst h
        cases p with
        | nil =>
          simp only [Tree.paths, follow, List.append_nil, List.mem_singleton, Prod.mk.injEq, and_true]
          constructor
          · rintro rfl; exact ⟨n, g, rfl, hn⟩
          · rintro ⟨i, f, hi, hf⟩
            simp only [Option.some.injEq] at hi; subst hi
            rw [hn] at hf
            simp only [Option.some.injEq, Node.leaf.injEq] at hf
            exact hf.1.symm
        | cons b p => simp [Tree.paths, follow, hn]
      | internal f l r =>
        simp only at h
        split at h
        · rename_i a b ha hb
          simp only [Option.some.injEq] at h
          subst h
          cases p with
          | nil =>
            simp only [Tree.paths, follow, List.append_nil, List.mem_append]
            constructor
            · rintro (hm | hm) <;> obtain ⟨u, hu, -⟩ := Tree.paths_bounds _ _ _ hm <;> simp at hu
            · rintro ⟨i, g, hi, hf⟩
              simp only [Option.some.injEq] at hi; subst hi
              rw [hn] at hf; simp at hf
          | cons e p =>
            have e1 : q ++ e :: p = (q ++ [e]) ++ p := by simp
            simp only [Tree.paths, List.mem_append, follow, hn, e1]
            rcases digit_cases e with rfl | rfl
            · rw [if_pos rfl, ← paths_follow (q ++ [0]) p ha]
              constructor
              · rintro (hm | hm)
                · simpa using hm
                · obtain ⟨u, hu, -⟩ := Tree.paths_bounds _ _ _ hm
                  simp at hu
              · intro hm; exact .inl (by simpa using hm)
            · rw [if_neg (by decide), ← paths_follow (q ++ [1]) p hb]
              constructor
              · rintro (hm | hm)
                · obtain ⟨u, hu, -⟩ := Tree.paths_bounds _ _ _ hm
                  simp at hu
                · simpa using hm
              · intro hm; exact .inr (by simpa using hm)
        · simp at h

/-- Digits enough lead to a leaf: some path is a prefix of them (R134 (e)). -/
theorem Tree.complete : ∀ (t : Tree) (q bits : Bits), t.leafCount ≤ bits.length + 1 →
    ∃ x ∈ t.paths q, ∃ p, x.2 = q ++ p ∧ p <+: bits
  | .leaf _ c, q, bits, _ => ⟨(c, q), by simp [Tree.paths], [], by simp, by simp⟩
  | .node _ l r, q, bits, h => by
    have hl := l.leafCount_pos
    have hr := r.leafCount_pos
    simp only [Tree.leafCount] at h
    cases bits with
    | nil => simp only [List.length_nil] at h; omega
    | cons b bits =>
      simp only [List.length_cons] at h
      rcases digit_cases b with rfl | rfl
      · obtain ⟨x, hx, p, hp, hpre⟩ := l.complete (q ++ [0]) bits (by omega)
        exact ⟨x, List.mem_append_left _ hx, 0 :: p, by simp [hp], by simpa using hpre⟩
      · obtain ⟨x, hx, p, hp, hpre⟩ := r.complete (q ++ [1]) bits (by omega)
        exact ⟨x, List.mem_append_right _ hx, 1 :: p, by simp [hp], by simpa using hpre⟩

/-- With k > 1 the codes of a ready state are the paths of its tree. -/
theorem ReadyState.codes_paths {s : State} (h : ReadyState s) (hk : 1 < s.nleaf.toNat) :
    ∃ t, treeAt s.nodes s.nodes.length s.root = some t ∧ t.leafCount = s.nleaf.toNat ∧
      ∀ c p, tableGet s.code c = some p ↔ (c, p) ∈ t.paths [] := by
  obtain ⟨records, hrec, -, -, hget⟩ := h.records
  rcases records_shape h.built h.heap hrec with ⟨e, -, h1, -⟩ | ⟨t, ht, rfl, -, hl, -⟩
  · omega
  · exact ⟨t, ht, hl, hget⟩

/-- With k = 1 the one code is [0] (R133). -/
theorem ReadyState.codes_single {s : State} (h : ReadyState s) (hk : s.nleaf.toNat = 1) :
    ∃ e, ∀ c p, tableGet s.code c = some p ↔ c = e ∧ p = [0] := by
  obtain ⟨records, hrec, -, -, hget⟩ := h.records
  rcases records_shape h.built h.heap hrec with ⟨e, rfl, -⟩ | ⟨t, -, -, h2, -⟩
  · exact ⟨e, fun c p => by rw [hget]; simp⟩
  · omega

/-- With k > 1 every Bitstring of 255 digits has a code as a prefix (R134 (e)). -/
theorem ReadyState.complete {s : State} (h : ReadyState s) (hk : 1 < s.nleaf.toNat) {bits : Bits}
    (hb : bits.length = 255) : ∃ c p, tableGet s.code c = some p ∧ p <+: bits := by
  obtain ⟨t, -, hl, hget⟩ := h.codes_paths hk
  have hle := h.built.nleaf_le
  obtain ⟨⟨c, u⟩, hx, p, hp, hpre⟩ := t.complete [] bits (by omega)
  simp only [List.nil_append] at hp
  subst hp
  exact ⟨c, _, (hget c _).mpr hx, hpre⟩

/-! ### Match -/

theorem matchCode_some {code : Vector (Option Bits) 256} {a : Bits} {c : Symbol} (h : matchCode code a = some c) :
    tableGet code c = some a := by
  have := List.find?_some h
  simpa using this

theorem matchCode_none {code : Vector (Option Bits) 256} {a : Bits} :
    matchCode code a = none ↔ ∀ c, tableGet code c ≠ some a := by
  unfold matchCode
  rw [List.find?_eq_none]
  constructor
  · intro h c; simpa using h c (mem_allSymbols c)
  · intro h c _; simpa using h c

/-- In a ready state Match(a) is the one symbol whose code is a (R146). -/
theorem ReadyState.matchCode_iff {s : State} (h : ReadyState s) (a : Bits) (c : Symbol) :
    matchCode s.code a = some c ↔ tableGet s.code c = some a := by
  constructor
  · exact matchCode_some
  · intro hc
    cases hm : matchCode s.code a with
    | none => exact absurd hc (matchCode_none.mp hm c)
    | some d => rw [h.prefixFree c d a a hc (matchCode_some hm) (List.prefix_refl a)]

/-- A proper prefix of a code matches nothing (R150). -/
theorem ReadyState.no_match_of_prefix {s : State} (h : ReadyState s) {a p : Bits} {c : Symbol}
    (hc : tableGet s.code c = some p) (ha : a <+: p) (hne : a ≠ p) : matchCode s.code a = none := by
  rw [matchCode_none]
  intro d hd
  have := h.prefixFree d c a p hd hc ha
  subst this
  rw [hd] at hc
  simp only [Option.some.injEq] at hc
  exact hne hc

/-- With k > 1, a proper prefix of a code, one digit longer, is a code or a proper prefix of one (R152). -/
theorem ReadyState.extend {s : State} (h : ReadyState s) (hk : 1 < s.nleaf.toNat) {a : Bits}
    (ha : properPrefixOfCode s.code a) (b : Digit) :
    (∃ c, tableGet s.code c = some (a ++ [b])) ∨ properPrefixOfCode s.code (a ++ [b]) := by
  obtain ⟨d, q, hd, haq, hne⟩ := ha
  have hql := (h.codeLength hd).2
  have hlt : a.length < q.length := by
    refine Nat.lt_of_le_of_ne haq.length_le fun e => hne (haq.eq_of_length e)
  obtain ⟨c, p, hc, hp⟩ := h.complete hk (bits := (a ++ [b]) ++ List.replicate (254 - a.length) 0)
    (by simp only [List.length_append, List.length_singleton, List.length_replicate]; omega)
  rcases List.prefix_or_prefix_of_prefix hp (List.prefix_append (a ++ [b]) _) with hpa | hap
  · by_cases he : p = a ++ [b]
    · exact .inl ⟨c, he ▸ hc⟩
    · exfalso
      have hpl : p.length ≤ a.length := by
        have h1 := hpa.length_le
        have h2 : p.length ≠ (a ++ [b]).length := fun e => he (hpa.eq_of_length e)
        simp only [List.length_append, List.length_singleton] at h1 h2
        omega
      have hpa' : p <+: a := List.prefix_of_prefix_length_le hpa (List.prefix_append a [b]) hpl
      have hcd := h.prefixFree c d p q hc hd (hpa'.trans haq)
      subst hcd
      rw [hc] at hd
      simp only [Option.some.injEq] at hd
      subst hd
      omega
  · by_cases he : p = a ++ [b]
    · exact .inl ⟨c, he ▸ hc⟩
    · exact .inr ⟨c, p, hc, hap, fun e => he e.symm⟩

end Sys2Proof.Machine
end

