-- ==== Sys2Proof/Laws/Encoding.lean ====
section
/-! SUPPORT. The fields of a command word (spec 30_encoding.md R80, R81). -/

namespace Sys2Proof

@[simp] theorem opField_commandWord (op : BitVec 4) (arg : BitVec 12) : opField (commandWord op arg) = op := by
  apply BitVec.eq_of_toNat_eq
  have h1 := op.isLt
  have h2 := arg.isLt
  simp only [opField, commandWord, BitVec.extractLsb'_toNat, BitVec.toNat_append, Nat.shiftLeft_eq,
    Nat.shiftRight_eq_div_pow]
  rw [← Nat.shiftLeft_eq, ← Nat.shiftLeft_add_eq_or_of_lt h2, Nat.shiftLeft_eq]
  omega

@[simp] theorem argField_commandWord (op : BitVec 4) (arg : BitVec 12) : argField (commandWord op arg) = arg := by
  apply BitVec.eq_of_toNat_eq
  have h1 := op.isLt
  have h2 := arg.isLt
  simp only [argField, commandWord, BitVec.extractLsb'_toNat, BitVec.toNat_append, Nat.shiftRight_zero]
  rw [← Nat.shiftLeft_add_eq_or_of_lt h2, Nat.shiftLeft_eq]
  omega

/-- A word is its two fields. -/
theorem commandWord_fields (w : CmdWord) : commandWord (opField w) (argField w) = w := by
  apply BitVec.eq_of_toNat_eq
  have h := w.isLt
  have h2 : w.toNat % 2 ^ 12 < 2 ^ 12 := Nat.mod_lt _ (by decide)
  simp only [opField, argField, commandWord, BitVec.extractLsb'_toNat, BitVec.toNat_append, Nat.shiftRight_zero]
  rw [← Nat.shiftLeft_add_eq_or_of_lt h2, Nat.shiftLeft_eq, Nat.shiftRight_eq_div_pow]
  omega

/-- An operand that fits its field is read back. -/
theorem operand_setWidth {n : Nat} (hn : n ≤ 12) (x : BitVec n) : operand n (x.setWidth 12) = .ok x := by
  have hx := x.isLt
  have hp : 2 ^ n ≤ 2 ^ 12 := Nat.pow_le_pow_right (by decide) hn
  have h0 : (x.setWidth 12) >>> n = 0#12 := by
    apply BitVec.eq_of_toNat_eq
    simp only [BitVec.toNat_ushiftRight, BitVec.toNat_setWidth, BitVec.toNat_ofNat, Nat.shiftRight_eq_div_pow]
    rw [Nat.mod_eq_of_lt (by omega), Nat.div_eq_of_lt hx]
  rw [operand, if_pos h0]
  congr 1
  apply BitVec.eq_of_toNat_eq
  simp only [BitVec.toNat_setWidth]
  rw [Nat.mod_eq_of_lt (show x.toNat < 2 ^ 12 by omega), Nat.mod_eq_of_lt hx]

/-- An operand that is read is the whole of ARG. -/
theorem operand_eq_ok {n : Nat} {arg : BitVec 12} {x : BitVec n} (h : operand n arg = .ok x) :
    arg = x.setWidth 12 := by
  rw [operand] at h
  split at h
  · rename_i h0
    simp only [Except.ok.injEq] at h
    subst h
    apply BitVec.eq_of_toNat_eq
    have h1 := congrArg BitVec.toNat h0
    have ha := arg.isLt
    simp only [BitVec.toNat_ushiftRight, BitVec.toNat_ofNat, Nat.shiftRight_eq_div_pow, Nat.zero_mod,
      Nat.div_eq_zero_iff] at h1
    have hlt : arg.toNat < 2 ^ n := h1.resolve_left (by positivity)
    simp only [BitVec.toNat_setWidth]
    rw [Nat.mod_eq_of_lt hlt, Nat.mod_eq_of_lt ha]
  · simp at h

theorem operand_eq_error {n : Nat} {arg : BitVec 12} (h : arg >>> n ≠ 0#12) : operand n arg = .error .mustBeZero := by
  rw [operand, if_neg h]

theorem withOperand_eq_ok {n : Nat} {arg : BitVec 12} {mk : BitVec n → Instr} {i : Instr}
    (h : withOperand n arg mk = .ok i) : ∃ x, i = mk x ∧ arg = x.setWidth 12 := by
  unfold withOperand at h
  split at h
  · rename_i x hx
    simp only [Except.ok.injEq] at h
    exact ⟨x, h.symm, operand_eq_ok hx⟩
  · simp at h

/-- Two words are equal exactly when their fields are. -/
theorem commandWord_inj {op op' : BitVec 4} {arg arg' : BitVec 12} :
    commandWord op arg = commandWord op' arg' ↔ op = op' ∧ arg = arg' := by
  constructor
  · intro h
    have h1 := congrArg opField h
    have h2 := congrArg argField h
    rw [opField_commandWord, opField_commandWord] at h1
    rw [argField_commandWord, argField_commandWord] at h2
    exact ⟨h1, h2⟩
  · rintro ⟨rfl, rfl⟩; rfl

/-- A row of the opcode map fixes the opcode and masks ARG (R82). -/
theorem masked_commandWord (op p : BitVec 4) (arg m : BitVec 12) :
    commandWord op arg &&& commandWord 0xF#4 m = commandWord p 0#12 ↔ op = p ∧ arg &&& m = 0#12 := by
  have h : commandWord op arg &&& commandWord 0xF#4 m = commandWord (op &&& 0xF#4) (arg &&& m) :=
    BitVec.and_append
  have hf : ∀ x : BitVec 4, x &&& 0xF#4 = x := by decide
  rw [h, commandWord_inj, hf]

end Sys2Proof
end

