-- ==== Sys2Proof/Laws/Invariant.lean ====
section
/-! SUPPORT. How each meaning treats the invariant of spec 10_state.md R51: one lemma per kind of state change, and one
per command body. -/

namespace Sys2Proof.Machine

/-- The invariant does not speak of LASTERR, ERRSYM and the two ports. -/
theorem Inv.frame {s t : State} (h : Inv s)
    (e : t = { s with lasterr := t.lasterr, errsym := t.errsym, resp := t.resp, port := t.port }) : Inv t := by
  obtain ⟨ht, hp⟩ := h
  rw [e]
  refine ⟨ht, ?_⟩
  unfold phaseInv at hp ⊢
  simp only
  cases hph : s.phase <;> rw [hph] at hp <;> simp only at hp ⊢
  · exact ⟨hp.nodes, hp.heap, hp.nleaf, hp.root, hp.code, hp.acc, hp.accovf⟩
  · have b := hp.built
    exact ⟨⟨b.leaves, b.nleaf, b.internals, b.children, b.counts, b.nonempty, b.weight, b.rooted, b.forest, b.ordered⟩,
      hp.root, hp.code, hp.acc, hp.accovf⟩
  · have b := hp.built
    exact ⟨⟨b.leaves, b.nleaf, b.internals, b.children, b.counts, b.nonempty, b.weight, b.rooted, b.forest, b.ordered⟩,
      hp.heap, hp.root, hp.code, hp.acclen, hp.accovf⟩

theorem Inv.emitAll {s : State} (h : Inv s) (rs : List Response) : Inv (emitAll rs s) := h.frame rfl

theorem Inv.raiseState {s : State} (h : Inv s) (e : ErrKind) : Inv (raiseState e s) := h.frame rfl

theorem Inv.withPort {s : State} (h : Inv s) (p : List HostEvent) : Inv { s with port := p } := h.frame rfl

theorem Inv.count {s : State} (h : Inv s) (hp : s.phase = .count) : CountState s := by
  have := h.phase; rwa [phaseInv, hp] at this

theorem Inv.merge {s : State} (h : Inv s) (hp : s.phase = .merge) : MergeState s := by
  have := h.phase; rwa [phaseInv, hp] at this

theorem Inv.ready {s : State} (h : Inv s) (hp : s.phase = .ready) : ReadyState s := by
  have := h.phase; rwa [phaseInv, hp] at this

/-- Reset leaves the invariant, from any state. -/
theorem inv_resetBlock (s : State) : Inv (resetBlock s) := by
  refine ⟨?_, ⟨rfl, rfl, rfl, rfl, rfl, rfl, rfl⟩⟩
  rw [freqSum_eq_support]
  have : support (resetBlock s).freq = [] := by
    rw [support, List.filter_eq_nil_iff]
    intro c _
    simp
  rw [this]; rfl

/-- In phase READY the accumulator may change within its capacity (R31). -/
theorem Inv.withAcc {s : State} (h : Inv s) (hp : s.phase = .ready) {a : Bits} {o : Bool}
    (ha : a.length ≤ 255) (ho : o = true → a.length = 255) : Inv { s with acc := a, accovf := o } := by
  have r := h.ready hp
  have b := r.built
  refine ⟨h.total, ?_⟩
  simp only [phaseInv, hp]
  exact ⟨⟨b.leaves, b.nleaf, b.internals, b.children, b.counts, b.nonempty, b.weight, b.rooted, b.forest, b.ordered⟩,
    r.heap, r.root, r.code, ha, ho⟩

/-! ### SYM -/

theorem sum_map_update {α : Type} [DecidableEq α] {l : List α} (hn : l.Nodup) {c : α} (hc : c ∈ l) {g g' : α → Nat}
    (h1 : g' c = g c + 1) (h2 : ∀ d, d ≠ c → g' d = g d) : (l.map g').sum = (l.map g).sum + 1 := by
  induction l with
  | nil => simp at hc
  | cons a l ih =>
    simp only [List.nodup_cons] at hn
    simp only [List.map_cons, List.sum_cons]
    by_cases hac : a = c
    · subst hac
      have : l.map g' = l.map g := List.map_congr_left fun d hd => h2 d (by rintro rfl; exact hn.1 hd)
      rw [this, h1]; omega
    · rw [h2 a hac, ih hn.2 (by simpa [Ne.symm hac] using hc)]; omega

theorem freqSum_eq_all (f : Vector Freq 256) : freqSum f = (allSymbols.map (fun c => (tableGet f c).toNat)).sum := by
  rw [freqSum, toList_eq_map_tableGet, List.map_map]; rfl

/-- An entry is at most the sum. -/
theorem le_freqSum (f : Vector Freq 256) (c : Symbol) : (tableGet f c).toNat ≤ freqSum f := by
  rw [freqSum_eq_all]
  exact List.le_sum_of_mem (List.mem_map.mpr ⟨c, mem_allSymbols c, rfl⟩)

theorem toNat_succ32 {x : BitVec 32} (h : x.toNat + 1 < 2 ^ 32) : (x + 1).toNat = x.toNat + 1 := by
  have : (1 : BitVec 32).toNat = 1 := rfl
  rw [BitVec.toNat_add, this, Nat.mod_eq_of_lt h]

/-- One accepted SYM raises the sum of the table by one (R102). -/
theorem freqSum_increment {f : Vector Freq 256} {c : Symbol} (h : (tableGet f c).toNat + 1 < 2 ^ 32) :
    freqSum (tableSet f c (tableGet f c + 1)) = freqSum f + 1 := by
  rw [freqSum_eq_all, freqSum_eq_all]
  refine sum_map_update allSymbols_nodup (mem_allSymbols c) ?_ ?_
  · rw [tableGet_tableSet_same, toNat_succ32 h]
  · intro d hd; simp only [tableGet_tableSet_other f _ (Ne.symm hd)]

theorem total_succ {s : State} (ht : s.total ≠ 0xFFFFFFFF#32) : (s.total + 1).toNat = s.total.toNat + 1 := by
  have h1 := s.total.isLt
  have h2 : s.total.toNat ≠ 0xFFFFFFFF := fun h => ht (BitVec.eq_of_toNat_eq h)
  exact toNat_succ32 (by omega)

/-- The accepted SYM keeps the invariant. -/
theorem inv_sym {s : State} (h : Inv s) (hp : s.phase = .count) (ht : s.total ≠ 0xFFFFFFFF#32) (c : Symbol) :
    Inv { s with freq := tableSet s.freq c (freqOperand c s + 1), total := s.total + 1 } := by
  have hc := h.count hp
  have hle := le_freqSum s.freq c
  have hs := total_succ ht
  have hlt := (s.total + 1).isLt
  have htot := h.total
  refine ⟨?_, ?_⟩
  · simp only [freqOperand]
    rw [freqSum_increment (by omega), hs, htot]
  · simp only [phaseInv, hp]
    exact ⟨hc.nodes, hc.heap, hc.nleaf, hc.root, hc.code, hc.acc, hc.accovf⟩

/-! ### The construction commands -/

/-- LEAVES on a non-empty training text answers a state of phase MERGE. -/
theorem inv_leavesBody {s : State} (h : Inv s) (hp : s.phase = .count) (ht : s.total ≠ 0) :
    ∃ t, leavesBody s = .ok t ∧ Inv t ∧ t.phase = .merge := by
  obtain ⟨heap', he, -, -, hm⟩ := leavesBody_spec h hp ht
  exact ⟨_, he, ⟨h.total, hm⟩, rfl⟩

theorem MergeEffect.phase {s t : State} {a b : NodeIdx} (e : MergeEffect s t a b) : t.phase = s.phase := by
  rw [e.frame]

/-- MERGE with at least two nodes in the heap answers a state of phase MERGE. -/
theorem inv_mergeBody {s : State} (h : Inv s) (hp : s.phase = .merge) (h2 : 2 ≤ s.heapn) :
    ∃ t a b, mergeBody s = .ok t ∧ Inv t ∧ t.phase = .merge ∧ MergeEffect s t a b := by
  have hm := h.merge hp
  obtain ⟨t, a, b, he, hb, hf⟩ := mergeBody_spec hm.built h2
  have hph : t.phase = .merge := by rw [hf.phase, hp]
  refine ⟨t, a, b, he, ⟨?_, ?_⟩, hph, hf⟩
  · rw [hf.frame]; exact h.total
  · rw [phaseInv, hph]
    exact ⟨hb, by rw [hf.frame]; exact hm.root, by rw [hf.frame]; exact hm.code, by rw [hf.frame]; exact hm.acc,
      by rw [hf.frame]; exact hm.accovf⟩

theorem heap_singleton {s : State} (h : s.heapn = 1) : ∃ r, s.heap = [r] := List.length_eq_one_iff.mp h

/-- CODEGEN with one node in the heap answers a state of phase READY. -/
theorem inv_codegenBody {s : State} (h : Inv s) (hp : s.phase = .merge) (h1 : s.heapn = 1) :
    ∃ t, codegenBody s = .ok t ∧ Inv t ∧ t.phase = .ready := by
  obtain ⟨r, hr⟩ := heap_singleton h1
  obtain ⟨code, he, hready⟩ := codegenBody_spec (h.merge hp) hr
  exact ⟨_, he, ⟨h.total, hready⟩, rfl⟩

/-- The loop of BUILD ends in a state of phase MERGE with one node in the heap (R117, R119). -/
theorem inv_mergeAll : ∀ (turns : Nat) {s : State}, Inv s → s.phase = .merge → s.heapn ≤ turns →
    ∃ t, mergeAll turns s = .ok t ∧ Inv t ∧ t.phase = .merge ∧ t.heapn = 1
  | 0, s, h, hp, ht => by have := (h.merge hp).built.nonempty; omega
  | turns + 1, s, h, hp, ht => by
    have hpos := (h.merge hp).built.nonempty
    unfold mergeAll
    by_cases h2 : s.heapn > 1
    · obtain ⟨t, a, b, he, hi, hph, hf⟩ := inv_mergeBody h hp h2
      have := hf.heapn
      obtain ⟨u, hu, r⟩ := inv_mergeAll turns hi hph (by omega)
      exact ⟨u, by rw [if_pos h2, he]; exact hu, r⟩
    · exact ⟨s, by rw [if_neg h2], h, hp, by omega⟩

/-- BUILD on a non-empty training text answers a state of phase READY. -/
theorem inv_buildBody {s : State} (h : Inv s) (hp : s.phase = .count) (ht : s.total ≠ 0) :
    ∃ t, buildBody s = .ok t ∧ Inv t ∧ t.phase = .ready := by
  obtain ⟨s1, h1, i1, p1⟩ := inv_leavesBody h hp ht
  obtain ⟨s2, h2, i2, p2, n2⟩ := inv_mergeAll s1.heapn i1 p1 (Nat.le_refl _)
  obtain ⟨s3, h3, i3, p3⟩ := inv_codegenBody i2 p2 n2
  exact ⟨s3, by simp [buildBody, h1, h2, h3], i3, p3⟩

/-! ### The decoder -/

/-- DBIT on an accumulator that does not match and is not full leaves it one digit longer. -/
theorem acclen_append {s : State} (b : Digit) (h : s.acclen ≠ 255) (hle : s.acclen ≤ 255) :
    (appendDigit b s).length ≤ 255 := by
  simp only [appendDigit, State.acclen, List.length_append, List.length_singleton] at *; omega

end Sys2Proof.Machine
end

