-- ==== Sys2Proof/Laws/Exec.lean ====
section
/-! SUPPORT. Everything a command can do, from any state: it raises an error, or it completes with DONE (spec
30_encoding.md R88, 60_exceptions.md R180, R181); and what the bodies of the construction commands leave alone. -/

namespace Sys2Proof.Machine

/-! ### Frames of the bodies -/

theorem createNode_frame {n : Node} {s t : State} (h : createNode n s = .ok t) :
    t = { s with nodes := s.nodes ++ [n], heap := t.heap } := by
  unfold createNode pushNode at h
  split at h
  · simp at h
  · rename_i hpush
    split at hpush
    · simp only [Except.ok.injEq, Prod.mk.injEq] at hpush
      obtain ⟨-, rfl⟩ := hpush
      split at h
      · simp at h
      · simp only [Except.ok.injEq] at h; rw [← h]
    · simp at hpush

theorem insertLeaves_frame : ∀ (cs : List Symbol) {s t : State}, insertLeaves cs s = .ok t →
    t = { s with nodes := t.nodes, heap := t.heap }
  | [], s, t, h => by simp only [insertLeaves, Except.ok.injEq] at h; rw [h]
  | c :: cs, s, t, h => by
    unfold insertLeaves at h
    split at h
    · exact insertLeaves_frame cs h
    · split at h
      · simp at h
      · rename_i s' hs'
        have h1 := createNode_frame hs'
        have h2 := insertLeaves_frame cs h
        rw [h1] at h2; exact h2

theorem leavesBody_frame {s t : State} (h : leavesBody s = .ok t) :
    t = { s with nodes := t.nodes, heap := t.heap, nleaf := t.nleaf, phase := .merge } := by
  unfold leavesBody at h
  split at h
  · simp at h
  · rename_i s' hs'
    have h1 := insertLeaves_frame _ hs'
    simp only [Except.ok.injEq] at h
    rw [← h, h1]

theorem mergeBody_frame {s t : State} (h : mergeBody s = .ok t) :
    t = { s with nodes := t.nodes, heap := t.heap } := by
  unfold mergeBody at h
  split at h
  · simp at h
  · split at h
    · simp at h
    · split at h
      · have := createNode_frame h
        rw [this]
      · simp at h
      · simp at h

theorem mergeAll_frame : ∀ (turns : Nat) {s t : State}, mergeAll turns s = .ok t →
    t = { s with nodes := t.nodes, heap := t.heap }
  | 0, s, t, h => by simp only [mergeAll, Except.ok.injEq] at h; rw [h]
  | turns + 1, s, t, h => by
    unfold mergeAll at h
    split at h
    · split at h
      · simp at h
      · rename_i s' hs'
        have h1 := mergeBody_frame hs'
        have h2 := mergeAll_frame turns h
        rw [h1] at h2; exact h2
    · simp only [Except.ok.injEq] at h; rw [h]

theorem codegenBody_frame {s t : State} (h : codegenBody s = .ok t) :
    t = { s with root := t.root, code := t.code, acc := [], accovf := false, phase := .ready } := by
  unfold codegenBody at h
  split at h
  · simp at h
  · split at h
    · simp at h
    · split at h
      · simp at h
      · simp only [Except.ok.injEq] at h; rw [← h]

theorem buildBody_frame {s t : State} (h : buildBody s = .ok t) :
    t = { s with nodes := t.nodes, heap := t.heap, nleaf := t.nleaf, root := t.root, code := t.code, acc := [],
                 accovf := false, phase := .ready } := by
  unfold buildBody at h
  split at h
  · simp at h
  · rename_i s1 h1
    split at h
    · simp at h
    · rename_i s2 h2
      have f1 := leavesBody_frame h1
      have f2 := mergeAll_frame _ h2
      have f3 := codegenBody_frame h
      rw [f1] at f2
      rw [f2] at f3
      rw [f3]

/-! ### The two ways a command ends -/

/-- A response that is not a terminator. -/
def Response.isData : Response → Bool
  | .done | .err _ _ => false
  | .bit _ | .symb _ | .data _ => true

/-- The command ended in ERR: the state is the state before but for what R181 lists. -/
def EndsInErr (s t : State) : Prop :=
  ∃ e, (e ≠ .malformedBitstream ∧ t = raiseState e s) ∨
    (e = .malformedBitstream ∧ t = raiseState e { s with acc := [], accovf := false })

/-- The command ended in DONE: data responses, then DONE, on a body state with the ports as they were. -/
def EndsInDone (s t : State) : Prop :=
  ∃ rs u, t = emitAll (rs ++ [.done]) u ∧ (∀ r ∈ rs, r.isData = true) ∧ u.resp = s.resp ∧ u.port = s.port

theorem endsInErr_raise {s : State} {e : ErrKind} (h : e ≠ .malformedBitstream) : EndsInErr s (raiseState e s) :=
  ⟨e, .inl ⟨h, rfl⟩⟩

theorem bitResponses_isData (p : Bits) : ∀ r ∈ bitResponses p, r.isData = true := by
  intro r hr
  obtain ⟨b, -, rfl⟩ := List.mem_map.mp hr
  rfl

/-- What a completed command's body state keeps of the error registers. -/
def KeepsErrors (i : Instr) (s t : State) : Prop :=
  (i = .reset ∧ t.lasterr = 0 ∧ t.errsym = 0) ∨ (i ≠ .reset ∧ t.lasterr = s.lasterr ∧ t.errsym = s.errsym)

/-- The part of the state that a command leaves alone in phase READY: everything but ACC, ACCOVF, the error registers
and the response stream (R52). -/
def SameTables (s t : State) : Prop :=
  t = { s with acc := t.acc, accovf := t.accovf, lasterr := t.lasterr, errsym := t.errsym, resp := t.resp }

/-- Everything a command can do: it ends in ERR, or it ends in DONE. Only RESET clears the error registers, and only
RESET and the four construction commands, each in its phase, change more than the accumulator and the ports, but for SYM,
which in phase COUNT changes FREQ and TOTAL. -/
theorem exec_cases {i : Instr} {s t : State} (h : exec i s = .next t) :
    EndsInErr s t ∨ (EndsInDone s t ∧ KeepsErrors i s t ∧
      ((i = .reset ∧ t = emitAll [.done] (resetBlock s)) ∨
       ((∃ c, i = .sym c) ∧ s.phase = .count ∧ t.phase = .count) ∨
       (i = .leaves ∧ s.phase = .count ∧ t.phase = .merge) ∨ (i = .merge ∧ s.phase = .merge ∧ t.phase = .merge) ∨
       (i = .codegen ∧ s.phase = .merge ∧ t.phase = .ready) ∨ (i = .build ∧ s.phase = .count ∧ t.phase = .ready) ∨
       SameTables s t)) := by
  cases i with
  | reset =>
    simp only [exec, execReset, complete, Host.Outcome.next.injEq] at h
    subst h
    exact .inr ⟨⟨[], _, rfl, by simp, rfl, rfl⟩, .inl ⟨rfl, rfl, rfl⟩, .inl ⟨rfl, rfl⟩⟩
  | sym c =>
    simp only [exec, execSym] at h
    split at h
    · simp only [raise, Host.Outcome.next.injEq] at h; subst h; exact .inl (endsInErr_raise (by simp))
    · rename_i hp
      simp only [ne_eq, not_not] at hp
      split at h
      · simp only [raise, Host.Outcome.next.injEq] at h; subst h; exact .inl (endsInErr_raise (by simp))
      · simp only [complete, Host.Outcome.next.injEq] at h; subst h
        exact .inr ⟨⟨[], _, rfl, by simp, rfl, rfl⟩, .inr ⟨by simp, rfl, rfl⟩, .inr (.inl ⟨⟨c, rfl⟩, hp, hp⟩)⟩
  | leaves =>
    simp only [exec, execLeaves] at h
    split at h
    · simp only [raise, Host.Outcome.next.injEq] at h; subst h; exact .inl (endsInErr_raise (by simp))
    · rename_i hp
      simp only [ne_eq, not_not] at hp
      split at h
      · simp only [raise, Host.Outcome.next.injEq] at h; subst h; exact .inl (endsInErr_raise (by simp))
      · obtain ⟨u, hu, rfl⟩ := completeBody_eq_next h
        have f := leavesBody_frame hu
        refine .inr ⟨⟨[], u, rfl, by simp, by rw [f], by rw [f]⟩, .inr ⟨by simp, ?_, ?_⟩, .inr (.inr (.inl ⟨rfl, hp, ?_⟩))⟩
        all_goals simp only [emitAll]; rw [f]
  | merge =>
    simp only [exec, execMerge] at h
    split at h
    · simp only [raise, Host.Outcome.next.injEq] at h; subst h; exact .inl (endsInErr_raise (by simp))
    · rename_i hp
      simp only [ne_eq, not_or, not_not] at hp
      obtain ⟨u, hu, rfl⟩ := completeBody_eq_next h
      have f := mergeBody_frame hu
      refine .inr ⟨⟨[], u, rfl, by simp, by rw [f], by rw [f]⟩, .inr ⟨by simp, ?_, ?_⟩,
        .inr (.inr (.inr (.inl ⟨rfl, hp.1, ?_⟩)))⟩
      · simp only [emitAll]; rw [f]
      · simp only [emitAll]; rw [f]
      · simp only [emitAll]; rw [f]; exact hp.1
  | codegen =>
    simp only [exec, execCodegen] at h
    split at h
    · simp only [raise, Host.Outcome.next.injEq] at h; subst h; exact .inl (endsInErr_raise (by simp))
    · rename_i hp
      simp only [ne_eq, not_or, not_not] at hp
      obtain ⟨u, hu, rfl⟩ := completeBody_eq_next h
      have f := codegenBody_frame hu
      refine .inr ⟨⟨[], u, rfl, by simp, by rw [f], by rw [f]⟩, .inr ⟨by simp, ?_, ?_⟩,
        .inr (.inr (.inr (.inr (.inl ⟨rfl, hp.1, ?_⟩))))⟩
      all_goals simp only [emitAll]; rw [f]
  | build =>
    simp only [exec, execBuild] at h
    split at h
    · simp only [raise, Host.Outcome.next.injEq] at h; subst h; exact .inl (endsInErr_raise (by simp))
    · rename_i hp
      simp only [ne_eq, not_not] at hp
      split at h
      · simp only [raise, Host.Outcome.next.injEq] at h; subst h; exact .inl (endsInErr_raise (by simp))
      · obtain ⟨u, hu, rfl⟩ := completeBody_eq_next h
        have f := buildBody_frame hu
        refine .inr ⟨⟨[], u, rfl, by simp, by rw [f], by rw [f]⟩, .inr ⟨by simp, ?_, ?_⟩,
          .inr (.inr (.inr (.inr (.inr (.inl ⟨rfl, hp, ?_⟩)))))⟩
        all_goals simp only [emitAll]; rw [f]
  | enc c =>
    simp only [exec, execEnc] at h
    split at h
    · simp only [raise, Host.Outcome.next.injEq] at h; subst h; exact .inl (endsInErr_raise (by simp))
    · split at h
      · simp only [raise, Host.Outcome.next.injEq] at h; subst h; exact .inl (endsInErr_raise (by simp))
      · simp only [complete, Host.Outcome.next.injEq] at h; subst h
        exact .inr ⟨⟨_, s, rfl, bitResponses_isData _, rfl, rfl⟩, .inr ⟨by simp, rfl, rfl⟩, by simp [SameTables, emitAll]⟩
  | dbit b =>
    simp only [exec, execDbit] at h
    split at h
    · simp only [raise, Host.Outcome.next.injEq] at h; subst h; exact .inl (endsInErr_raise (by simp))
    · split at h
      · simp only [complete, Host.Outcome.next.injEq] at h; subst h
        exact .inr ⟨⟨[], _, rfl, by simp, rfl, rfl⟩, .inr ⟨by simp, rfl, rfl⟩, by simp [SameTables, emitAll]⟩
      · split at h
        · simp only [complete, Host.Outcome.next.injEq] at h; subst h
          exact .inr ⟨⟨[_], _, rfl, by simp [Response.isData], rfl, rfl⟩, .inr ⟨by simp, rfl, rfl⟩,
            by simp [SameTables, emitAll]⟩
        · simp only [complete, Host.Outcome.next.injEq] at h; subst h
          exact .inr ⟨⟨[], _, rfl, by simp, rfl, rfl⟩, .inr ⟨by simp, rfl, rfl⟩, by simp [SameTables, emitAll]⟩
  | dend =>
    simp only [exec, execDend] at h
    split at h
    · simp only [raise, Host.Outcome.next.injEq] at h; subst h; exact .inl (endsInErr_raise (by simp))
    · split at h
      · simp only [raise, Host.Outcome.next.injEq] at h; subst h; exact .inl ⟨_, .inr ⟨rfl, rfl⟩⟩
      · simp only [complete, Host.Outcome.next.injEq] at h; subst h
        exact .inr ⟨⟨[], _, rfl, by simp, rfl, rfl⟩, .inr ⟨by simp, rfl, rfl⟩, by simp [SameTables, emitAll]⟩
  | rdreg r =>
    simp only [exec, execRdreg] at h
    split at h
    · simp only [raise, Host.Outcome.next.injEq] at h; subst h; exact .inl (endsInErr_raise (by simp))
    · simp only [complete, Host.Outcome.next.injEq] at h; subst h
      exact .inr ⟨⟨[_], s, rfl, by simp [Response.isData], rfl, rfl⟩, .inr ⟨by simp, rfl, rfl⟩,
        by simp [SameTables, emitAll]⟩
  | rdfreq c =>
    simp only [exec, execRdfreq, complete, Host.Outcome.next.injEq] at h; subst h
    exact .inr ⟨⟨[_], s, rfl, by simp [Response.isData], rfl, rfl⟩, .inr ⟨by simp, rfl, rfl⟩,
      by simp [SameTables, emitAll]⟩
  | rdnode n =>
    simp only [exec, execRdnode] at h
    split at h
    · simp only [raise, Host.Outcome.next.injEq] at h; subst h; exact .inl (endsInErr_raise (by simp))
    · simp only [complete, Host.Outcome.next.injEq] at h; subst h
      refine .inr ⟨⟨_, s, rfl, ?_, rfl, rfl⟩, .inr ⟨by simp, rfl, rfl⟩, by simp [SameTables, emitAll]⟩
      rename_i x _
      cases x <;> simp [nodeResponses, Response.isData]
  | rdheap j =>
    simp only [exec, execRdheap] at h
    split at h
    · simp only [raise, Host.Outcome.next.injEq] at h; subst h; exact .inl (endsInErr_raise (by simp))
    · simp only [complete, Host.Outcome.next.injEq] at h; subst h
      exact .inr ⟨⟨[_], s, rfl, by simp [Response.isData], rfl, rfl⟩, .inr ⟨by simp, rfl, rfl⟩,
        by simp [SameTables, emitAll]⟩
  | rdcode c =>
    simp only [exec, execRdcode] at h
    split at h
    · simp only [raise, Host.Outcome.next.injEq] at h; subst h; exact .inl (endsInErr_raise (by simp))
    · split at h
      · simp only [complete, Host.Outcome.next.injEq] at h; subst h
        refine .inr ⟨⟨_ :: _, s, rfl, ?_, rfl, rfl⟩, .inr ⟨by simp, rfl, rfl⟩, by simp [SameTables, emitAll]⟩
        intro r hr
        rcases List.mem_cons.mp hr with rfl | hr
        · rfl
        · exact bitResponses_isData _ r hr
      · simp only [complete, Host.Outcome.next.injEq] at h; subst h
        exact .inr ⟨⟨[_], s, rfl, by simp [Response.isData], rfl, rfl⟩, .inr ⟨by simp, rfl, rfl⟩,
          by simp [SameTables, emitAll]⟩

end Sys2Proof.Machine
end

