-- ==== Sys2Proof/Laws/Optimal.lean ====
section
/-! SUPPORT. Why greedy merging is optimal (spec 41_tree_builder.md R122): the cost of any prefix-free code is at least
the sum of the weights that greedy merging makes, and the tree the block builds has exactly that cost. -/

namespace Sys2Proof.Machine

/-! ### Codes as lists of weights and Bitstrings -/

/-- The sum of weight times length. -/
def costOf (l : List (Nat × Bits)) : Nat := (l.map (fun x => x.1 * x.2.length)).sum

/-- Neither Bitstring is a prefix of the other. -/
def Apart (p q : Bits) : Prop := ¬ p <+: q ∧ ¬ q <+: p

theorem Apart.symm {p q : Bits} (h : Apart p q) : Apart q p := ⟨h.2, h.1⟩

/-- The Bitstrings are pairwise apart. -/
def AllApart (l : List (Nat × Bits)) : Prop := (l.map Prod.snd).Pairwise Apart

theorem AllApart.perm {l l' : List (Nat × Bits)} (h : AllApart l) (p : (l.map Prod.snd).Perm (l'.map Prod.snd)) :
    AllApart l' := (p.pairwise_iff fun h => h.symm).mp h

theorem costOf_perm {l l' : List (Nat × Bits)} (p : l.Perm l') : costOf l = costOf l' := (p.map _).sum_eq

@[simp] theorem costOf_cons (x : Nat × Bits) (l : List (Nat × Bits)) :
    costOf (x :: l) = x.1 * x.2.length + costOf l := rfl

/-- The sum of the weights that merging the two least weights, again and again, makes. -/
inductive GreedyCost : List Nat → Nat → Prop where
  | one (w : Nat) : GreedyCost [w] 0
  | merge {l rest : List Nat} {a b n : Nat} (p : l.Perm (a :: b :: rest)) (ha : ∀ x ∈ b :: rest, a ≤ x)
      (hb : ∀ x ∈ rest, b ≤ x) (h : GreedyCost ((a + b) :: rest) n) : GreedyCost l (a + b + n)

/-- The order of the weights does not matter. -/
theorem GreedyCost.perm {ws ws' : List Nat} {n : Nat} (h : GreedyCost ws n) (p : ws.Perm ws') : GreedyCost ws' n := by
  cases h with
  | one w => obtain rfl := List.singleton_perm.mp p; exact .one w
  | merge q ha hb h => exact .merge (p.symm.trans q) ha hb h

/-- The first code may be given to the least weight without raising the cost, if no code is longer. -/
theorem bringLeast {x a : Nat} {p : Bits} {l : List (Nat × Bits)} (ha : a ∈ ((x, p) :: l).map Prod.fst)
    (hle : a ≤ x) (hp : ∀ y ∈ l, y.2.length ≤ p.length) :
    ∃ l', (((a, p) :: l').map Prod.fst).Perm (((x, p) :: l).map Prod.fst) ∧
      (l'.map Prod.snd).Perm (l.map Prod.snd) ∧ costOf ((a, p) :: l') ≤ costOf ((x, p) :: l) := by
  by_cases hax : a = x
  · subst hax; exact ⟨l, List.Perm.refl _, List.Perm.refl _, Nat.le_refl _⟩
  · simp only [List.map_cons, List.mem_cons, hax, false_or] at ha
    obtain ⟨⟨a', r⟩, hm, rfl⟩ := List.mem_map.mp ha
    have hpr := List.perm_cons_erase hm
    have hr := hp _ hm
    simp only at hr hax hle
    refine ⟨(x, r) :: l.erase (a', r), ?_, (hpr.map Prod.snd).symm, ?_⟩
    · have := hpr.map Prod.fst
      simp only [List.map_cons] at this ⊢
      exact (List.Perm.swap _ _ _).trans (this.symm.cons x)
    · rw [costOf_cons (x, p) l, costOf_perm hpr]
      simp only [costOf_cons]
      obtain ⟨d, rfl⟩ := Nat.exists_eq_add_of_le hle
      obtain ⟨e, he⟩ := Nat.exists_eq_add_of_le hr
      rw [he]
      nlinarith [Nat.zero_le (d * e)]

theorem perm_cons_of_mem_map {β : Type} [DecidableEq β] {l : List (Nat × β)} {w : β} (h : w ∈ l.map Prod.snd) :
    ∃ x l', l.Perm ((x, w) :: l') := by
  obtain ⟨⟨x, w'⟩, hm, rfl⟩ := List.mem_map.mp h
  exact ⟨x, _, List.perm_cons_erase hm⟩

theorem exists_longest : ∀ (l : List (Nat × Bits)), l ≠ [] →
    ∃ x p l', l.Perm ((x, p) :: l') ∧ ∀ y ∈ l', y.2.length ≤ p.length
  | [], h => absurd rfl h
  | [(x, p)], _ => ⟨x, p, [], List.Perm.refl _, by simp⟩
  | (x, p) :: y :: l, _ => by
    obtain ⟨z, q, l', hp, hq⟩ := exists_longest (y :: l) (by simp)
    by_cases h : q.length ≤ p.length
    · refine ⟨x, p, y :: l, List.Perm.refl _, fun u hu => ?_⟩
      rcases List.mem_cons.mp (hp.mem_iff.mp hu) with rfl | hu
      · exact h
      · exact (hq u hu).trans h
    · refine ⟨z, q, (x, p) :: l', (hp.cons _).trans (List.Perm.swap _ _ _), fun u hu => ?_⟩
      rcases List.mem_cons.mp hu with rfl | hu
      · simp only; omega
      · exact hq u hu

theorem digit_ne (e b : Digit) : b = e ∨ b = ~~~e := by revert e b; decide

/-- A Bitstring apart from `q ++ [e]` that has `q` as a prefix has `q` with the other digit as a prefix. -/
theorem other_digit {q r : Bits} {e : Digit} (h : Apart (q ++ [e]) r) (hq : q <+: r) : (q ++ [~~~e]) <+: r := by
  obtain ⟨u, rfl⟩ := hq
  cases u with
  | nil => exact absurd (by simp) h.2
  | cons b u =>
    rcases digit_ne e b with rfl | rfl
    · exact absurd (by simp) h.1
    · simp

/-- Without raising the cost, two of the longest codes may be taken to differ in their last digit only. -/
theorem siblings : ∀ (n : Nat) (l : List (Nat × Bits)), (l.map (fun x => x.2.length)).sum ≤ n → AllApart l →
    2 ≤ l.length →
    ∃ x y q e l', (l.map Prod.fst).Perm (((x, q ++ [e]) :: (y, q ++ [~~~e]) :: l').map Prod.fst) ∧
      AllApart ((x, q ++ [e]) :: (y, q ++ [~~~e]) :: l') ∧ (∀ z ∈ l', z.2.length ≤ q.length + 1) ∧
      costOf ((x, q ++ [e]) :: (y, q ++ [~~~e]) :: l') ≤ costOf l := by
  intro n
  induction n with
  | zero =>
    intro l hn ha h2
    exfalso
    match l, h2 with
    | x :: y :: l, _ =>
      simp only [List.map_cons, List.sum_cons, Nat.le_zero, Nat.add_eq_zero_iff, List.length_eq_zero_iff] at hn
      simp only [AllApart, List.map_cons, List.pairwise_cons, List.mem_cons, forall_eq_or_imp] at ha
      exact ha.1.1.1 (by rw [hn.1]; exact List.nil_prefix)
  | succ n ih =>
    intro l hn ha h2
    obtain ⟨x, p, l', hp, hmax⟩ := exists_longest l (by rintro rfl; simp at h2)
    have ha' : AllApart ((x, p) :: l') := ha.perm (hp.map Prod.snd)
    have hlen : l'.length + 1 = l.length := by simpa using hp.length_eq.symm
    have hapart : ∀ r ∈ l'.map Prod.snd, Apart p r := (List.pairwise_cons.mp ha').1
    have hl' : (l'.map Prod.snd).Pairwise Apart := (List.pairwise_cons.mp ha').2
    rcases List.eq_nil_or_concat p with rfl | ⟨q, e, rfl⟩
    · exfalso
      obtain ⟨y, hy⟩ : ∃ y, y ∈ l' := List.exists_mem_of_length_pos (by omega)
      exact (hapart _ (List.mem_map.mpr ⟨y, hy, rfl⟩)).1 List.nil_prefix
    · rw [List.concat_eq_append] at *
      by_cases hs : ∃ r ∈ l'.map Prod.snd, (q ++ [~~~e]) <+: r
      · obtain ⟨r, hr, hqr⟩ := hs
        obtain ⟨y, l2, hl2⟩ := perm_cons_of_mem_map hr
        have hrl : r.length ≤ (q ++ [e]).length := by
          obtain ⟨z, hz, rfl⟩ := List.mem_map.mp hr
          exact hmax z hz
        obtain rfl : q ++ [~~~e] = r := hqr.eq_of_length_le (by simpa using hrl)
        have hperm := hp.trans (hl2.cons _)
        refine ⟨x, y, q, e, l2, hperm.map Prod.fst, ha.perm (hperm.map Prod.snd), fun z hz => ?_,
          (costOf_perm hperm).ge⟩
        have := hmax z (hl2.mem_iff.mpr (List.mem_cons_of_mem _ hz))
        simpa using this
      · have hq : ∀ r ∈ l'.map Prod.snd, Apart q r := fun r hr =>
          ⟨fun h => hs ⟨r, hr, other_digit (hapart r hr) h⟩,
            fun h => (hapart r hr).2 (h.trans (List.prefix_append _ _))⟩
        have hsum : ((x, q ++ [e]) :: l').map (fun x => x.2.length) =
            (q.length + 1) :: l'.map (fun x => x.2.length) := by simp
        have hsl := (hp.map (fun x => x.2.length)).sum_eq
        rw [hsum, List.sum_cons] at hsl
        obtain ⟨x', y', q', e', l3, h1, h2, h3, h4⟩ := ih ((x, q) :: l')
          (by simp only [List.map_cons, List.sum_cons]; omega) (List.pairwise_cons.mpr ⟨hq, hl'⟩)
          (by simp only [List.length_cons]; omega)
        refine ⟨x', y', q', e', l3, ?_, h2, h3, h4.trans ?_⟩
        · have := hp.map Prod.fst
          simp only [List.map_cons] at this h1 ⊢
          exact this.trans h1
        · rw [costOf_perm hp]
          simp only [costOf_cons, List.length_append, List.length_singleton]
          exact Nat.add_le_add_right (Nat.mul_le_mul_left _ (by omega)) _

/-- The cost of any prefix-free code is at least that of greedy merging (R122). -/
theorem GreedyCost.le {ws : List Nat} {n : Nat} (h : GreedyCost ws n) : ∀ l : List (Nat × Bits),
    (l.map Prod.fst).Perm ws → AllApart l → n ≤ costOf l := by
  induction h with
  | one w => intros; exact Nat.zero_le _
  | @merge ws rest a b n p ha hb _ ih =>
    intro l hl hapart
    have hlw := hl.trans p
    have h2 : 2 ≤ l.length := by have := hlw.length_eq; simp only [List.length_map, List.length_cons] at this; omega
    obtain ⟨x, y, q, e, l', hw, hap, hmax, hcost⟩ := siblings _ l (Nat.le_refl _) hapart h2
    have hw' := hw.symm.trans hlw
    -- the least weight takes the first of the two codes
    have hax : a ∈ ((x, q ++ [e]) :: (y, q ++ [~~~e]) :: l').map Prod.fst := hw'.mem_iff.mpr (by simp)
    have hleast : ∀ z ∈ ((x, q ++ [e]) :: (y, q ++ [~~~e]) :: l').map Prod.fst, a ≤ z := by
      intro z hz
      rcases List.mem_cons.mp (hw'.mem_iff.mp hz) with rfl | hz
      · exact Nat.le_refl _
      · exact ha z hz
    obtain ⟨l1, hf1, hs1, hc1⟩ := bringLeast hax (hleast x (by simp)) (p := q ++ [e]) (by
      intro z hz
      rcases List.mem_cons.mp hz with rfl | hz
      · simp
      · simpa using hmax z hz)
    have hf1' : (l1.map Prod.fst).Perm (b :: rest) := by
      have := hf1.trans hw'
      simpa using this
    -- the next takes the second
    obtain ⟨y1, l2, hl2⟩ := perm_cons_of_mem_map (l := l1) (w := q ++ [~~~e]) (hs1.mem_iff.mpr (by simp))
    have hs2 : (l2.map Prod.snd).Perm (l'.map Prod.snd) := by
      have := (hl2.map Prod.snd).symm.trans hs1
      simpa using this
    have hf2 : (((y1, q ++ [~~~e]) :: l2).map Prod.fst).Perm (b :: rest) := (hl2.map Prod.fst).symm.trans hf1'
    have hb2 : b ∈ ((y1, q ++ [~~~e]) :: l2).map Prod.fst := hf2.mem_iff.mpr (by simp)
    have hby : b ≤ y1 := by
      have : y1 ∈ b :: rest := hf2.mem_iff.mp (by simp)
      rcases List.mem_cons.mp this with rfl | h
      · exact Nat.le_refl _
      · exact hb _ h
    obtain ⟨l3, hf3, hs3, hc3⟩ := bringLeast hb2 hby (p := q ++ [~~~e]) (by
      intro z hz
      have : z.2 ∈ l'.map Prod.snd := hs2.mem_iff.mp (List.mem_map.mpr ⟨z, hz, rfl⟩)
      obtain ⟨u, hu, he⟩ := List.mem_map.mp this
      rw [← he]; simpa using hmax u hu)
    have hf3' : (l3.map Prod.fst).Perm rest := by
      have := hf3.trans hf2
      simpa using this
    -- the two become one
    have hs : (l3.map Prod.snd).Perm (l'.map Prod.snd) := hs3.trans hs2
    simp only [AllApart, List.map_cons, List.pairwise_cons, List.mem_cons, forall_eq_or_imp] at hap
    obtain ⟨⟨-, h1⟩, h2', h3⟩ := hap
    have hm := ih ((a + b, q) :: l3) (by simpa using hf3'.cons (a + b)) (by
      simp only [AllApart, List.map_cons, List.pairwise_cons]
      refine ⟨fun r hr => ?_, (hs.pairwise_iff fun h => h.symm).mpr h3⟩
      have hr' := hs.mem_iff.mp hr
      refine ⟨fun h => ?_, fun h => (h1 r hr').2 (h.trans (List.prefix_append _ _))⟩
      exact (h2' r hr').1 (other_digit (h1 r hr') h))
    have e1 := costOf_perm hl2
    simp only [costOf_cons, List.length_append, List.length_singleton] at hm hc1 hc3 hcost e1
    rw [e1] at hc1
    nlinarith

/-! ### The cost of a tree -/

/-- The sum of the frequencies of a tree's symbols. -/
def Tree.weight (f : Vector Freq 256) : Tree → Nat
  | .leaf _ c => (tableGet f c).toNat
  | .node _ l r => l.weight f + r.weight f

/-- The sum of the weights of a tree's internal nodes. -/
def Tree.mergeCost (f : Vector Freq 256) : Tree → Nat
  | .leaf _ _ => 0
  | .node _ l r => l.weight f + r.weight f + l.mergeCost f + r.mergeCost f

/-- The weights and codes of a list of records. -/
def weighted (f : Vector Freq 256) (records : List (Symbol × Bits)) : List (Nat × Bits) :=
  records.map (fun x => ((tableGet f x.1).toNat, x.2))

theorem costOf_append (l l' : List (Nat × Bits)) : costOf (l ++ l') = costOf l + costOf l' := by
  simp [costOf, List.map_append, List.sum_append]

/-- The weighted length of a tree's paths is the sum of the weights of its internal nodes. -/
theorem Tree.cost_paths (f : Vector Freq 256) : ∀ (t : Tree) (p : Bits),
    costOf (weighted f (t.paths p)) = t.mergeCost f + t.weight f * p.length
  | .leaf _ c, p => by simp [Tree.paths, weighted, costOf, Tree.mergeCost, Tree.weight]
  | .node _ l r, p => by
    have hl := l.cost_paths f (p ++ [0])
    have hr := r.cost_paths f (p ++ [1])
    simp only [weighted] at hl hr
    simp only [Tree.paths, weighted, List.map_append, costOf_append, hl, hr, Tree.mergeCost, Tree.weight,
      List.length_append, List.length_singleton]
    ring

/-- A leaf of a built store holds its symbol's frequency. -/
theorem Built.leafFreq {s : State} (hb : Built s) {n : NodeIdx} {c : Symbol} {f : Freq}
    (h : nodeAt s.nodes n = some (.leaf c f)) : tableGet s.freq c = f := by
  have hlt := lt_of_nodeAt h
  rw [nodeAt_of_lt hlt, Option.some.injEq] at h
  have hmem : s.nodes[n.toNat] ∈ s.nodes.take s.nleaf.toNat ∨ s.nodes[n.toNat] ∈ s.nodes.drop s.nleaf.toNat := by
    rw [← List.mem_append, List.take_append_drop]; exact List.getElem_mem hlt
  rw [h] at hmem
  rcases hmem with hm | hm
  · rw [hb.leaves, leafNodes] at hm
    obtain ⟨d, -, he⟩ := List.mem_map.mp hm
    simp only [Node.leaf.injEq] at he
    rw [← he.1]; exact he.2
  · have := List.all_eq_true.mp hb.internals _ hm
    simp at this

/-- The frequency of a node is the sum of the frequencies of the symbols below it (R26). -/
theorem Built.weight_tree {s : State} (hb : Built s) : ∀ {d : Nat} {n : NodeIdx} {t : Tree},
    treeAt s.nodes d n = some t → weightOf s.nodes n = t.weight s.freq
  | 0, _, _, h => by simp [treeAt] at h
  | d + 1, n, t, h => by
    unfold treeAt at h
    cases hn : nodeAt s.nodes n with
    | none => simp [hn] at h
    | some x =>
      rw [hn] at h
      cases x with
      | leaf c f =>
        simp only [Option.some.injEq] at h; subst h
        rw [weightOf_eq hn, Tree.weight, hb.leafFreq hn]; rfl
      | internal f l r =>
        simp only at h
        have ok := hb.children n.toNat (lt_of_nodeAt hn)
        rw [weightOf_eq hn]
        rw [nodeAt] at hn
        simp only [nodeOk, hn, Bool.and_eq_true, decide_eq_true_eq] at ok
        split at h
        · rename_i a b ha hb'
          simp only [Option.some.injEq] at h
          subst h
          rw [Tree.weight, ← hb.weight_tree ha, ← hb.weight_tree hb']
          exact ok.2
        · simp at h

/-! ### The loop of BUILD is greedy merging -/

/-- The heap before and after the body of MERGE (R116). -/
theorem MergeEffect.heaps {s t : State} {a b : NodeIdx} (hb : Built s) (e : MergeEffect s t a b) :
    ∃ heap2, s.heap.Perm (a :: b :: heap2) ∧ t.heap.Perm (BitVec.ofNat 9 s.nnode :: heap2) ∧
      leastKey s.nodes (b :: heap2) b := by
  obtain ⟨heap1, heap2, h1, h2, h3⟩ := e.first
  have hnext := e.next heap1 h1
  have hv := hb.valid
  cases hh : s.heap with
  | nil => rw [hh] at h1; simp [heapExtractMin] at h1
  | cons a' rest =>
    rw [hh] at hv h1
    obtain ⟨g1, e1, p1, -⟩ := heapExtractMin_spec hv
    rw [h1] at e1
    simp only [Except.ok.injEq, Prod.mk.injEq] at e1
    obtain ⟨rfl, rfl⟩ := e1
    have hv1 : validHeap s.nodes heap1 := fun n hn => hv n (List.mem_cons_of_mem _ (p1.mem_iff.mp hn))
    cases hh1 : heap1 with
    | nil => rw [hh1] at h2; simp [heapExtractMin] at h2
    | cons b' rest1 =>
      rw [hh1] at h2 hv1 p1 hnext
      obtain ⟨g2, e2, p2, -⟩ := heapExtractMin_spec hv1
      rw [h2] at e2
      simp only [Except.ok.injEq, Prod.mk.injEq] at e2
      obtain ⟨rfl, rfl⟩ := e2
      obtain ⟨f, hn⟩ := e.nodes
      have hle := hb.nleaf_le
      have hcnt := hb.counts
      have hnl := hb.nleaf_le_nnode
      have hl1 := p1.length_eq
      have hl2 := p2.length_eq
      simp only [State.nnode, State.heapn, hh, List.length_cons] at hcnt hl1
      have hlt : (BitVec.ofNat 9 s.nnode).toNat = s.nodes.length := toNat_ofNat9 (by simp only [State.nnode]; omega)
      obtain ⟨g3, e3, p3, -⟩ := heapInsert_spec (nodes := t.nodes) (n := BitVec.ofNat 9 s.nnode) (heap := heap2)
        (fun n hm => by
          have := hv1 n (List.mem_cons_of_mem _ (p2.mem_iff.mp hm)); rw [hn, List.length_append]; omega)
        (by rw [hlt, hn]; simp) (by omega)
      rw [h3] at e3
      simp only [Except.ok.injEq] at e3
      subst e3
      refine ⟨heap2, ((p1.symm.trans (p2.symm.cons b)).cons a), p3, fun n hm hne => hnext n ?_ hne⟩
      exact ((p2.cons b).mem_iff.mp hm)

/-- The tree below a node costs this much, 0 where there is no tree. -/
def costAt (s : State) (n : NodeIdx) : Nat :=
  match treeAt s.nodes s.nnode n with
  | some t => t.mergeCost s.freq
  | none => 0

theorem weight_le_of_heapLess {s : State} {m n : NodeIdx} (hm : m.toNat < s.nodes.length) (hn : n.toNat < s.nodes.length)
    (h : heapLess s.nodes m n = .ok true) : weightOf s.nodes m ≤ weightOf s.nodes n := by
  have h1 := m.isLt
  have h2 := n.isLt
  rw [heapLess_eq hm hn] at h
  have h3 := of_decide_eq_true (Except.ok.inj h)
  simp only [keyNat] at h3
  omega

/-- What one MERGE does to the costs of the trees (R116). -/
theorem MergeEffect.cost {s t : State} {a b : NodeIdx} (hb : Built s) (ht : Built t) (e : MergeEffect s t a b) :
    (∀ n ∈ s.heap, costAt t n = costAt s n ∧ weightOf t.nodes n = weightOf s.nodes n) ∧
    costAt t (BitVec.ofNat 9 s.nnode) = weightOf s.nodes a + weightOf s.nodes b + costAt s a + costAt s b := by
  obtain ⟨heap2, hp, -, -⟩ := e.heaps hb
  obtain ⟨f, hn⟩ := e.nodes
  have hfreq : t.freq = s.freq := by rw [e.frame]
  have hnn : t.nnode = s.nnode + 1 := by simp [State.nnode, hn]
  have mono : ∀ {n : NodeIdx} {u : Tree}, treeAt s.nodes s.nnode n = some u → treeAt t.nodes t.nnode n = some u := by
    intro n u h; rw [hn, hnn]; exact treeAt_mono _ h (by omega)
  refine ⟨fun n hm => ⟨?_, ?_⟩, ?_⟩
  · obtain ⟨u, hu⟩ := Option.isSome_iff_exists.mp (hb.rooted n hm)
    simp [costAt, hu, mono hu, hfreq]
  · rw [hn]; exact weightOf_append _ (hb.valid n hm)
  · obtain ⟨ua, hua⟩ := Option.isSome_iff_exists.mp (hb.rooted a (hp.mem_iff.mpr (by simp)))
    obtain ⟨ub, hub⟩ := Option.isSome_iff_exists.mp (hb.rooted b (hp.mem_iff.mpr (by simp)))
    have hnle := ht.nnode_le
    have hlen : t.nodes.length = s.nodes.length + 1 := by simp [hn]
    have hnode : nodeAt t.nodes (BitVec.ofNat 9 s.nnode) = some (.internal f a b) := by
      rw [nodeAt, toNat_ofNat9 (by simp only [State.nnode]; omega), hn]
      simp [State.nnode]
    have hnew : treeAt t.nodes t.nnode (BitVec.ofNat 9 s.nnode) = some (.node (BitVec.ofNat 9 s.nnode) ua ub) := by
      rw [hnn, treeAt, hnode]
      simp only
      rw [hn, treeAt_mono [Node.internal f a b] hua (Nat.le_refl _), treeAt_mono [Node.internal f a b] hub (Nat.le_refl _)]
    simp [costAt, hnew, hua, hub, Tree.mergeCost, hfreq, hb.weight_tree hua, hb.weight_tree hub]

/-- The loop of BUILD ends in one tree whose cost is that of the trees it began with and of greedy merging (R117,
R122). -/
theorem mergeAll_cost : ∀ (turns : Nat) {s t : State}, Built s → s.heapn ≤ turns → mergeAll turns s = .ok t →
    ∃ n r, GreedyCost (s.heap.map (weightOf s.nodes)) n ∧ t.heap = [r] ∧
      costAt t r = n + (s.heap.map (costAt s)).sum
  | 0, s, t, hb, ht, h => by have := hb.nonempty; omega
  | turns + 1, s, t, hb, hle, h => by
    have hpos := hb.nonempty
    unfold mergeAll at h
    by_cases h2 : s.heapn > 1
    · rw [if_pos h2] at h
      obtain ⟨u, a, b, he, hbu, eff⟩ := mergeBody_spec hb h2
      rw [he] at h
      have hn := eff.heapn
      obtain ⟨n, r, hg, hr, hc⟩ := mergeAll_cost turns hbu (by omega) h
      obtain ⟨heap2, hp, hp', hleast⟩ := eff.heaps hb
      obtain ⟨hold, hnew⟩ := eff.cost hb hbu
      have hv := hb.valid
      have hrest : heap2.map (weightOf u.nodes) = heap2.map (weightOf s.nodes) :=
        List.map_congr_left fun m hm => (hold m (hp.mem_iff.mpr (by simp [hm]))).2
      have hrestc : heap2.map (costAt u) = heap2.map (costAt s) :=
        List.map_congr_left fun m hm => (hold m (hp.mem_iff.mpr (by simp [hm]))).1
      have hva : a.toNat < s.nodes.length := hv a (hp.mem_iff.mpr (by simp))
      have hvb : b.toNat < s.nodes.length := hv b (hp.mem_iff.mpr (by simp))
      have hle' : ∀ m k, m.toNat < s.nodes.length → k.toNat < s.nodes.length →
          (k ≠ m → heapLess s.nodes m k = .ok true) → weightOf s.nodes m ≤ weightOf s.nodes k := by
        intro m k hm hk hless
        by_cases hkm : k = m
        · rw [hkm]
        · exact weight_le_of_heapLess hm hk (hless hkm)
      refine ⟨weightOf s.nodes a + weightOf s.nodes b + n, r, ?_, hr, ?_⟩
      · refine GreedyCost.merge (hp.map _) ?_ ?_ (rest := heap2.map (weightOf s.nodes)) ?_
        · intro x hx
          obtain ⟨k, hk, rfl⟩ : ∃ k ∈ b :: heap2, weightOf s.nodes k = x := List.mem_map.mp (by simpa using hx)
          have hks : k ∈ s.heap := hp.mem_iff.mpr (List.mem_cons_of_mem _ hk)
          exact hle' a k hva (hv k hks) (eff.least k hks)
        · intro x hx
          obtain ⟨k, hk, rfl⟩ := List.mem_map.mp hx
          have hks : k ∈ s.heap := hp.mem_iff.mpr (by simp [hk])
          exact hle' b k hvb (hv k hks) (hleast k (by simp [hk]))
        · have hw := hp'.map (weightOf u.nodes)
          rw [List.map_cons, hrest, eff.sum] at hw
          exact hg.perm hw
      · have hs1 := sum_map_perm (costAt u) hp'
        have hs2 := sum_map_perm (costAt s) hp
        simp only [List.map_cons, List.sum_cons, hrestc, hnew] at hs1 hs2
        rw [hc, hs1, hs2]; omega
    · rw [if_neg h2] at h
      simp only [Except.ok.injEq] at h
      subst h
      obtain ⟨r, hr⟩ : ∃ r, s.heap = [r] := List.length_eq_one_iff.mp (by simp only [State.heapn] at *; omega)
      exact ⟨0, r, by rw [hr]; exact .one _, hr, by simp [hr]⟩

/-- The weighted length of a ready state's codes is the cost of its records (R122). -/
theorem ReadyState.weightedLength_eq {s : State} (h : ReadyState s) {records : List (Symbol × Bits)}
    (hrec : rootCodes s.nodes s.root = .ok records) :
    weightedLength s.freq (codeOf s.code) = costOf (weighted s.freq records) := by
  obtain ⟨records', hrec', hp, -, hget⟩ := h.records
  rw [hrec] at hrec'
  simp only [Except.ok.injEq] at hrec'
  subst hrec'
  have h1 : costOf (weighted s.freq records) =
      (records.map (fun x => (tableGet s.freq x.1).toNat * (codeOf s.code x.1).length)).sum := by
    simp only [costOf, weighted, List.map_map]
    congr 1
    apply List.map_congr_left
    rintro ⟨c, p⟩ hx
    simp [codeOf, (hget c p).mpr hx]
  have h2 := sum_map_perm (fun c => (tableGet s.freq c).toNat * (codeOf s.code c).length) hp
  rw [h1, weightedLength, ← h2, List.map_map]
  rfl

/-- What LEAVES leaves: the heap's weights are the frequencies of the keys, and no tree costs anything (R115). -/
theorem leavesBody_cost {s t : State} (hi : Inv s) (hp : s.phase = .count) (ht : s.total ≠ 0)
    (h : leavesBody s = .ok t) :
    (t.heap.map (weightOf t.nodes)).Perm ((support s.freq).map (fun c => (tableGet s.freq c).toNat)) ∧
    (t.heap.map (costAt t)).sum = 0 := by
  obtain ⟨heap', he, hperm, -, -⟩ := leavesBody_spec hi hp ht
  rw [h] at he
  simp only [Except.ok.injEq] at he
  have hle := support_length_le s.freq
  have hheap : t.heap.Perm ((List.range (support s.freq).length).map (BitVec.ofNat 9)) := by
    rw [he]; exact heap_perm_of_toNat hperm
  have hnode : ∀ i (hi : i < (support s.freq).length), nodeAt t.nodes (BitVec.ofNat 9 i) =
      some (.leaf (support s.freq)[i] (tableGet s.freq (support s.freq)[i])) := by
    intro i hi
    rw [he, nodeAt, toNat_ofNat9 (by omega)]
    simp [leafNodes, hi]
  have hnn : t.nnode = (support s.freq).length := by rw [he]; simp [State.nnode, leafNodes]
  constructor
  · refine (hheap.map _).trans (List.Perm.of_eq ?_)
    rw [List.map_map]
    apply List.ext_getElem
    · simp
    · intro i h1 h2
      simp only [List.length_map, List.length_range] at h1
      simp [weightOf, hnode i h1, Node.freqOf]
  · rw [List.sum_eq_zero_iff]
    intro x hx
    obtain ⟨m, hm, rfl⟩ := List.mem_map.mp hx
    obtain ⟨i, hi, rfl⟩ := List.mem_map.mp (hheap.mem_iff.mp hm)
    have hi' := List.mem_range.mp hi
    obtain ⟨k, hk⟩ : ∃ k, (support s.freq).length = k + 1 := ⟨(support s.freq).length - 1, by omega⟩
    simp [costAt, hnn, hk, treeAt_leaf k (hnode i hi'), Tree.mergeCost]

end Sys2Proof.Machine
end

