-- ==== Sys2Proof/Laws/PerInstr.lean ====
section
/-! SUPPORT. Statements made of every instruction, one lemma per constructor. `RowAccepts`: the row of the opcode map
(spec 30_encoding.md R82) accepts the word the encoder gives, and the operand stays clear of the bits the row fixes. -/

namespace Sys2Proof.Laws.RowAccepts

/-- The word of `i` is a word of its row, and `i` is well formed. -/
def Statement (i : Instr) : Prop := (opRow i).accepts (encode i) = true ∧ i.wellFormed = true

theorem reset : Statement .reset := by unfold Statement; decide
theorem sym (c : Symbol) : Statement (.sym c) := by unfold Statement; revert c; decide +kernel
theorem leaves : Statement .leaves := by unfold Statement; decide
theorem merge : Statement .merge := by unfold Statement; decide
theorem codegen : Statement .codegen := by unfold Statement; decide
theorem build : Statement .build := by unfold Statement; decide
theorem enc (c : Symbol) : Statement (.enc c) := by unfold Statement; revert c; decide +kernel
theorem dbit (b : Digit) : Statement (.dbit b) := by unfold Statement; revert b; decide +kernel
theorem dend : Statement .dend := by unfold Statement; decide
theorem rdreg (r : RegNum) : Statement (.rdreg r) := by unfold Statement; revert r; decide +kernel
theorem rdfreq (c : Symbol) : Statement (.rdfreq c) := by unfold Statement; revert c; decide +kernel
theorem rdnode (n : NodeIdx) : Statement (.rdnode n) := by unfold Statement; revert n; decide +kernel
theorem rdheap (j : NodeIdx) : Statement (.rdheap j) := by unfold Statement; revert j; decide +kernel
theorem rdcode (c : Symbol) : Statement (.rdcode c) := by unfold Statement; revert c; decide +kernel

end Sys2Proof.Laws.RowAccepts
end

