-- ==== Sys2Proof/Laws/Responses.lean ====
section
/-! SUPPORT. The response words: their fields (spec 30_encoding.md R86, R87), which are terminators (R88), and what one
command word adds to the stream (R88, 60_exceptions.md R180, R181). -/

namespace Sys2Proof.Machine

/-! ### Fields -/

@[simp] theorem tagOf_responseWord (tag : BitVec 4) (payload : BitVec 32) : tagOf (responseWord tag payload) = tag := by
  apply BitVec.eq_of_toNat_eq
  have h1 := tag.isLt
  have h2 := payload.isLt
  simp only [tagOf, responseWord, BitVec.extractLsb'_toNat, BitVec.toNat_append, Nat.shiftRight_eq_div_pow]
  rw [← Nat.shiftLeft_add_eq_or_of_lt h2, Nat.shiftLeft_eq]
  omega

@[simp] theorem payloadOf_responseWord (tag : BitVec 4) (payload : BitVec 32) :
    payloadOf (responseWord tag payload) = payload := by
  apply BitVec.eq_of_toNat_eq
  have h1 := tag.isLt
  have h2 := payload.isLt
  simp only [payloadOf, responseWord, BitVec.extractLsb'_toNat, BitVec.toNat_append, Nat.shiftRight_zero]
  rw [← Nat.shiftLeft_add_eq_or_of_lt h2, Nat.shiftLeft_eq]
  omega

/-! ### Kinds -/

theorem isErr_err (code : BitVec 3) (info : Symbol) : isErr (encodeResponse (.err code info)) = true := by
  simp [isErr, encodeResponse]

theorem isErr_of_isData {r : Response} (h : r.isData = true) : isErr (encodeResponse r) = false := by
  cases r <;> simp [Response.isData] at h <;> simp [isErr, encodeResponse]

theorem isErr_done : isErr (encodeResponse .done) = false := by decide

theorem isTerminator_of_isErr {r : RespWord} (h : isErr r = true) : isTerminator r = true := by
  simp only [isErr] at h; simp [isTerminator, h]

theorem isTerminator_of_isData {r : Response} (h : r.isData = true) : isTerminator (encodeResponse r) = false := by
  cases r <;> simp [Response.isData] at h <;> simp [isTerminator, encodeResponse]

theorem tag_le (r : Response) : (tagOf (encodeResponse r)).toNat ≤ 4 := by
  cases r <;> simp [encodeResponse]

/-! ### What the host reads from them -/

/-- A command's responses, cut off the front of the stream (R88). -/
theorem responseGroups_append {body : List RespWord} {last : RespWord} (hl : isTerminator last = true)
    (hb : ∀ r ∈ body, isTerminator r = false) (rest : List RespWord) :
    responseGroups (body ++ [last] ++ rest) = (body ++ [last]) :: responseGroups rest := by
  have cut : ∀ (body part : List RespWord), (∀ r ∈ body, isTerminator r = false) →
      groupsFrom part (body ++ [last] ++ rest) = (part ++ body ++ [last]) :: groupsFrom [] rest := by
    intro body
    induction body with
    | nil => intro part _; simp [groupsFrom, hl]
    | cons r body ih =>
      intro part h
      simpa [groupsFrom, h r (by simp)] using ih (part ++ [r]) fun x hx => h x (by simp [hx])
  simpa [responseGroups] using cut body [] hb

/-- A decode call whose DEND ends in DONE has the symbols emitted before it (R151). -/
theorem decodeResult_done (rs : List RespWord) :
    decodeResult (rs ++ [encodeResponse .done]) = some (symbolPayloads rs) := by
  have hd : tagOf (encodeResponse .done) = 0#4 := by simp [encodeResponse]
  simp [decodeResult, isErr_done, symbolPayloads, hd]

/-- One whose DEND ends in ERR has none (R151). -/
theorem decodeResult_err (rs : List RespWord) (code : BitVec 3) (info : Symbol) :
    decodeResult (rs ++ [encodeResponse (.err code info)]) = none := by
  simp [decodeResult, isErr_err]

/-! ### What a command word adds -/

/-- A command word is a command or raises IllegalCommand. -/
theorem performWord_cases {w : CmdWord} {s t : State} (h : performWord w s = .next t) :
    (∃ i, decode w = .ok i ∧ exec i s = .next t) ∨
    ((∃ e, decode w = .error e) ∧ t = raiseState .illegalCommand s) := by
  unfold performWord at h
  split at h
  · exact .inl ⟨_, ‹_›, h⟩
  · simp only [raise, Host.Outcome.next.injEq] at h; exact .inr ⟨⟨_, ‹_›⟩, h.symm⟩

/-- Every command word ends in ERR or in DONE. -/
theorem performWord_ends {w : CmdWord} {s t : State} (h : performWord w s = .next t) :
    EndsInErr s t ∨ EndsInDone s t := by
  rcases performWord_cases h with ⟨i, -, hi⟩ | ⟨-, rfl⟩
  · rcases exec_cases hi with h | ⟨h, -⟩
    · exact .inl h
    · exact .inr h
  · exact .inl (endsInErr_raise (by simp))

/-- A command that ends in ERR adds one word. -/
theorem EndsInErr.resp {s t : State} (h : EndsInErr s t) :
    ∃ e : ErrKind, t.resp = s.resp ++ [encodeResponse (.err (errCode e) (errInfo e))] := by
  obtain ⟨e, ⟨-, rfl⟩ | ⟨-, rfl⟩⟩ := h <;> exact ⟨e, rfl⟩

/-- A command that ends in DONE adds data words and DONE. -/
theorem EndsInDone.resp {s t : State} (h : EndsInDone s t) :
    ∃ rs : List Response, (∀ r ∈ rs, r.isData = true) ∧
      t.resp = s.resp ++ (rs.map encodeResponse ++ [encodeResponse .done]) := by
  obtain ⟨rs, u, rfl, h1, h2, -⟩ := h
  exact ⟨rs, h1, by simp [emitAll, h2]⟩

/-- The host reads from the last response whether a command ended in ERR. -/
theorem EndsInErr.endedInErr {s t : State} (h : EndsInErr s t) : endedInErr t = true := by
  obtain ⟨e, he⟩ := h.resp
  simp [Sys2Proof.Machine.endedInErr, he, isErr_err]

theorem EndsInDone.endedInErr {s t : State} (h : EndsInDone s t) : endedInErr t = false := by
  obtain ⟨rs, -, hr⟩ := h.resp
  simp [Sys2Proof.Machine.endedInErr, hr, isErr_done]

/-- The words a command added, from the stream after it. -/
theorem newResponses_eq {s t : State} {added : List RespWord} (h : t.resp = s.resp ++ added) :
    newResponses s t = added := by
  simp [newResponses, h]

@[simp] theorem newResponses_emitAll (rs : List Response) (s : State) :
    newResponses s (emitAll rs s) = rs.map encodeResponse := newResponses_eq rfl

/-- Words are performed one after the other (spec 70_reset_and_hazards.md R214). -/
theorem performWords_append {ws vs : List CmdWord} {s t : State} (h : performWords ws s = .next t) :
    performWords (ws ++ vs) s = performWords vs t := by
  induction ws generalizing s with
  | nil => simp only [performWords, Host.Outcome.next.injEq] at h; rw [List.nil_append, h]
  | cons w ws ih =>
    unfold performWords at h
    rw [List.cons_append, performWords]
    split at h
    · exact ih h
    · simp at h
    · simp at h

end Sys2Proof.Machine
end

