-- ==== Sys2Proof/Laws/Stepping.lean ====
section
/-! SUPPORT. Construction reads and writes only FREQ, NODE, NNODE, NLEAF, HEAP, HEAPN, ROOT, CODE, ACC, ACCOVF and PHASE:
its bodies give the same on states that agree there (spec 41_tree_builder.md R123), and the stepped commands are the
bodies one after the other (R119). -/

namespace Sys2Proof.Machine

/-- `s`, with what construction neither reads nor writes as in `u`. -/
def withOther (s u : State) : State :=
  { s with total := u.total, lasterr := u.lasterr, errsym := u.errsym, resp := u.resp, port := u.port }

theorem pushNode_other (n : Node) (s u : State) :
    pushNode n (withOther s u) = (pushNode n s).map (fun x => (x.1, withOther x.2 u)) := by
  by_cases h : s.nodes.length < Config.nnodeMax <;> simp [pushNode, withOther, h, Except.map]

theorem createNode_other (n : Node) (s u : State) :
    createNode n (withOther s u) = (createNode n s).map (withOther · u) := by
  unfold createNode
  rw [pushNode_other]
  cases pushNode n s with
  | error f => rfl
  | ok x =>
    simp only [Except.map, withOther]
    cases heapInsert x.2.nodes x.1 x.2.heap <;> rfl

theorem insertLeaves_other : ∀ (cs : List Symbol) (s u : State),
    insertLeaves cs (withOther s u) = (insertLeaves cs s).map (withOther · u)
  | [], _, _ => rfl
  | c :: cs, s, u => by
    unfold insertLeaves
    have hf : freqOperand c (withOther s u) = freqOperand c s := rfl
    rw [hf, createNode_other]
    split
    · exact insertLeaves_other cs s u
    · cases createNode (.leaf c (freqOperand c s)) s with
      | error f => rfl
      | ok x => exact insertLeaves_other cs x u

theorem leavesBody_other (s u : State) : leavesBody (withOther s u) = (leavesBody s).map (withOther · u) := by
  unfold leavesBody
  rw [insertLeaves_other]
  cases insertLeaves allSymbols s <;> rfl

theorem mergeBody_other (s u : State) : mergeBody (withOther s u) = (mergeBody s).map (withOther · u) := by
  unfold mergeBody
  simp only [withOther]
  cases h1 : heapExtractMin s.nodes s.heap with
  | error f => rfl
  | ok x =>
    simp only
    cases h2 : heapExtractMin s.nodes x.2 with
    | error f => rfl
    | ok y =>
      simp only
      cases readNode s.nodes x.1 with
      | error f => rfl
      | ok a =>
        cases readNode s.nodes y.1 with
        | error f => rfl
        | ok b => exact createNode_other _ { s with heap := y.2 } u

theorem mergeAll_other : ∀ (turns : Nat) (s u : State),
    mergeAll turns (withOther s u) = (mergeAll turns s).map (withOther · u)
  | 0, _, _ => rfl
  | turns + 1, s, u => by
    unfold mergeAll
    have hh : (withOther s u).heapn = s.heapn := rfl
    rw [hh, mergeBody_other]
    split
    · cases mergeBody s with
      | error f => rfl
      | ok x => exact mergeAll_other turns x u
    · rfl

theorem codegenBody_other (s u : State) : codegenBody (withOther s u) = (codegenBody s).map (withOther · u) := by
  unfold codegenBody
  simp only [withOther]
  cases s.heap[0]? with
  | none => rfl
  | some r =>
    simp only
    cases rootCodes s.nodes r with
    | error f => rfl
    | ok records =>
      simp only
      cases recordCodes records s.code <;> rfl

theorem buildBody_other (s u : State) : buildBody (withOther s u) = (buildBody s).map (withOther · u) := by
  unfold buildBody
  rw [leavesBody_other]
  cases leavesBody s with
  | error f => rfl
  | ok x =>
    simp only [Except.map]
    have hh : (withOther x u).heapn = x.heapn := rfl
    rw [hh, mergeAll_other]
    cases mergeAll x.heapn x with
    | error f => rfl
    | ok y => exact codegenBody_other y u

/-! ### The stepped commands -/

theorem decode_encode (i : Instr) : decode (encode i) = .ok i := by
  cases i <;> simp only [encode, decode, opField_commandWord, argField_commandWord]
  case reset | leaves | merge | codegen | build | dend => rfl
  all_goals
    simp only [withOperand]
    rw [operand_setWidth (by decide)]
    rfl

/-- A list of commands is performed one after the other (spec 70_reset_and_hazards.md R214). -/
theorem performCommands_cons {i : Instr} {is : List Instr} {s t : State} (h : exec i s = .next t) :
    performCommands (i :: is) s = performCommands is t := by
  simp [performCommands, performWords, performWord, decode_encode, h]

theorem performCommands_append {is js : List Instr} {s t : State} (h : performCommands is s = .next t) :
    performCommands (is ++ js) s = performCommands js t := by
  simp only [performCommands, List.map_append] at *
  exact performWords_append h

/-- A run that stops at errors (spec 30_encoding.md R91) ends at a command that ends in ERR, whatever was to follow. -/
theorem performUntilErr_err {i : Instr} {is : List Instr} {s t : State} (h : exec i s = .next t)
    (he : EndsInErr s t) : performUntilErr (i :: is) s = .next t := by
  simp [performUntilErr, performWord, decode_encode, h, he.endedInErr]

/-- It goes on from a command that ends in DONE. -/
theorem performUntilErr_done {i : Instr} {is : List Instr} {s t : State} (h : exec i s = .next t)
    (hd : EndsInDone s t) : performUntilErr (i :: is) s = performUntilErr is t := by
  simp [performUntilErr, performWord, decode_encode, h, hd.endedInErr]

/-- The stepped merges end where the loop of BUILD does, with one DONE each (R117, R119). -/
theorem performCommands_merges : ∀ (turns : Nat) {s : State}, Inv s → s.phase = .merge → s.heapn = turns + 1 →
    ∃ t, mergeAll s.heapn s = .ok t ∧ performCommands (List.replicate turns .merge) s =
      .next { t with resp := s.resp ++ List.replicate turns (encodeResponse .done) }
  | 0, s, hi, hp, hn => ⟨s, by rw [hn, mergeAll, if_neg (by omega)], by simp [performCommands, performWords]⟩
  | turns + 1, s, hi, hp, hn => by
    obtain ⟨t, a, b, he, hit, hpt, eff⟩ := inv_mergeBody hi hp (by omega)
    have hnt := eff.heapn
    have hx : exec .merge s = .next (emitAll [.done] t) := by
      simp only [exec, execMerge]
      rw [if_neg (by simp only [hp, ne_eq, not_true_eq_false, false_or]; omega), he]; rfl
    have hfr : t.resp = s.resp := by rw [eff.frame]
    obtain ⟨u, hu, hus⟩ := performCommands_merges turns (s := emitAll [.done] t) (hit.emitAll _) hpt
      (by simp only [emitAll, State.heapn] at *; omega)
    have ho : emitAll [.done] t = withOther t (emitAll [.done] t) := rfl
    have hh : (emitAll [.done] t).heapn = t.heapn := rfl
    rw [ho, mergeAll_other, ← ho, hh] at hu
    cases hm : mergeAll t.heapn t with
    | error f => rw [hm] at hu; simp [Except.map] at hu
    | ok v =>
      rw [hm] at hu
      simp only [Except.map, Except.ok.injEq] at hu
      have hv := mergeAll_frame _ hm
      refine ⟨v, ?_, ?_⟩
      · rw [← hnt, mergeAll, if_pos (by omega), he]; exact hm
      · rw [List.replicate_succ, performCommands_cons hx, hus, ← hu]
        simp only [withOther, emitAll, hfr, List.map_cons, List.map_nil, List.replicate_succ, List.append_assoc,
          List.singleton_append]
        rw [hv]

end Sys2Proof.Machine
end

