-- ==== Sys2Proof/Tests/Slice0.lean ====
section
/-! SUPPORT. Tests of the model against spec 95_test_vectors.md (its section is named at each test), ill-formed words for
each check of WellFormed, and, for every obligation with hypotheses, a witness that meets them. -/

namespace Sys2Proof.Tests

open Sys2Proof Sys2Proof.Machine

-- One theorem after the other: the kernel evaluations would otherwise wait for each other, each in a thread of its own.
set_option Elab.async false

/-! ### Small states (95_test_vectors.md sections 1.1, 1.2) -/

/-- A table of 256 entries from a list of entries over a fill value. -/
def tableOf {α : Type} (fill : α) (entries : List (Symbol × α)) : Vector α 256 :=
  entries.foldl (fun t e => tableSet t e.1 e.2) (Vector.replicate 256 fill)

/-- "aaaaabbbcc", counted. -/
def weightedCount : State :=
  { State.reset with freq := tableOf 0 [(0x61, 5), (0x62, 3), (0x63, 2)], total := 10 }

/-- Its three leaves, as after step 1 of section 1.2. -/
def weightedLeaves : State :=
  { weightedCount with phase := .merge, nleaf := 3, nodes := [.leaf 0x61 5, .leaf 0x62 3, .leaf 0x63 2],
                       heap := [2, 0, 1] }

/-- After step 2. -/
def weightedMerge1 : State :=
  { weightedLeaves with nodes := weightedLeaves.nodes ++ [.internal 5 2 1], heap := [0, 3] }

/-- After step 3. -/
def weightedMerge2 : State :=
  { weightedMerge1 with nodes := weightedMerge1.nodes ++ [.internal 10 0 3], heap := [4] }

/-- After step 4. -/
def weightedReady : State :=
  { weightedMerge2 with phase := .ready, root := 4,
                        code := tableOf none [(0x61, some [0]), (0x63, some [1, 0]), (0x62, some [1, 1])] }

/-- "aaaa", counted, after LEAVES, and ready (section 1.1). -/
def singleCount : State := { State.reset with freq := tableOf 0 [(0x61, 4)], total := 4 }

def singleLeaves : State :=
  { singleCount with phase := .merge, nleaf := 1, nodes := [.leaf 0x61 4], heap := [0] }

def singleReady : State := { singleLeaves with phase := .ready, code := tableOf none [(0x61, some [0])] }

/-- A full counter (section 2.2), reachable only in principle. -/
def fullCount : State := { State.reset with freq := tableOf 0 [(0x07, 0xFFFFFFFF)], total := 0xFFFFFFFF }

def almostFull : State := { State.reset with freq := tableOf 0 [(0x07, 0xFFFFFFFE)], total := 0xFFFFFFFE }

/-- A full accumulator: with one key, 255 digits that match nothing (section 2.6). -/
def fullAcc : State := { singleReady with acc := List.replicate 255 1 }

def overflowed : State := { fullAcc with accovf := true }

/-- The two states are equal; the tables are compared as lists, which the kernel evaluates fast. -/
def same (s t : State) : Bool :=
  decide (s.freq.toList = t.freq.toList ∧ s.code.toList = t.code.toList) &&
  decide (s.phase = t.phase ∧ s.total = t.total ∧ s.nodes = t.nodes ∧ s.nleaf = t.nleaf ∧ s.heap = t.heap ∧
    s.root = t.root ∧ s.acc = t.acc ∧ s.accovf = t.accovf ∧ s.lasterr = t.lasterr ∧ s.errsym = t.errsym ∧
    s.resp = t.resp ∧ s.port = t.port)

theorem eq_of_same {s t : State} (h : same s t = true) : s = t := by
  cases s; cases t
  simp only [same, Bool.and_eq_true, decide_eq_true_eq, Vector.toList_inj] at h
  obtain ⟨⟨h1, h2⟩, h3⟩ := h
  simp only [State.mk.injEq]
  exact ⟨h3.1, h1, h3.2.1, h3.2.2.1, h3.2.2.2.1, h3.2.2.2.2.1, h3.2.2.2.2.2.1, h2, h3.2.2.2.2.2.2⟩

/-- The outcome is this next state. -/
def isNext (o : Out) (t : State) : Bool :=
  match o with
  | .next s => same s t
  | .fault _ | .refused _ => false

theorem eq_of_isNext {o : Out} {t : State} (h : isNext o t = true) : o = .next t := by
  cases o with
  | next s => rw [eq_of_same h]
  | fault f => simp [isNext] at h
  | refused r => simp [isNext] at h

/-- Words added to the response stream. -/
def say (s : State) (rs : List RespWord) : State := { s with resp := s.resp ++ rs }

/-! ### Ill-formed words are refused (30_encoding.md R83; section 2.1) -/

theorem test_operandFits_refuses : (opRow (.sym 0)).operandFits 0x100#16 = false ∧
    (opRow (.dbit 0)).operandFits 0x2#16 = false ∧ (opRow (.rdreg 0)).operandFits 0x10#16 = false ∧
    (opRow (.rdnode 0)).operandFits 0x200#16 = false ∧ (opRow .merge).operandFits 0x1#16 = false := by decide

theorem test_accepts_refuses : (opRow .reset).accepts 0x1001#16 = false ∧ (opRow .leaves).accepts 0x4000#16 = false ∧
    (opRow (.rdheap 0)).accepts 0xD200#16 = false ∧ (opRow (.rdcode 0)).accepts 0xE100#16 = false := by decide

theorem test_illegal_words : [0x0000#16, 0x0FFF#16, 0xF000#16, 0xFFFF#16, 0x1001#16, 0x2161#16, 0x3001#16, 0x4800#16,
    0x5010#16, 0x6FFF#16, 0x7100#16, 0x8002#16, 0x8003#16, 0x9001#16, 0xA010#16, 0xB100#16, 0xC200#16, 0xD200#16,
    0xE100#16].all (fun w => !wordLegal w) = true := by decide

theorem test_wellFormed : (Instr.rdnode 511).wellFormed = true ∧ (Instr.sym 0xFF).wellFormed = true ∧
    (Instr.dbit 1).wellFormed = true ∧ Instr.build.wellFormed = true := by decide

/-! ### Decoding, words written out (section 2.1): each bit field is OP, then ARG -/

theorem test_decode_reset : decode 0b0001000000000000#16 = .ok .reset := by rfl
theorem test_decode_sym : decode 0b0010000001100001#16 = .ok (.sym 0x61) := by rfl
theorem test_decode_leaves : decode 0b0011000000000000#16 = .ok .leaves := by rfl
theorem test_decode_merge : decode 0b0100000000000000#16 = .ok .merge := by rfl
theorem test_decode_codegen : decode 0b0101000000000000#16 = .ok .codegen := by rfl
theorem test_decode_build : decode 0b0110000000000000#16 = .ok .build := by rfl
theorem test_decode_enc : decode 0b0111000001100100#16 = .ok (.enc 0x64) := by rfl
theorem test_decode_dbit : decode 0b1000000000000001#16 = .ok (.dbit 1) := by rfl
theorem test_decode_dend : decode 0b1001000000000000#16 = .ok .dend := by rfl
theorem test_decode_rdreg : decode 0b1010000000001000#16 = .ok (.rdreg 8) := by rfl
theorem test_decode_rdfreq : decode 0b1011000000100000#16 = .ok (.rdfreq 0x20) := by rfl
theorem test_decode_rdnode : decode 0b1100000111111110#16 = .ok (.rdnode 510) := by rfl
theorem test_decode_rdheap : decode 0b1101000011111111#16 = .ok (.rdheap 255) := by rfl
theorem test_decode_rdcode : decode 0b1110000001111010#16 = .ok (.rdcode 0x7A) := by rfl

theorem test_encode : encode (.sym 0xFF) = 0x20FF#16 ∧ encode (.rdheap 511) = 0xD1FF#16 ∧ encode (.dbit 0) = 0x8000#16 ∧
    encode .dend = 0x9000#16 := by decide

theorem test_decodeTableWord : decodeTableWord 16 0x2061 = some (.sym 0x61) ∧ decodeTableWord 16 0x2161 = none := by
  decide

theorem test_withFetchWord : isNext (step (State.reset.withFetchWord 16 0x2061))
    (say { State.reset with freq := tableOf 0 [(0x61, 1)], total := 1 } [0x000000000#36]) = true := by decide +kernel

/-! ### One step of each command -/

/-- Section 2.2. -/
theorem test_reset : isNext (exec .reset { weightedReady with acc := [1], lasterr := 5, errsym := 0x64 })
    (say State.reset [0x000000000#36]) = true := by decide +kernel

/-- Section 2.2. -/
theorem test_sym : isNext (exec (.sym 0x61) weightedCount)
    (say { weightedCount with freq := tableOf 0 [(0x61, 6), (0x62, 3), (0x63, 2)], total := 11 } [0x000000000#36]) = true := by
  decide +kernel

/-- Section 2.2: the test is on TOTAL, not on FREQ[8]. -/
theorem test_sym_capacity : isNext (exec (.sym 8) fullCount) (say { fullCount with lasterr := 6 } [0x100000006#36]) = true := by
  decide +kernel

/-- Section 1.2, step 1. -/
theorem test_leaves : exec .leaves weightedCount = .next (say weightedLeaves [0x000000000#36]) :=
  eq_of_isNext (by decide +kernel)

/-- Section 1.8, `new("")`. -/
theorem test_leaves_empty : isNext (exec .leaves State.reset) (say { State.reset with lasterr := 1 } [0x100000001#36]) = true := by
  decide +kernel

/-- Section 1.2, steps 2 and 3: the tie at frequency 5 is decided by the index. -/
theorem test_merge : exec .merge weightedLeaves = .next (say weightedMerge1 [0x000000000#36]) ∧
    exec .merge weightedMerge1 = .next (say weightedMerge2 [0x000000000#36]) :=
  ⟨eq_of_isNext (by decide +kernel), eq_of_isNext (by decide +kernel)⟩

/-- Program P4, command 5. -/
theorem test_merge_one : isNext (exec .merge singleLeaves) (say { singleLeaves with lasterr := 5 } [0x100000005#36]) = true := by
  decide +kernel

/-- Section 1.2, step 4. -/
theorem test_codegen : exec .codegen weightedMerge2 = .next (say weightedReady [0x000000000#36]) :=
  eq_of_isNext (by decide +kernel)

/-- Section 1.1: a root that is a leaf. -/
theorem test_codegen_leaf : isNext (exec .codegen singleLeaves) (say singleReady [0x000000000#36]) = true := by
  decide +kernel

/-- Program P1, command 11. -/
theorem test_build : exec .build weightedCount = .next (say weightedReady [0x000000000#36]) :=
  eq_of_isNext (by decide +kernel)

/-- Section 2.8: PhaseError before EmptyInputError. -/
theorem test_build_phase : isNext (exec .build weightedReady) (say { weightedReady with lasterr := 5 } [0x100000005#36]) = true := by
  decide +kernel

/-- Program P1, command 12: first digit first. -/
theorem test_enc : isNext (exec (.enc 0x63) weightedReady)
    (say weightedReady [0x200000001#36, 0x200000000#36, 0x000000000#36]) = true := by decide +kernel

/-- Section 1.3. -/
theorem test_enc_unknown : isNext (exec (.enc 0x64) weightedReady)
    (say { weightedReady with lasterr := 2, errsym := 0x64 } [0x100006402#36]) = true := by decide +kernel

/-- R91, in the manner of section 1.3: of "adzb" the call issues ENC 'a', ENC 'd' and stops there. -/
theorem test_encodeCall_stops : isNext (encodeCall [0x61, 0x64, 0x7A, 0x62] weightedReady)
    (say { weightedReady with lasterr := 2, errsym := 0x64 } [0x200000000#36, 0x000000000#36, 0x100006402#36]) = true := by
  decide +kernel

/-- R91: `NEWSTEP "abac"`, of three distinct symbols, has two merges. -/
theorem test_newstepCommands : newstepCommands [0x61, 0x62, 0x61, 0x63] =
    [.reset, .sym 0x61, .sym 0x62, .sym 0x61, .sym 0x63, .leaves, .merge, .merge, .codegen] := by decide +kernel

/-- R151: DBIT 0 gives 'a' and DEND is DONE, though ENC 'z' and RDNODE 511 between them end in ERR; without the DEND's DONE
there is no result. -/
theorem test_decodeResult_interleaved :
    decodeResult [0x300000061#36, 0x000000000#36, 0x100007A02#36, 0x100000007#36, 0x000000000#36] = some [0x61] ∧
    decodeResult [0x300000061#36, 0x000000000#36, 0x000000000#36, 0x100000003#36] = none := by decide

/-- R88: of the answers to DBIT 0, ENC 'z', DEND, those to DBIT and DEND. -/
theorem test_ownResponses : ownResponses [true, false, true]
    [0x300000061#36, 0x000000000#36, 0x100007A02#36, 0x000000000#36] =
      [0x300000061#36, 0x000000000#36, 0x000000000#36] := by decide

/-- R91, R136: of the symbols 0, 1, 2 the code table holds 1; log entry 19: an RDCODE in ERR fails the call. -/
theorem test_codetableResult :
    codetableResult [[0x400000000#36, 0x000000000#36], [0x400000002#36, 0x200000001#36, 0x200000000#36, 0x000000000#36],
      [0x400000000#36, 0x000000000#36]] = some [(1, [1, 0])] ∧
    codetableResult [[0x100000005#36], [0x100000005#36]] = none := by decide +kernel

/-- Program P1, commands 15 and 16. -/
theorem test_dbit : isNext (exec (.dbit 1) weightedReady) (say { weightedReady with acc := [1] } [0x000000000#36]) = true ∧
    isNext (exec (.dbit 0) { weightedReady with acc := [1] }) (say weightedReady [0x300000063#36, 0x000000000#36]) = true := by
  decide +kernel

/-- Section 2.6: the 256th digit is dropped. -/
theorem test_dbit_overflow : isNext (exec (.dbit 0) fullAcc) (say overflowed [0x000000000#36]) = true := by decide +kernel

/-- Program P4, commands 17 and 18. -/
theorem test_dend : isNext (exec .dend { singleReady with acc := [1, 0] })
    (say { singleReady with lasterr := 3 } [0x100000003#36]) = true ∧
    isNext (exec .dend singleReady) (say singleReady [0x000000000#36]) = true := by decide +kernel

/-- Section 2.7; program P3, command 17: STATUS is 6 with one digit held. -/
theorem test_rdreg : isNext (exec (.rdreg 5) weightedReady) (say weightedReady [0x400000005#36, 0x000000000#36]) = true ∧
    isNext (exec (.rdreg 0) { weightedReady with acc := [1] })
      (say { weightedReady with acc := [1] } [0x400000006#36, 0x000000000#36]) = true := by decide +kernel

/-- Section 2.7. -/
theorem test_rdreg_range : isNext (exec (.rdreg 9) weightedReady) (say { weightedReady with lasterr := 7 } [0x100000007#36]) = true := by
  decide +kernel

/-- Section 2.7. -/
theorem test_rdfreq : isNext (exec (.rdfreq 0x62) weightedReady) (say weightedReady [0x400000003#36, 0x000000000#36]) = true := by
  decide +kernel

/-- Section 2.7: an internal node and a leaf. -/
theorem test_rdnode : isNext (exec (.rdnode 3) weightedReady)
      (say weightedReady [0x400000001#36, 0x400000005#36, 0x400000002#36, 0x400000001#36, 0x000000000#36]) = true ∧
    isNext (exec (.rdnode 2) weightedReady)
      (say weightedReady [0x400000000#36, 0x400000002#36, 0x400000063#36, 0x400000000#36, 0x000000000#36]) = true := by
  decide +kernel

/-- Section 2.7. -/
theorem test_rdnode_range : isNext (exec (.rdnode 5) weightedReady) (say { weightedReady with lasterr := 7 } [0x100000007#36]) = true := by
  decide +kernel

/-- Section 2.7. -/
theorem test_rdheap : isNext (exec (.rdheap 1) weightedLeaves) (say weightedLeaves [0x400000000#36, 0x000000000#36]) = true ∧
    isNext (exec (.rdheap 1) weightedReady) (say { weightedReady with lasterr := 7 } [0x100000007#36]) = true := by
  decide +kernel

/-- Section 1.2 and program P2, command 40. -/
theorem test_rdcode : isNext (exec (.rdcode 0x62) weightedReady)
      (say weightedReady [0x400000002#36, 0x200000001#36, 0x200000001#36, 0x000000000#36]) = true ∧
    isNext (exec (.rdcode 0x7A) weightedReady) (say weightedReady [0x400000000#36, 0x000000000#36]) = true := by
  decide +kernel

/-- Section 2.8: IllegalCommand before PhaseError. -/
theorem test_illegal : isNext (performWord 0x2161 weightedReady) (say { weightedReady with lasterr := 4 } [0x100000004#36]) = true := by
  decide +kernel

/-- Section 2.3: the keys of "aaaaabbbcc" after the first merge. -/
theorem test_heapLess : heapLess weightedMerge1.nodes 2 1 = .ok true ∧ heapLess weightedMerge1.nodes 1 2 = .ok false ∧
    heapLess weightedMerge1.nodes 0 3 = .ok true ∧ heapLess weightedMerge1.nodes 3 0 = .ok false ∧
    heapLess weightedMerge1.nodes 0 0 = .ok false := by decide

/-! ### The invariant holds of the small states -/

theorem inv_count {s : State} (h : s.phase = .count ∧ s.nodes = [] ∧ s.heap = [] ∧ s.nleaf = 0 ∧ s.root = 0 ∧
    s.code = Vector.replicate 256 none ∧ s.acc = [] ∧ s.accovf = false) (ht : s.total.toNat = freqSum s.freq) : Inv s := by
  obtain ⟨h1, h2, h3, h4, h5, h6, h7, h8⟩ := h
  exact ⟨ht, by rw [phaseInv, h1]; exact ⟨h2, h3, h4, h5, h6, h7, h8⟩⟩

theorem test_inv_weightedCount : Inv weightedCount :=
  inv_count ⟨rfl, rfl, rfl, rfl, rfl, rfl, rfl, rfl⟩ (by decide +kernel)

theorem test_inv_singleCount : Inv singleCount :=
  inv_count ⟨rfl, rfl, rfl, rfl, rfl, rfl, rfl, rfl⟩ (by decide +kernel)

theorem test_inv_fullCount : Inv fullCount :=
  inv_count ⟨rfl, rfl, rfl, rfl, rfl, rfl, rfl, rfl⟩ (by decide +kernel)

theorem test_inv_almostFull : Inv almostFull :=
  inv_count ⟨rfl, rfl, rfl, rfl, rfl, rfl, rfl, rfl⟩ (by decide +kernel)

theorem support_weighted : support weightedCount.freq = [0x61, 0x62, 0x63] := by decide +kernel

theorem leafNodes_weighted : leafNodes weightedCount.freq = [.leaf 0x61 5, .leaf 0x62 3, .leaf 0x63 2] := by
  rw [leafNodes, support_weighted]; decide +kernel

theorem support_single : support singleCount.freq = [0x61] := by decide +kernel

theorem leafNodes_single : leafNodes singleCount.freq = [.leaf 0x61 4] := by
  rw [leafNodes, support_single]; decide +kernel

theorem built_weightedLeaves : Built weightedLeaves :=
  ⟨leafNodes_weighted.symm, (congrArg List.length support_weighted).symm, by decide, by decide, by decide, by decide, by decide, by decide, by decide, by unfold heapOrdered; decide⟩

theorem test_inv_weightedLeaves : Inv weightedLeaves :=
  ⟨test_inv_weightedCount.total, ⟨built_weightedLeaves, rfl, rfl, rfl, rfl⟩⟩

theorem built_weightedMerge1 : Built weightedMerge1 :=
  ⟨leafNodes_weighted.symm, (congrArg List.length support_weighted).symm, by decide, by decide, by decide, by decide, by decide, by decide, by decide,
    by unfold heapOrdered; decide⟩

/-- Phase MERGE with two nodes in the heap, the least number MERGE accepts. -/
theorem test_inv_weightedMerge1 : Inv weightedMerge1 :=
  ⟨test_inv_weightedCount.total, ⟨built_weightedMerge1, rfl, rfl, rfl, rfl⟩⟩

theorem built_weightedMerge2 : Built weightedMerge2 :=
  ⟨leafNodes_weighted.symm, (congrArg List.length support_weighted).symm, by decide, by decide, by decide, by decide, by decide, by decide, by decide,
    by unfold heapOrdered; decide⟩

theorem test_inv_weightedMerge2 : Inv weightedMerge2 :=
  ⟨test_inv_weightedCount.total, ⟨built_weightedMerge2, rfl, rfl, rfl, rfl⟩⟩

theorem built_weightedReady : Built weightedReady :=
  ⟨built_weightedMerge2.leaves, built_weightedMerge2.nleaf, by decide, by decide, by decide, by decide, by decide,
    by decide, by decide, built_weightedMerge2.ordered⟩

/-- Phase READY, three keys. -/
theorem test_inv_weightedReady : Inv weightedReady :=
  ⟨test_inv_weightedMerge2.total, ⟨built_weightedReady, rfl, rfl,
    ⟨[(0x61, [0]), (0x63, [1, 0]), (0x62, [1, 1])], rfl, rfl⟩, by decide, by decide⟩⟩

theorem built_singleLeaves : Built singleLeaves :=
  ⟨leafNodes_single.symm, (congrArg List.length support_single).symm, by decide, by decide, by decide, by decide, by decide, by decide, by decide,
    by unfold heapOrdered; decide⟩

theorem test_inv_singleLeaves : Inv singleLeaves :=
  ⟨test_inv_singleCount.total, ⟨built_singleLeaves, rfl, rfl, rfl, rfl⟩⟩

theorem built_singleReady : Built singleReady :=
  ⟨built_singleLeaves.leaves, built_singleLeaves.nleaf, by decide, by decide, by decide, by decide, by decide,
    by decide, by decide, built_singleLeaves.ordered⟩

/-- Phase READY, one key. -/
theorem test_inv_singleReady : Inv singleReady :=
  ⟨test_inv_singleLeaves.total, ⟨built_singleReady, rfl, rfl, ⟨[(0x61, [0])], rfl, rfl⟩, by decide, by decide⟩⟩

/-- Phase READY with a full accumulator, and with one that has dropped a digit. -/
theorem test_inv_overflowed : Inv fullAcc ∧ Inv overflowed :=
  ⟨test_inv_singleReady.withAcc rfl (by decide +kernel) (by decide),
    test_inv_singleReady.withAcc rfl (by decide +kernel) (fun _ => by decide +kernel)⟩

/-! ### Witnesses: a state and operands that meet all hypotheses of an obligation, for each of its clauses -/

theorem wit_DecodeOfEncodeGivesTheInstruction : (Instr.rdnode 511).wellFormed = true ∧
    (Instr.rdreg 15).wellFormed = true ∧ (Instr.rdcode 0).wellFormed = true := by decide

theorem wit_EncodeOfDecodeGivesTheWord : decode 0xC1FF#16 = .ok (.rdnode 511) := by rfl

theorem wit_DecoderFollowsTheOpcodeMap :
    opRow (.rdheap 0) ∈ opcodeMap ∧ decode 0xD1FF#16 = .ok (.rdheap 511) ∧
    opField 0x0FFF#16 = 0x0#4 ∧ opField 0xF000#16 = 0xF#4 := ⟨by decide, rfl, by decide, by decide⟩

theorem wit_IllegalWordRaisesIllegalCommand : wordLegal 0x0FFF#16 = false ∧ wordLegal 0xE100#16 = false ∧
    wordLegal 0xE0FF#16 = true ∧ wordLegal 0x8001#16 = true := by decide

/-- The second clause of `wordsMean`, for each operand width: one bit above the field. -/
theorem wit_wordsMean : (opField 0x1001#16 = 0x1#4 ∧ argField 0x1001#16 >>> 0 ≠ 0#12) ∧
    (opField 0x8002#16 = 0x8#4 ∧ argField 0x8002#16 >>> 1 ≠ 0#12) ∧
    (opField 0xA010#16 = 0xA#4 ∧ argField 0xA010#16 >>> 4 ≠ 0#12) ∧
    (opField 0x2100#16 = 0x2#4 ∧ argField 0x2100#16 >>> 8 ≠ 0#12) ∧
    (opField 0xC200#16 = 0xC#4 ∧ argField 0xC200#16 >>> 9 ≠ 0#12) := by decide

theorem wit_StepPerformsTheNextEvent :
    ({ weightedReady with port := [.word 0x8001, .hardReset] } : State).port = .word 0x8001 :: [.hardReset] ∧
    decode 0x8001#16 = .ok (.dbit 1) ∧
    ({ weightedReady with port := [.word 0xF000] } : State).port = .word 0xF000 :: [] ∧
    decode 0xF000#16 = .error .unassignedOpcode ∧
    ({ weightedReady with port := [.hardReset] } : State).port = .hardReset :: [] ∧ weightedReady.port = [] :=
  ⟨rfl, rfl, rfl, rfl, rfl, rfl⟩

theorem wit_ResetLeavesTheResetValues : exec .reset overflowed = .next (say State.reset [0x000000000#36]) ∧
    hardwareReset overflowed = State.reset :=
  ⟨eq_of_isNext (by decide +kernel), eq_of_same (by decide +kernel)⟩

theorem wit_HardwareResetEmptiesTheResponses :
    ({ weightedReady with port := [.hardReset, .word 0x2061], resp := [0x0#36] } : State).port =
      .hardReset :: [.word 0x2061] := rfl

/-- ENC 0x63 in a ready state: two data words, then DONE. -/
theorem perform_enc : performWord 0x7063 weightedReady =
    .next (say weightedReady [0x200000001#36, 0x200000000#36, 0x000000000#36]) := eq_of_isNext (by decide +kernel)

/-- ENC 0x64: UnknownSymbolError. -/
theorem perform_unknown : performWord 0x7064 weightedReady =
    .next (say { weightedReady with lasterr := 2, errsym := 0x64 } [0x100006402#36]) := eq_of_isNext (by decide +kernel)

/-- DEND with two digits held: MalformedBitstreamError. -/
theorem perform_malformed : performWord 0x9000 { singleReady with acc := [1, 0] } =
    .next (say { singleReady with lasterr := 3 } [0x100000003#36]) := eq_of_isNext (by decide +kernel)

theorem wit_ResponseWordsHaveTheirFormat : ∃ w s t, performWord w s = .next t := ⟨_, _, _, perform_enc⟩

theorem wit_LasterrTracksTheLastError :
    (∃ w s t r, performWord w s = .next t ∧ t.resp = s.resp ++ [r] ∧ isErr r = true ∧ t.lasterr = 2#3) ∧
    (∃ w s t r, performWord w s = .next t ∧ t.resp = s.resp ++ [r] ∧ isErr r = true ∧ t.lasterr = 3#3) ∧
    (∃ w s t, performWord w s = .next t ∧ (newResponses s t).all (fun r => !isErr r) = true ∧ decode w ≠ .ok .reset) ∧
    decode 0x1000#16 = .ok .reset :=
  ⟨⟨_, _, _, _, perform_unknown, rfl, by decide, rfl⟩, ⟨_, _, _, _, perform_malformed, rfl, by decide, rfl⟩,
    ⟨_, _, _, perform_enc, by decide, by decide⟩, rfl⟩

theorem wit_ErrorsArePrecise :
    (∃ w s t r, performWord w s = .next t ∧ t.resp.getLast? = some r ∧ isErr r = true ∧ t.lasterr ≠ 3#3) ∧
    (∃ w s t r, performWord w s = .next t ∧ t.resp.getLast? = some r ∧ isErr r = true ∧ t.lasterr = 3#3) :=
  ⟨⟨_, _, _, _, perform_unknown, rfl, by decide, by decide⟩, ⟨_, _, _, _, perform_malformed, rfl, by decide, rfl⟩⟩

theorem wit_OneTerminatorEndsEveryCommand :
    (∃ w s t, performWord w s = .next t ∧ t.resp = s.resp ++ [0x200000001#36, 0x200000000#36, 0x000000000#36]) ∧
    (∃ w s t, performWord w s = .next t ∧ t.resp = s.resp ++ [0x100006402#36]) :=
  ⟨⟨_, _, _, perform_enc, rfl⟩, ⟨_, _, _, perform_unknown, rfl⟩⟩

theorem wit_PhaseTableDecidesPhaseError :
    phaseAllows .merge singleLeaves.phase singleLeaves.heapn = false ∧
    phaseAllows .merge weightedMerge1.phase weightedMerge1.heapn = true ∧
    phaseAllows .codegen weightedMerge1.phase weightedMerge1.heapn = false ∧
    phaseAllows .codegen weightedMerge2.phase weightedMerge2.heapn = true ∧
    phaseAllows (.sym 0) weightedReady.phase weightedReady.heapn = false ∧
    phaseAllows (.rdreg 9) weightedReady.phase weightedReady.heapn = true := by decide

theorem wit_PhaseMovesAsTheLifecycleSays :
    (∃ s t, exec .leaves s = .next t ∧ t.phase ≠ s.phase) ∧ (∃ s t, exec .codegen s = .next t ∧ t.phase ≠ s.phase) ∧
    (∃ s t, exec .build s = .next t ∧ t.phase ≠ s.phase) ∧ (∃ s t, exec .reset s = .next t ∧ t.phase ≠ s.phase) :=
  ⟨⟨_, _, test_leaves, by decide⟩, ⟨_, _, test_codegen, by decide⟩,
    ⟨_, _, test_build, by decide⟩, ⟨_, _, wit_ResetLeavesTheResetValues.1, by decide⟩⟩

theorem wit_ReadyInstanceIsImmutable :
    weightedReady.phase = .ready ∧ (∃ t, performWord 0x7064 weightedReady = .next t) ∧ decode 0x7064#16 ≠ .ok .reset :=
  ⟨rfl, ⟨_, perform_unknown⟩, by decide⟩

/-- Each phase, and a step from a ready state with a word at the port. -/
theorem wit_invariant : (Inv weightedCount ∧ weightedCount.phase = .count) ∧
    (Inv weightedLeaves ∧ weightedLeaves.phase = .merge) ∧ (Inv weightedReady ∧ weightedReady.phase = .ready) :=
  ⟨⟨test_inv_weightedCount, rfl⟩, ⟨test_inv_weightedLeaves, rfl⟩, ⟨test_inv_weightedReady, rfl⟩⟩

theorem wit_EveryStepKeepsTheInvariant : Inv { weightedReady with port := [.word 0x7063] } ∧
    ∃ t, step { weightedReady with port := [.word 0x7063] } = .next t :=
  ⟨test_inv_weightedReady.withPort _, _, perform_enc⟩

theorem wit_SymCountsOneOccurrence : weightedReady.phase ≠ .count ∧
    (fullCount.phase = .count ∧ fullCount.total = 0xFFFFFFFF#32) ∧
    (almostFull.phase = .count ∧ almostFull.total ≠ 0xFFFFFFFF#32 ∧ Inv almostFull) :=
  ⟨by decide, ⟨rfl, rfl⟩, ⟨rfl, by decide, test_inv_almostFull⟩⟩

theorem wit_FrequencyTableCountsTheText : State.reset.phase = .count ∧ State.reset.total = 0 ∧
    (∀ c, tableGet State.reset.freq c = 0) ∧ ([0x61#8, 0x62#8, 0x61#8]).length < 2 ^ 32 :=
  ⟨rfl, rfl, by intro c; simp [State.reset], by decide⟩

theorem wit_LeavesMakesOneLeafPerKey : weightedReady.phase ≠ .count ∧
    (State.reset.phase = .count ∧ State.reset.total = 0) ∧
    (Inv weightedCount ∧ weightedCount.phase = .count ∧ weightedCount.total ≠ 0) :=
  ⟨by decide, ⟨rfl, rfl⟩, test_inv_weightedCount, rfl, by decide⟩

theorem wit_MergeJoinsTheTwoLeastNodes : weightedReady.phase ≠ .merge ∧ singleLeaves.heapn < 2 ∧
    (Inv weightedMerge1 ∧ weightedMerge1.phase = .merge ∧ weightedMerge1.heapn = 2) ∧
    (Inv weightedLeaves ∧ weightedLeaves.phase = .merge ∧ 2 ≤ weightedLeaves.heapn) :=
  ⟨by decide, by decide, ⟨test_inv_weightedMerge1, rfl, rfl⟩, ⟨test_inv_weightedLeaves, rfl, by decide⟩⟩

theorem wit_CodegenDerivesThePathCodes : weightedReady.phase ≠ .merge ∧ weightedMerge1.heapn ≠ 1 ∧
    (Inv weightedMerge2 ∧ weightedMerge2.phase = .merge ∧ weightedMerge2.heapn = 1 ∧
      nodeAt weightedMerge2.nodes 4 = some (.internal 10 0 3)) ∧
    (Inv singleLeaves ∧ singleLeaves.phase = .merge ∧ singleLeaves.heapn = 1 ∧
      nodeAt singleLeaves.nodes 0 = some (.leaf 0x61 4)) :=
  ⟨by decide, by decide, ⟨test_inv_weightedMerge2, rfl, rfl, rfl⟩, ⟨test_inv_singleLeaves, rfl, rfl, rfl⟩⟩

theorem wit_SingleSymbolGetsTheCodeZero :
    Inv singleCount ∧ singleCount.phase = .count ∧ support singleCount.freq = [0x61] :=
  ⟨test_inv_singleCount, rfl, support_single⟩

theorem wit_BuildEqualsSteppedConstruction : weightedReady.phase ≠ .count ∧
    (State.reset.phase = .count ∧ State.reset.total = 0) ∧
    (Inv weightedCount ∧ weightedCount.phase = .count ∧ weightedCount.total ≠ 0) := wit_LeavesMakesOneLeafPerKey

/-- Two states with one FREQ, of which one has a response and an error behind it. -/
theorem wit_ConstructionDependsOnFrequenciesAlone : Inv weightedCount ∧ Inv { weightedCount with lasterr := 7, resp := [0x100000007#36] } ∧
    weightedCount.total ≠ 0 ∧ (∃ t, exec .build weightedCount = .next t) ∧
    (∃ t, exec .build { weightedCount with lasterr := 7, resp := [0x100000007#36] } = .next t) :=
  ⟨test_inv_weightedCount, test_inv_weightedCount.frame rfl, by decide, ⟨_, test_build⟩,
    by
      obtain ⟨t, ht, -, -⟩ := inv_buildBody (s := { weightedCount with lasterr := 7, resp := [0x100000007#36] })
        (test_inv_weightedCount.frame rfl) rfl (by decide)
      exact ⟨_, by simp only [exec, execBuild]; rw [if_neg (by decide), if_neg (by decide), ht]; rfl⟩⟩

/-- Another prefix-free code over the same keys. -/
def otherCode (c : Symbol) : Bits := if c = 0x61 then [1, 1] else if c = 0x62 then [1, 0] else [0]

theorem wit_BuiltCodeIsOptimal : Inv weightedCount ∧ weightedCount.phase = .count ∧ weightedCount.total ≠ 0 ∧
    (∃ t, exec .build weightedCount = .next t) ∧
    (∃ t, performCommands (.leaves :: List.replicate ((support weightedCount.freq).length - 1) .merge ++ [.codegen])
      weightedCount = .next t) ∧
    (∀ c ∈ support weightedCount.freq, otherCode c ≠ []) ∧
    (∀ c ∈ support weightedCount.freq, ∀ d ∈ support weightedCount.freq, otherCode c <+: otherCode d → c = d) := by
  rw [support_weighted]
  exact ⟨test_inv_weightedCount, rfl, by decide, ⟨_, test_build⟩,
    ⟨_, eq_of_isNext (t := say weightedReady [0, 0, 0, 0]) (by decide +kernel)⟩, by decide, by decide⟩

theorem wit_HeapLessIsAStrictTotalOrder : nodeAt weightedMerge1.nodes 0 = some (.leaf 0x61 5) ∧
    nodeAt weightedMerge1.nodes 3 = some (.internal 5 2 1) ∧ nodeAt weightedMerge1.nodes 1 = some (.leaf 0x62 3) ∧
    heapLess weightedMerge1.nodes 1 0 = .ok true ∧ heapLess weightedMerge1.nodes 0 3 = .ok true := by decide

/-- A heap with one free slot, and the ordered heap of section 1.2. -/
theorem wit_HeapInsertAddsTheNodeAndKeepsOrder :
    (∀ m ∈ List.replicate 255 (1 : NodeIdx), (nodeAt weightedLeaves.nodes m).isSome = true) ∧
    (nodeAt weightedLeaves.nodes 2).isSome = true ∧ (List.replicate 255 (1 : NodeIdx)).length < 256 ∧
    (∀ m ∈ [(1 : NodeIdx), 0], (nodeAt weightedLeaves.nodes m).isSome = true) ∧
    heapOrdered weightedLeaves.nodes [1, 0] := by
  refine ⟨?_, by decide, by decide +kernel, by decide, by unfold heapOrdered; decide⟩
  intro m hm
  rw [List.eq_of_mem_replicate hm]; rfl

theorem wit_HeapExtractMinTakesTheLeast : (∀ m ∈ weightedLeaves.heap, (nodeAt weightedLeaves.nodes m).isSome = true) ∧
    weightedLeaves.heap ≠ [] ∧ heapOrdered weightedLeaves.nodes weightedLeaves.heap :=
  ⟨by decide, by decide, built_weightedLeaves.ordered⟩

theorem code_weighted : tableGet weightedReady.code 0x61 = some [0] ∧ tableGet weightedReady.code 0x62 = some [1, 1] ∧
    tableGet weightedReady.code 0x63 = some [1, 0] ∧ tableGet weightedReady.code 0x64 = none := by decide +kernel

theorem wit_RdcodeReadsTheCode : weightedLeaves.phase ≠ .ready ∧
    (weightedReady.phase = .ready ∧ tableGet weightedReady.code 0x62 = some [1, 1]) ∧
    (weightedReady.phase = .ready ∧ tableGet weightedReady.code 0x64 = none) :=
  ⟨by decide, ⟨rfl, code_weighted.2.1⟩, ⟨rfl, code_weighted.2.2.2⟩⟩

theorem wit_EncEmitsTheCode : weightedLeaves.phase ≠ .ready ∧
    (weightedReady.phase = .ready ∧ tableGet weightedReady.code 0x64 = none) ∧
    (weightedReady.phase = .ready ∧ tableGet weightedReady.code 0x62 = some [1, 1]) :=
  ⟨by decide, ⟨rfl, code_weighted.2.2.2⟩, ⟨rfl, code_weighted.2.1⟩⟩

/-- The failing text of EncodeConcatenatesTheCodes. -/
theorem wit_EncodeConcatenatesTheCodes : Inv weightedReady ∧ weightedReady.phase = .ready ∧
    ∃ c ∈ [0x61#8, 0x64#8, 0x62#8], tableGet weightedReady.freq c = 0 :=
  ⟨test_inv_weightedReady, rfl, 0x64, by decide, by decide +kernel⟩

/-- For EncodeStopsAtTheFirstUnknownSymbol: "adzb", and texts whose first or whose last symbol is the unknown one. -/
theorem wit_EncodeStopsAtTheFirstUnknownSymbol : Inv weightedReady ∧ weightedReady.phase = .ready ∧
    (∀ d ∈ [0x61#8], tableGet weightedReady.freq d ≠ 0) ∧ tableGet weightedReady.freq 0x64 = 0 ∧
    (∀ d ∈ ([] : List Symbol), tableGet weightedReady.freq d ≠ 0) ∧ tableGet weightedReady.freq 0xFF = 0 :=
  ⟨test_inv_weightedReady, rfl, by decide +kernel, by decide +kernel, by simp, by decide +kernel⟩

/-- For EncodeConcatenatesTheCodes and DecodeOfEncodeIsTheText: "cab", with three keys, and "aa", with one. -/
theorem wit_texts : (Inv weightedReady ∧ weightedReady.phase = .ready ∧ weightedReady.acc = [] ∧
      ∀ c ∈ [0x63#8, 0x61#8, 0x62#8], tableGet weightedReady.freq c ≠ 0) ∧
    (Inv singleReady ∧ singleReady.phase = .ready ∧ singleReady.acc = [] ∧
      ∀ c ∈ [0x61#8, 0x61#8], tableGet singleReady.freq c ≠ 0) :=
  ⟨⟨test_inv_weightedReady, rfl, rfl, by decide +kernel⟩, ⟨test_inv_singleReady, rfl, rfl, by decide +kernel⟩⟩

/-- For MatchFindsTheOneSymbol and MatchIsAWalkOfTheTree. -/
theorem wit_MatchIsAWalkOfTheTree : Inv weightedReady ∧ weightedReady.phase = .ready ∧ 1 < weightedReady.nleaf.toNat ∧
    tableGet weightedReady.code 0x61 = some [0] :=
  ⟨test_inv_weightedReady, rfl, by decide, code_weighted.1⟩

theorem wit_DbitAccumulatesAndMatches : weightedLeaves.phase ≠ .ready ∧
    (overflowed.phase = .ready ∧ overflowed.accovf = true) ∧ (fullAcc.phase = .ready ∧ fullAcc.acc.length = 255) ∧
    (weightedReady.accovf = false ∧ weightedReady.acc.length ≠ 255 ∧
      matchCode weightedReady.code (weightedReady.acc ++ [0]) = some 0x61) ∧
    matchCode weightedReady.code (weightedReady.acc ++ [1]) = none :=
  ⟨by decide, ⟨rfl, rfl⟩, ⟨rfl, by decide +kernel⟩, ⟨rfl, by decide, by decide +kernel⟩, by decide +kernel⟩

theorem wit_DendClosesTheCall : weightedLeaves.phase ≠ .ready ∧ (weightedReady.phase = .ready ∧ weightedReady.acc = []) ∧
    (fullAcc.phase = .ready ∧ fullAcc.acc ≠ []) := ⟨by decide, ⟨rfl, rfl⟩, ⟨rfl, by decide⟩⟩

/-- DBIT 0 with ENC 'z', RDNODE 511 and an illegal word interleaved. -/
theorem wit_DecodeCallIsDecidedByItsDend : Inv weightedReady ∧ weightedReady.phase = .ready ∧
    ∀ w ∈ [0x8000#16, 0x707A#16, 0xC1FF#16, 0x0000#16], w ≠ encode .reset ∧ w ≠ encode .dend := by
  refine ⟨test_inv_weightedReady, rfl, ?_⟩
  simp only [List.forall_mem_cons, List.not_mem_nil, false_implies, implies_true, and_true]
  decide

/-- A decode call with another caller's ENC in it, and an ENC with another caller's decode call around it. -/
theorem wit_InterleavedCommandsAnswerAsAlone : Inv weightedReady ∧ weightedReady.phase = .ready ∧
    ∀ own : Bool, ∀ x ∈ [(own, 0x8001#16), (!own, 0x7061#16), (own, 0x9000#16)], x.2 ≠ encode .reset ∧
      (∀ r, x.2 ≠ encode (.rdreg r)) ∧ (isDecodeWord x.2 = true → x.1 = own) := by
  refine ⟨test_inv_weightedReady, rfl, ?_⟩
  simp only [List.forall_mem_cons, List.not_mem_nil, false_implies, implies_true, and_true]
  decide

theorem wit_CodetableIsTheMapping : (Inv weightedReady ∧ weightedReady.phase = .ready) ∧
    (Inv singleReady ∧ singleReady.phase = .ready) :=
  ⟨⟨test_inv_weightedReady, rfl⟩, ⟨test_inv_singleReady, rfl⟩⟩

/-- The numbers where the clauses meet: 8 is ACCLEN, 9 names no register. -/
theorem wit_RdregReadsTheRegister : 9 ≤ (9 : RegNum).toNat ∧ 9 ≤ (15 : RegNum).toNat ∧ (8 : RegNum).toNat = 8 ∧
    (0 : RegNum).toNat = 0 := by decide

/-- The last node and the first index that names none. -/
theorem wit_RdnodeReadsTheNode : weightedReady.nnode ≤ (5 : NodeIdx).toNat ∧ weightedReady.nnode ≤ (511 : NodeIdx).toNat ∧
    weightedReady.nodes[(4 : NodeIdx).toNat]? = some (.internal 10 0 3) ∧
    weightedReady.nodes[(2 : NodeIdx).toNat]? = some (.leaf 0x63 2) := by decide

theorem wit_RdheapReadsTheSlot : weightedReady.heapn ≤ (1 : NodeIdx).toNat ∧ weightedLeaves.heap[(2 : NodeIdx).toNat]? = some 1 := by
  decide

theorem wit_ReadoutsChangeNothing :
    (∃ t, exec (.rdnode 5) weightedReady = .next t) ∧
    (∃ t, exec (.rdheap 0) weightedReady = .next t ∧ (newResponses weightedReady t).all (fun r => !isErr r) = true) :=
  ⟨⟨_, rfl⟩, ⟨_, rfl, by decide⟩⟩

/-- For CodeTableIsPrefixFreeAndComplete: three keys, and one. -/
theorem wit_CodeTableIsPrefixFreeAndComplete :
    (Inv weightedReady ∧ weightedReady.phase = .ready ∧ 1 < weightedReady.nleaf.toNat ∧
      tableGet weightedReady.code 0x61 = some [0] ∧ tableGet weightedReady.code 0x63 = some [1, 0]) ∧
    (Inv singleReady ∧ singleReady.phase = .ready ∧ singleReady.nleaf.toNat = 1 ∧
      tableGet singleReady.code 0x61 = some [0]) ∧ (List.replicate 255 (0 : Digit)).length = 255 :=
  ⟨⟨test_inv_weightedReady, rfl, by decide, code_weighted.1, code_weighted.2.2.1⟩,
    ⟨test_inv_singleReady, rfl, rfl, by decide +kernel⟩, by decide +kernel⟩

/-- An accumulator that holds the first digit of "11", and a word that keeps the phase. -/
theorem wit_AccumulatorStaysAProperPrefix :
    Inv { weightedReady with acc := [1] } ∧ 1 < weightedReady.nleaf.toNat ∧ properPrefixOfCode weightedReady.code [1] ∧
    properPrefixOfCode weightedReady.code [] ∧
    (∃ t, performWord 0x8001 { weightedReady with acc := [1] } = .next t ∧ t.phase = .ready) :=
  ⟨test_inv_weightedReady.withAcc rfl (by decide) (by decide), by decide,
    ⟨0x62, [1, 1], code_weighted.2.1, by decide, by decide⟩, ⟨0x61, [0], code_weighted.1, by decide, by decide⟩,
    ⟨_, eq_of_isNext (t := say weightedReady [0x300000062#36, 0x0#36]) (by decide +kernel), rfl⟩⟩

/-- For BoundedAccumulatorIsUnobservable: with one key, 256 digits overflow the accumulator. -/
theorem wit_BoundedAccumulatorIsUnobservable : Inv singleReady ∧ singleReady.phase = .ready ∧ singleReady.acc = [] ∧
    (List.replicate 256 (DecodeInput.digit 1) ++ [DecodeInput.stop]).length = 257 := ⟨test_inv_singleReady, rfl, rfl, by decide +kernel⟩

/-- Two internal nodes, in phase READY, and an accumulator that has dropped a digit. -/
theorem wit_InvariantSaysTheStoreIsAForest : Inv weightedReady ∧ weightedReady.phase = .ready ∧
    nodeAt weightedReady.nodes 3 = some (.internal 5 2 1) ∧ nodeAt weightedReady.nodes 4 = some (.internal 10 0 3) ∧
    (3 : NodeIdx) ≠ 4 ∧ Inv overflowed ∧ overflowed.accovf = true :=
  ⟨test_inv_weightedReady, rfl, by decide, by decide, by decide, test_inv_overflowed.2, rfl⟩

theorem perform_rdreg : performWords [0xA001#16] State.reset = .next (say State.reset [0x400000000#36, 0x0#36]) :=
  eq_of_isNext (by decide +kernel)

theorem perform_illegal :
    performWords [0xF000#16] State.reset = .next (say { State.reset with lasterr := 4 } [0x100000004#36]) :=
  eq_of_isNext (by decide +kernel)

/-- For EveryRunEndsWithOneGroupPerWord too: a run without an error, and one with an error. -/
theorem wit_ErrorFreeRunLeavesLasterrZero : (∀ w ∈ [0xA001#16, 0xF000#16], decode w ≠ .ok .reset) ∧
    (∃ t, performWords [0xA001#16] State.reset = .next t) ∧ (∃ t, performWords [0xF000#16] State.reset = .next t) :=
  ⟨by simp only [List.forall_mem_cons]; exact ⟨by decide, by decide, by simp⟩, ⟨_, perform_rdreg⟩, ⟨_, perform_illegal⟩⟩

/-- The library's ratio is the host's (section 1.2): 80 / 15 for "aaaaabbbcc". -/
theorem test_ratio : ratio (List.replicate 10 0x61) (List.replicate 15 0) = some (80, 15) ∧ ratio [0x61] [] = none := by
  decide

end Sys2Proof.Tests
end

/-! What every command keeps of the state (spec 10_state.md): the invariant of R51 along every step, and what the
invariant, the error registers, the phases and the frequency table say in the words of R20 to R52. -/

namespace Sys2Proof.Machine

/-! ### Every step keeps the invariant (R51) -/

section

variable {s t : State}

/-- The three shapes of the invariant (R51). -/
theorem Inv.phase_cases (h : Inv s) : (s.phase = .count ∧ CountState s) ∨ (s.phase = .merge ∧ MergeState s) ∨
    (s.phase = .ready ∧ ReadyState s) := by
  cases hp : s.phase with
  | count => exact .inl ⟨rfl, h.count hp⟩
  | merge => exact .inr (.inl ⟨rfl, h.merge hp⟩)
  | ready => exact .inr (.inr ⟨rfl, h.ready hp⟩)

theorem Inv.of_raise {e : ErrKind} (h : Inv s) (he : raise e s = .next t) : Inv t :=
  Host.Outcome.next.inj he ▸ h.raiseState e

theorem Inv.of_complete {rs : List Response} (h : Inv s) (he : complete rs s = .next t) : Inv t :=
  Host.Outcome.next.inj he ▸ h.emitAll _

theorem Inv.of_completeBody {b : Except Fault State} (h : ∃ u, b = .ok u ∧ Inv u) (he : completeBody b = .next t) :
    Inv t := by
  obtain ⟨u, rfl, hu⟩ := h
  exact hu.of_complete he

/-- The accumulator holds at most 255 digits, and 255 where one was dropped (R31). -/
theorem Inv.acc_bounds (h : Inv s) : s.acc.length ≤ 255 ∧ (s.accovf = true → s.acc.length = 255) := by
  rcases h.phase_cases with ⟨-, c⟩ | ⟨-, m⟩ | ⟨-, r⟩
  · simp [c.acc, c.accovf]
  · simp [m.acc, m.accovf]
  · exact ⟨r.acclen, r.accovf⟩

theorem execSym_keeps_inv {c : Symbol} (h : Inv s) (he : execSym c s = .next t) : Inv t := by
  unfold execSym at he
  split at he
  · exact h.of_raise he
  · rename_i hp
    split at he
    · exact h.of_raise he
    · rename_i ht
      exact (inv_sym h (not_not.mp hp) ht c).of_complete he

theorem execLeaves_keeps_inv (h : Inv s) (he : execLeaves s = .next t) : Inv t := by
  unfold execLeaves at he
  split at he
  · exact h.of_raise he
  · rename_i hp
    split at he
    · exact h.of_raise he
    · rename_i ht
      obtain ⟨u, hu, hi, -⟩ := inv_leavesBody h (not_not.mp hp) ht
      exact .of_completeBody ⟨u, hu, hi⟩ he

theorem execMerge_keeps_inv (h : Inv s) (he : execMerge s = .next t) : Inv t := by
  unfold execMerge at he
  split at he
  · exact h.of_raise he
  · rename_i hp
    simp only [ne_eq, not_or, not_not, not_lt] at hp
    obtain ⟨u, _, _, hu, hi, -⟩ := inv_mergeBody h hp.1 hp.2
    exact .of_completeBody ⟨u, hu, hi⟩ he

theorem execCodegen_keeps_inv (h : Inv s) (he : execCodegen s = .next t) : Inv t := by
  unfold execCodegen at he
  split at he
  · exact h.of_raise he
  · rename_i hp
    simp only [ne_eq, not_or, not_not] at hp
    obtain ⟨u, hu, hi, -⟩ := inv_codegenBody h hp.1 hp.2
    exact .of_completeBody ⟨u, hu, hi⟩ he

theorem execBuild_keeps_inv (h : Inv s) (he : execBuild s = .next t) : Inv t := by
  unfold execBuild at he
  split at he
  · exact h.of_raise he
  · rename_i hp
    split at he
    · exact h.of_raise he
    · rename_i ht
      obtain ⟨u, hu, hi, -⟩ := inv_buildBody h (not_not.mp hp) ht
      exact .of_completeBody ⟨u, hu, hi⟩ he

theorem execEnc_keeps_inv {c : Symbol} (h : Inv s) (he : execEnc c s = .next t) : Inv t := by
  unfold execEnc at he
  split at he
  · exact h.of_raise he
  · split at he
    · exact h.of_raise he
    · exact h.of_complete he

/-- DBIT drops the digit only at 255 digits, appends it only below, or empties the accumulator (R147, R148). -/
theorem execDbit_keeps_inv {b : Digit} (h : Inv s) (he : execDbit b s = .next t) : Inv t := by
  obtain ⟨hlen, hovf⟩ := h.acc_bounds
  unfold execDbit at he
  split at he
  · exact h.of_raise he
  · rename_i hp
    have hp := not_not.mp hp
    split at he
    · rename_i hfull
      have hfull : s.acc.length = 255 := hfull.elim hovf id
      exact (h.withAcc hp (a := s.acc) (o := true) hlen fun _ => hfull).of_complete he
    · rename_i hroom
      obtain ⟨hno, hne⟩ := not_or.mp hroom
      split at he
      · exact (h.withAcc hp (a := []) (o := s.accovf) (by simp) fun ho => absurd ho hno).of_complete he
      · exact (h.withAcc hp (o := s.accovf) (acclen_append b hne hlen) fun ho => absurd ho hno).of_complete he

theorem execDend_keeps_inv (h : Inv s) (he : execDend s = .next t) : Inv t := by
  unfold execDend at he
  split at he
  · exact h.of_raise he
  · rename_i hp
    split at he
    · exact (h.withAcc (not_not.mp hp) (a := []) (o := false) (by simp) (by simp)).of_raise he
    · exact h.of_complete he

theorem execRdcode_keeps_inv {c : Symbol} (h : Inv s) (he : execRdcode c s = .next t) : Inv t := by
  unfold execRdcode at he
  split at he
  · exact h.of_raise he
  · split at he
    · exact h.of_complete he
    · exact h.of_complete he

theorem exec_keeps_inv {i : Instr} (h : Inv s) (he : exec i s = .next t) : Inv t := by
  cases i with
  | reset => exact (inv_resetBlock s).of_complete he
  | sym c => exact execSym_keeps_inv h he
  | leaves => exact execLeaves_keeps_inv h he
  | merge => exact execMerge_keeps_inv h he
  | codegen => exact execCodegen_keeps_inv h he
  | build => exact execBuild_keeps_inv h he
  | enc c => exact execEnc_keeps_inv h he
  | dbit b => exact execDbit_keeps_inv h he
  | dend => exact execDend_keeps_inv h he
  | rdfreq c => exact h.of_complete he
  | rdreg n | rdnode n | rdheap n =>
    simp only [exec, execRdreg, execRdnode, execRdheap] at he
    split at he
    · exact h.of_raise he
    · exact h.of_complete he
  | rdcode c => exact execRdcode_keeps_inv h he

theorem performWord_keeps_inv {w : CmdWord} (h : Inv s) (he : performWord w s = .next t) : Inv t := by
  rcases performWord_cases he with ⟨i, -, hi⟩ | ⟨-, rfl⟩
  · exact exec_keeps_inv h hi
  · exact h.raiseState _

theorem inv_hardwareReset (s : State) : Inv (hardwareReset s) := (inv_resetBlock s).frame rfl

theorem performEvent_keeps_inv {e : HostEvent} (h : Inv s) (he : performEvent e s = .next t) : Inv t := by
  cases e with
  | word w => exact performWord_keeps_inv h he
  | hardReset => exact Host.Outcome.next.inj he ▸ inv_hardwareReset s

theorem step_keeps_inv (h : Inv s) (he : step s = .next t) : Inv t := by
  unfold step performNext at he
  split at he
  · exact Host.Outcome.next.inj he ▸ h
  · exact performEvent_keeps_inv (h.withPort _) he

end

/-- Settles O19: an idle step keeps the state, a reset establishes the invariant, and each command keeps it. -/
theorem everyStepKeepsTheInvariant : Obligations.EveryStepKeepsTheInvariant := by
  unfold Obligations.EveryStepKeepsTheInvariant
  intro s t h he
  exact step_keeps_inv h he

/-- Settles O18: the reset state is what RESET makes of it. -/
theorem invariantHoldsAtReset : Obligations.InvariantHoldsAtReset := by
  unfold Obligations.InvariantHoldsAtReset
  exact inv_resetBlock State.reset

/-! ### Reset values (R50) -/

/-- Every piece of the block's state is at its reset value, and no entry of NODE, HEAP or CODE holds a value: the list
of R50. -/
structure HasResetValues (t : State) : Prop where
  phase   : t.phase = .count
  freq    : ∀ c, tableGet t.freq c = 0
  total   : t.total = 0
  nnode   : t.nnode = 0
  nleaf   : t.nleaf = 0
  heapn   : t.heapn = 0
  root    : t.root = 0
  code    : ∀ c, tableGet t.code c = none
  acc     : t.acc = []
  accovf  : t.accovf = false
  lasterr : t.lasterr = 0
  errsym  : t.errsym = 0
  node    : ∀ i, nodeOperand i t = none
  slot    : ∀ j, heapOperand j t = none

/-- R50 does not speak of the two ports (R20). -/
theorem hasResetValues_ports (resp : List RespWord) (port : List HostEvent) :
    HasResetValues { State.reset with resp := resp, port := port } := by
  constructor <;> simp [State.reset, State.nnode, State.heapn, nodeOperand, nodeAt, heapOperand]

/-- Settles O8: the three states differ from the reset state in the two ports only. -/
theorem resetLeavesTheResetValues : Obligations.ResetLeavesTheResetValues := by
  unfold Obligations.ResetLeavesTheResetValues
  intro s t ht
  have h : HasResetValues t := by
    rcases ht with rfl | rfl | ht
    · exact hasResetValues_ports [] []
    · exact hasResetValues_ports [] s.port
    · exact Host.Outcome.next.inj ht ▸ hasResetValues_ports (s.resp ++ [encodeResponse .done]) s.port
  exact ⟨h.phase, h.freq, h.total, h.nnode, h.nleaf, h.heapn, h.root, h.code, h.acc, h.accovf, h.lasterr, h.errsym,
    h.node, h.slot⟩

/-! ### The error registers (R42) -/

theorem payloadOf_err_code (code : BitVec 3) (info : Symbol) :
    (payloadOf (encodeResponse (.err code info))).setWidth 3 = code := by
  ext i hi
  simp only [encodeResponse, payloadOf_responseWord, BitVec.getElem_setWidth, BitVec.getLsbD_or,
    BitVec.getLsbD_shiftLeft, BitVec.getLsbD_setWidth]
  simp [show i < 8 by omega, show i < 32 by omega, hi]

theorem payloadOf_err_info (code : BitVec 3) (info : Symbol) :
    (payloadOf (encodeResponse (.err code info))).extractLsb' 8 8 = info := by
  ext i hi
  simp only [encodeResponse, payloadOf_responseWord, BitVec.getElem_extractLsb', BitVec.getLsbD_or,
    BitVec.getLsbD_shiftLeft, BitVec.getLsbD_setWidth]
  simp [show 8 + i < 32 by omega, show i < 32 by omega, hi, BitVec.getLsbD_of_ge code (8 + i) (by omega)]

theorem errCode_ne_zero (e : ErrKind) : errCode e ≠ 0 := by cases e <;> simp [errCode]

/-- Code 2 is that of UnknownSymbolError alone, whose info is the symbol ERRSYM takes (R171, R180). -/
theorem errsymAfter_eq (e : ErrKind) (old : Symbol) :
    errsymAfter e old = if errCode e = 2#3 then errInfo e else old := by
  cases e <;> simp [errCode, errsymAfter, errInfo]

section

variable {s t : State}

/-- What a command that ends in ERR leaves: its code in LASTERR, its symbol in ERRSYM, its one response (R180). -/
theorem EndsInErr.registers (h : EndsInErr s t) : ∃ e : ErrKind, t.lasterr = errCode e ∧
    t.errsym = errsymAfter e s.errsym ∧ t.resp = s.resp ++ [encodeResponse (.err (errCode e) (errInfo e))] := by
  obtain ⟨e, ⟨-, rfl⟩ | ⟨-, rfl⟩⟩ := h <;> exact ⟨e, rfl, rfl, rfl⟩

/-- The one response of a command that ends in ERR is the word of LASTERR and, for code 2, of ERRSYM. -/
theorem EndsInErr.lasterr_of_resp (h : EndsInErr s t) {r : RespWord} (hr : t.resp = s.resp ++ [r]) :
    t.lasterr = (payloadOf r).setWidth 3 ∧ t.lasterr ≠ 0 ∧
      t.errsym = if t.lasterr = 2#3 then (payloadOf r).extractLsb' 8 8 else s.errsym := by
  obtain ⟨e, hl, hs, he⟩ := h.registers
  obtain rfl : encodeResponse (.err (errCode e) (errInfo e)) = r := by simpa [he] using hr
  rw [hl, hs, payloadOf_err_code, payloadOf_err_info]
  exact ⟨rfl, errCode_ne_zero e, errsymAfter_eq e s.errsym⟩

/-- The one response of a command that ends in DONE is no ERR word. -/
theorem EndsInDone.not_isErr_of_resp (h : EndsInDone s t) {r : RespWord} (hr : t.resp = s.resp ++ [r]) :
    isErr r = false := by
  have he := h.endedInErr
  simpa [Machine.endedInErr, hr] using he

/-- A command that ends in ERR has an ERR word among its responses. -/
theorem EndsInErr.exists_isErr (h : EndsInErr s t) : ¬ (newResponses s t).all (fun r => !isErr r) = true := by
  obtain ⟨e, he⟩ := h.resp
  simp [newResponses_eq he, isErr_err]

/-- A word that ends in DONE and is not RESET leaves LASTERR and ERRSYM as they were (R42). -/
theorem performWord_keeps_lasterr {w : CmdWord} (h : performWord w s = .next t) (hn : ¬ EndsInErr s t)
    (hw : decode w ≠ .ok .reset) : t.lasterr = s.lasterr ∧ t.errsym = s.errsym := by
  rcases performWord_cases h with ⟨i, hd, hi⟩ | ⟨-, rfl⟩
  · rcases exec_cases hi with he | ⟨-, ⟨rfl, -⟩ | ⟨-, hk⟩, -⟩
    · exact absurd he hn
    · exact absurd hd hw
    · exact hk
  · exact absurd (endsInErr_raise (by simp)) hn

theorem performWord_reset {w : CmdWord} (hw : decode w = .ok .reset) (s : State) :
    performWord w s = .next (emitAll [.done] (resetBlock s)) := by
  simp [performWord, hw, exec, execReset, complete]

end

/-- Settles O12: by the two ways a command ends. -/
theorem lasterrTracksTheLastError : Obligations.LasterrTracksTheLastError := by
  unfold Obligations.LasterrTracksTheLastError
  refine ⟨fun s => ⟨rfl, rfl⟩, fun w s t h => ⟨fun r hr hisErr => ?_, fun hall hw => ?_, fun hw => ?_⟩⟩
  · rcases performWord_ends h with he | hd
    · exact he.lasterr_of_resp hr
    · exact absurd hisErr (by simp [hd.not_isErr_of_resp hr])
  · exact performWord_keeps_lasterr h (fun he => he.exists_isErr hall) hw
  · rw [performWord_reset hw] at h
    exact Host.Outcome.next.inj h ▸ ⟨rfl, rfl⟩

/-! ### The phases (R21, R52) -/

theorem phaseCode_ne_three (p : Phase) : phaseCode p ≠ 3#2 := by cases p <;> decide

section

variable {s t : State}

theorem EndsInErr.sameTables (h : EndsInErr s t) : SameTables s t := by
  obtain ⟨e, ⟨-, rfl⟩ | ⟨-, rfl⟩⟩ := h <;> rfl

theorem SameTables.phase_eq (h : SameTables s t) : t.phase = s.phase := by rw [h]

/-- A word performed in phase READY changes only what R52 lists, unless it is RESET: every other command that changes
more needs another phase. -/
theorem performWord_ready_sameTables {w : CmdWord} (hp : s.phase = .ready) (h : performWord w s = .next t)
    (hw : decode w ≠ .ok .reset) : SameTables s t := by
  rcases performWord_cases h with ⟨i, hd, hi⟩ | ⟨-, rfl⟩
  · rcases exec_cases hi with he | ⟨-, -, ⟨rfl, -⟩ | ⟨-, hc, -⟩ | ⟨-, hc, -⟩ | ⟨-, hc, -⟩ | ⟨-, hc, -⟩ |
      ⟨-, hc, -⟩ | hsame⟩
    · exact he.sameTables
    · exact absurd hd hw
    · simp [hp] at hc
    · simp [hp] at hc
    · simp [hp] at hc
    · simp [hp] at hc
    · simp [hp] at hc
    · exact hsame
  · exact (endsInErr_raise (by simp)).sameTables

/-- The commands that change the phase, and how (R21). -/
theorem exec_phase_moves {i : Instr} (h : exec i s = .next t) (hne : t.phase ≠ s.phase) :
    (i = .leaves ∧ s.phase = .count ∧ t.phase = .merge) ∨ (i = .codegen ∧ s.phase = .merge ∧ t.phase = .ready) ∨
    (i = .build ∧ s.phase = .count ∧ t.phase = .ready) ∨ (i = .reset ∧ t.phase = .count) := by
  rcases exec_cases h with he | ⟨-, -, ⟨rfl, rfl⟩ | ⟨-, hs, ht⟩ | hleaves | ⟨-, hs, ht⟩ | hcodegen | hbuild | hsame⟩
  · exact absurd he.sameTables.phase_eq hne
  · exact .inr (.inr (.inr ⟨rfl, rfl⟩))
  · exact absurd (ht.trans hs.symm) hne
  · exact .inl hleaves
  · exact absurd (ht.trans hs.symm) hne
  · exact .inr (.inl hcodegen)
  · exact .inr (.inr (.inl hbuild))
  · exact absurd hsame.phase_eq hne

end

/-- Settles O16: by everything a command can do. -/
theorem phaseMovesAsTheLifecycleSays : Obligations.PhaseMovesAsTheLifecycleSays := by
  unfold Obligations.PhaseMovesAsTheLifecycleSays
  exact ⟨⟨rfl, rfl, rfl, phaseCode_ne_three⟩, fun _ _ _ h hne => exec_phase_moves h hne, fun _ => rfl⟩

/-- Settles O17: by everything a command can do, of which phase READY leaves only what changes no table. -/
theorem readyInstanceIsImmutable : Obligations.ReadyInstanceIsImmutable := by
  unfold Obligations.ReadyInstanceIsImmutable
  intro w s t hp h hw
  exact performWord_ready_sameTables hp h hw

/-! ### The invariant in the words of R51 -/

section

variable {s : State}

/-- HEAPN ≤ NLEAF ≤ NNODE ≤ 511 in every phase. -/
theorem Inv.fill_counts (h : Inv s) : s.heapn ≤ s.nleaf.toNat ∧ s.nleaf.toNat ≤ s.nnode ∧ s.nnode ≤ 511 := by
  have built : Built s → s.heapn ≤ s.nleaf.toNat ∧ s.nleaf.toNat ≤ s.nnode ∧ s.nnode ≤ 511 := fun b => by
    have hle : s.nleaf.toNat ≤ s.nnode := b.nleaf_le_nnode
    have hcounts := b.counts
    exact ⟨by omega, hle, b.nnode_le⟩
  rcases h.phase_cases with ⟨-, c⟩ | ⟨-, m⟩ | ⟨-, r⟩
  · simp [State.heapn, State.nnode, c.heap, c.nodes, c.nleaf]
  · exact built m.built
  · exact built r.built

theorem ReadyState.heapn_eq (r : ReadyState s) : s.heapn = 1 := by simp [State.heapn, r.heap]

/-- ROOT's frequency is TOTAL: it is the one node of the heap. -/
theorem ReadyState.root_weight (r : ReadyState s) : weightOf s.nodes s.root = s.total.toNat := by
  simpa [r.heap] using r.built.weight

theorem ReadyState.nnode_eq (r : ReadyState s) : s.nnode + 1 = 2 * s.nleaf.toNat := by
  rw [← r.built.counts, r.heapn_eq]

end

/-- Settles O21: each phase's shape of the invariant, its counts added up. -/
theorem invariantSaysWhatEachPhaseHolds : Obligations.InvariantSaysWhatEachPhaseHolds := by
  unfold Obligations.InvariantSaysWhatEachPhaseHolds
  intro s h
  obtain ⟨hheap, hleaf, hnode⟩ := h.fill_counts
  refine ⟨h.total, hheap, hleaf, hnode, fun hp => ?_, fun hp => ?_, fun hp => ?_⟩
  · have c := h.count hp
    exact ⟨by simp [State.nnode, c.nodes], c.nleaf, by simp [State.heapn, c.heap], c.root, by simp [c.code], c.acc,
      c.accovf⟩
  · have m := h.merge hp
    have hcounts := m.built.counts
    have hpos := m.built.nonempty
    exact ⟨by omega, m.built.nleaf, by omega, by omega, hpos, m.built.weight, by simp [m.code], m.acc, m.accovf,
      m.root⟩
  · have r := h.ready hp
    exact ⟨r.nnode_eq, r.heap, r.root, r.root_weight, r.valid_iff, r.prefixFree⟩

/-! ### The forest (R26, R28) -/

section

variable {s : State}

/-- Node `n` is the left or the right child of no node. -/
def NoParent (nodes : List Node) (n : NodeIdx) : Prop :=
  ∀ i f l r, nodeAt nodes i = some (.internal f l r) → n ≠ l ∧ n ≠ r

theorem childrenOf_internal {nodes : List Node} {i l r : NodeIdx} {f : Freq}
    (h : nodeAt nodes i = some (.internal f l r)) : childrenOf nodes i = [l, r] := by
  simp [childrenOf, h]

theorem mem_childrenOf {nodes : List Node} {i n : NodeIdx} :
    n ∈ childrenOf nodes i ↔ ∃ f l r, nodeAt nodes i = some (.internal f l r) ∧ (n = l ∨ n = r) := by
  unfold childrenOf
  split
  · rename_i f l r h
    simp [h]
  · rename_i h
    constructor
    · simp
    · rintro ⟨f, l, r, he, -⟩
      exact absurd he (h f l r)

theorem noParent_iff {nodes : List Node} {n : NodeIdx} : NoParent nodes n ↔ ∀ i, n ∉ childrenOf nodes i := by
  simp only [NoParent, mem_childrenOf, not_exists, not_and, not_or]

/-- The indices of the created nodes, ascending. -/
def createdNodes (s : State) : List NodeIdx := (List.range s.nnode).map (BitVec.ofNat 9)

/-- The children of the created nodes, each as often as it is a child. -/
def allChildren (s : State) : List NodeIdx := (createdNodes s).flatMap (childrenOf s.nodes)

theorem mem_createdNodes (hle : s.nnode ≤ 511) {n : NodeIdx} : n ∈ createdNodes s ↔ n.toNat < s.nnode := by
  simp only [createdNodes, List.mem_map, List.mem_range]
  constructor
  · rintro ⟨k, hk, rfl⟩
    rwa [toNat_ofNat9 (by omega)]
  · exact fun hn => ⟨n.toNat, hn, by simp⟩

theorem createdNodes_nodup (hle : s.nnode ≤ 511) : (createdNodes s).Nodup := by
  refine List.Nodup.map_on (fun a ha b hb hab => ?_) List.nodup_range
  have ha := List.mem_range.mp ha
  have hb := List.mem_range.mp hb
  rw [← toNat_ofNat9 (show a < 511 by omega), hab, toNat_ofNat9 (by omega)]

/-- In every phase the created nodes are the nodes in the heap and the children of created nodes, each exactly once. -/
theorem Inv.heap_and_children (h : Inv s) : (s.heap ++ allChildren s).Perm (createdNodes s) := by
  rcases h.phase_cases with ⟨-, c⟩ | ⟨-, m⟩ | ⟨-, r⟩
  · simp [allChildren, createdNodes, State.nnode, c.heap, c.nodes]
  · exact m.built.parents
  · exact r.built.parents

theorem Inv.heap_children_nodup (h : Inv s) : (s.heap ++ allChildren s).Nodup :=
  h.heap_and_children.nodup_iff.mpr (createdNodes_nodup h.fill_counts.2.2)

theorem Inv.parent_created (h : Inv s) {i : NodeIdx} {x : Node} (hi : nodeAt s.nodes i = some x) :
    i ∈ createdNodes s := (mem_createdNodes h.fill_counts.2.2).mpr (lt_of_nodeAt hi)

theorem Inv.mem_allChildren (h : Inv s) {n : NodeIdx} : n ∈ allChildren s ↔ ¬ NoParent s.nodes n := by
  simp only [noParent_iff, not_forall, not_not, allChildren, List.mem_flatMap]
  constructor
  · rintro ⟨i, -, hn⟩
    exact ⟨i, hn⟩
  · rintro ⟨i, hn⟩
    obtain ⟨f, l, r, hi, -⟩ := mem_childrenOf.mp hn
    exact ⟨i, h.parent_created hi, hn⟩

theorem Inv.children_smaller (h : Inv s) {i l r : NodeIdx} {f : Freq}
    (hi : nodeAt s.nodes i = some (.internal f l r)) : l.toNat < i.toNat ∧ r.toNat < i.toNat := by
  have ok : ∀ i, i < s.nnode → nodeOk s.nodes i = true := by
    rcases h.phase_cases with ⟨-, c⟩ | ⟨-, m⟩ | ⟨-, r⟩
    · simp [State.nnode, c.nodes]
    · exact m.built.children
    · exact r.built.children
  have hok := ok i.toNat (lt_of_nodeAt hi)
  rw [nodeAt] at hi
  simp only [nodeOk, hi, Bool.and_eq_true, decide_eq_true_eq] at hok
  exact hok.1

/-- A node's two children differ. -/
theorem Inv.children_ne (h : Inv s) {i l r : NodeIdx} {f : Freq} (hi : nodeAt s.nodes i = some (.internal f l r)) :
    l ≠ r := by
  have hnd := (List.nodup_flatMap.mp h.heap_children_nodup.of_append_right).1 i (h.parent_created hi)
  simpa [childrenOf_internal hi] using hnd

/-- Two nodes have no child in common. -/
theorem Inv.children_disjoint (h : Inv s) {i j l r l' r' : NodeIdx} {f g : Freq}
    (hi : nodeAt s.nodes i = some (.internal f l r)) (hj : nodeAt s.nodes j = some (.internal g l' r')) (hij : i ≠ j) :
    l ≠ l' ∧ l ≠ r' ∧ r ≠ l' ∧ r ≠ r' := by
  have hpw := (List.nodup_flatMap.mp h.heap_children_nodup.of_append_right).2
  have : Std.Symm (Function.onFun List.Disjoint (childrenOf s.nodes)) := ⟨fun _ _ => List.Disjoint.symm⟩
  have hd := hpw.forall (h.parent_created hi) (h.parent_created hj) hij
  simp only [Function.onFun, childrenOf_internal hi, childrenOf_internal hj] at hd
  obtain ⟨⟨hll, hrl⟩, hlr, hrr⟩ : (l ≠ l' ∧ r ≠ l') ∧ l ≠ r' ∧ r ≠ r' := by simpa [eq_comm] using hd
  exact ⟨hll, hlr, hrl, hrr⟩

theorem Inv.heapOrdered (h : Inv s) : heapOrdered s.nodes s.heap := by
  rcases h.phase_cases with ⟨-, c⟩ | ⟨-, m⟩ | ⟨-, r⟩
  · simp [Machine.heapOrdered, c.heap]
  · exact m.built.ordered
  · exact r.built.ordered

/-- The heap holds exactly the created nodes that are no node's child (R28). -/
theorem Inv.mem_heap (h : Inv s) (n : NodeIdx) : n ∈ s.heap ↔ n.toNat < s.nnode ∧ NoParent s.nodes n := by
  rw [← mem_createdNodes h.fill_counts.2.2, ← h.heap_and_children.mem_iff, List.mem_append, h.mem_allChildren]
  have hdisj : n ∈ s.heap → NoParent s.nodes n := fun hn =>
    not_not.mp fun hc => List.disjoint_of_nodup_append h.heap_children_nodup hn (h.mem_allChildren.mpr hc)
  tauto

end

/-- Settles O22: the heap and the children of the created nodes are the created nodes, each exactly once. -/
theorem invariantSaysTheStoreIsAForest : Obligations.InvariantSaysTheStoreIsAForest := by
  unfold Obligations.InvariantSaysTheStoreIsAForest
  intro s h
  obtain ⟨hlen, hovf⟩ := h.acc_bounds
  refine ⟨fun i f l r hi => ?_, fun i j f g l r l' r' hi hj hij => h.children_disjoint hi hj hij, h.heapOrdered,
    h.heap_children_nodup.of_append_left, h.mem_heap, fun hp n => ?_, hlen, hovf⟩
  · obtain ⟨hl, hr⟩ := h.children_smaller hi
    exact ⟨hl, hr, h.children_ne hi⟩
  · have hn := h.mem_heap n
    rwa [(h.ready hp).heap, List.mem_singleton] at hn

/-! ### The frequency table (R22, R101) -/

/-- The state after an accepted SYM, its response included (R102). -/
def afterSym (c : Symbol) (s : State) : State :=
  emitAll [.done] { s with freq := tableSet s.freq c (tableGet s.freq c + 1), total := s.total + 1 }

theorem execSym_accepted {c : Symbol} {s : State} (hp : s.phase = .count) (ht : s.total ≠ 0xFFFFFFFF#32) :
    exec (.sym c) s = .next (afterSym c s) := by
  simp [exec, execSym, hp, ht, complete, afterSym, freqOperand]

/-- An accepted SYM adds one to the count of its symbol and leaves the other counts. -/
theorem afterSym_freq {c : Symbol} {s : State} (hc : (tableGet s.freq c).toNat + 1 < 2 ^ 32) (d : Symbol) :
    (tableGet (afterSym c s).freq d).toNat = (tableGet s.freq d).toNat + if c = d then 1 else 0 := by
  simp only [afterSym, emitAll_freq, tableGet_tableSet]
  split
  · subst d
    exact toNat_succ32 hc
  · rfl

/-- The SYM commands of a text add to each count the occurrences of its symbol, from every state of phase COUNT with room
for them (R22, R102). -/
theorem performCommands_syms : ∀ (text : List Symbol) (s : State), s.phase = .count →
    (∀ c, (tableGet s.freq c).toNat ≤ s.total.toNat) → s.total.toNat + text.length < 2 ^ 32 →
    ∃ t, performCommands (text.map .sym) s = .next t ∧
      (∀ c, (tableGet t.freq c).toNat = (tableGet s.freq c).toNat + text.count c) ∧
      t.total.toNat = s.total.toNat + text.length ∧
      t = { s with freq := t.freq, total := t.total,
                   resp := s.resp ++ List.replicate text.length (encodeResponse .done) }
  | [], s, _, _, _ => ⟨s, rfl, by simp, by simp, by simp⟩
  | c :: text, s, hp, hle, hlen => by
    simp only [List.length_cons] at hlen
    have ht : s.total ≠ 0xFFFFFFFF#32 := by
      intro h
      have : s.total.toNat = 2 ^ 32 - 1 := by rw [h]; rfl
      omega
    have hfreq := afterSym_freq (c := c) (s := s) (by have := hle c; omega)
    have htotal : (afterSym c s).total.toNat = s.total.toNat + 1 := total_succ ht
    obtain ⟨t, hrun, hcount, hsum, hframe⟩ := performCommands_syms text (afterSym c s) hp
      (fun d => by rw [hfreq, htotal]; have := hle d; split <;> omega) (by omega)
    refine ⟨t, ?_, fun d => ?_, ?_, ?_⟩
    · rw [List.map_cons, performCommands_cons (execSym_accepted hp ht), hrun]
    · rw [hcount, hfreq, List.count_cons]
      simp only [beq_iff_eq]
      omega
    · rw [hsum, htotal, List.length_cons]
      omega
    · rw [hframe]
      simp [afterSym, emitAll, List.replicate_succ]

/-- Settles O27, by induction on the text, over the tables it may start from. -/
theorem frequencyTableCountsTheText : Obligations.FrequencyTableCountsTheText := by
  unfold Obligations.FrequencyTableCountsTheText
  intro text s hp htotal hfreq hlen
  obtain ⟨t, hrun, hcount, hsum, hframe⟩ :=
    performCommands_syms text s hp (by simp [hfreq]) (by simpa [htotal] using hlen)
  exact ⟨t, hrun, by simpa [hfreq] using hcount, by simpa [htotal] using hsum, hframe⟩

end Sys2Proof.Machine

/-! The command port (spec 20_memory.md): a step performs the next thing presented (R70), and what one caller is
answered in phase READY while other callers' commands are interleaved with its own (R75). -/

namespace Sys2Proof

/-! ### Words and the commands they encode -/

theorem commandWord_of_fields {w : CmdWord} {op : BitVec 4} {arg : BitVec 12} (ho : (opField w).toNat = op.toNat)
    (ha : argField w = arg) : commandWord op arg = w := by
  rw [← ha, ← BitVec.eq_of_toNat_eq ho, commandWord_fields]

/-- A word that decodes to a command is the word of that command (R80 to R82). -/
theorem encode_of_decode {w : CmdWord} {i : Instr} (h : decode w = .ok i) : encode i = w := by
  unfold decode at h
  split at h
  case h_15 => cases h
  case h_1 | h_3 | h_4 | h_5 | h_6 | h_9 =>
    obtain ⟨x, rfl, ha⟩ := withOperand_eq_ok h
    exact commandWord_of_fields ‹_› (by rw [ha, BitVec.of_length_zero (x := x)]; rfl)
  all_goals
    obtain ⟨x, rfl, ha⟩ := withOperand_eq_ok h
    exact commandWord_of_fields ‹_› ha

/-- A word is the word of a command, or no command's. -/
theorem encode_or_illegal (w : CmdWord) : (∃ i, w = encode i) ∨ ∃ e, decode w = .error e := by
  cases h : decode w with
  | ok i => exact .inl ⟨i, (encode_of_decode h).symm⟩
  | error e => exact .inr ⟨e, rfl⟩

end Sys2Proof

namespace Sys2Proof.Machine

theorem performWord_of_ok {w : CmdWord} {i : Instr} (h : decode w = .ok i) (s : State) :
    performWord w s = exec i s := by
  simp [performWord, h]

theorem performWord_of_error {w : CmdWord} {e : Reject} (h : decode w = .error e) (s : State) :
    performWord w s = raise .illegalCommand s := by
  simp [performWord, h]

theorem performWord_encode (i : Instr) : performWord (encode i) = exec i :=
  funext (performWord_of_ok (decode_encode i))

/-- The words of a decode call are those of its inputs (R151). -/
theorem isDecodeWord_iff {w : CmdWord} : isDecodeWord w = true ↔ ∃ x : DecodeInput, w = encode x.command := by
  simp only [isDecodeWord, isDbitWord, Bool.or_eq_true, beq_iff_eq]
  constructor
  · rintro ((h | h) | h)
    · exact ⟨.digit 0, h⟩
    · exact ⟨.digit 1, h⟩
    · exact ⟨.stop, h⟩
  · rintro ⟨b | _, h⟩
    · rcases digit_cases b with rfl | rfl
      · exact .inl (.inl h)
      · exact .inl (.inr h)
    · exact .inr h

/-! ### A step (R70) -/

theorem step_idle {s : State} (h : s.port = []) : step s = .next s := by
  simp [step, performNext, h]

theorem step_of_port {s : State} {e : HostEvent} {rest : List HostEvent} (h : s.port = e :: rest) :
    step s = performEvent e { s with port := rest } := by
  simp [step, performNext, h]

/-- Settles O7: a step takes the first event off the port, and a word is performed as it decodes. -/
theorem stepPerformsTheNextEvent : Obligations.StepPerformsTheNextEvent := by
  unfold Obligations.StepPerformsTheNextEvent
  intro s rest
  refine ⟨fun w i hs hw => ?_, fun w e hs hw => ?_, fun hs => ?_, step_idle⟩
  · exact (step_of_port hs).trans (performWord_of_ok hw _)
  · exact (step_of_port hs).trans (performWord_of_error hw _)
  · exact step_of_port hs

/-! ### Groups of responses (R88) -/

/-- The responses to one command: a terminator after words that are none. -/
def IsGroup (g : List RespWord) : Prop :=
  ∃ body last, g = body ++ [last] ∧ isTerminator last = true ∧ ∀ r ∈ body, isTerminator r = false

theorem performWord_group {w : CmdWord} {s t : State} (h : performWord w s = .next t) :
    ∃ g, IsGroup g ∧ t.resp = s.resp ++ g := by
  rcases performWord_ends h with he | hd
  · obtain ⟨e, hr⟩ := he.resp
    exact ⟨_, ⟨[], _, rfl, isTerminator_of_isErr (isErr_err _ _), by simp⟩, hr⟩
  · obtain ⟨rs, hdata, hr⟩ := hd.resp
    refine ⟨_, ⟨_, _, rfl, by decide, fun r hmem => ?_⟩, hr⟩
    obtain ⟨x, hx, rfl⟩ := List.mem_map.mp hmem
    exact isTerminator_of_isData (hdata x hx)

/-- The responses to the first command are the call's own when the command is. -/
theorem ownResponses_cons {g : List RespWord} (hg : IsGroup g) (b : Bool) (own : List Bool) (rest : List RespWord) :
    ownResponses (b :: own) (g ++ rest) = (if b then g else []) ++ ownResponses own rest := by
  obtain ⟨body, last, rfl, hl, hb⟩ := hg
  rw [ownResponses, responseGroups_append hl hb, List.zip_cons_cons, List.filter_cons]
  cases b <;> rfl

/-! ### What READY answers from (R52, R75) -/

section

variable {s t u : State}

theorem SameTables.refl (s : State) : SameTables s s := rfl

theorem SameTables.symm (h : SameTables s u) : SameTables u s := by
  unfold SameTables; rw [h]

theorem SameTables.trans (h : SameTables s t) (h' : SameTables t u) : SameTables s u := by
  unfold SameTables; rw [h', h]

theorem SameTables.codeOperand_eq (h : SameTables s u) (c : Symbol) : codeOperand c u = codeOperand c s := by
  rw [h]; rfl

theorem SameTables.freqOperand_eq (h : SameTables s u) (c : Symbol) : freqOperand c u = freqOperand c s := by
  rw [h]; rfl

theorem SameTables.nodeOperand_eq (h : SameTables s u) (i : NodeIdx) : nodeOperand i u = nodeOperand i s := by
  rw [h]; rfl

theorem SameTables.heapOperand_eq (h : SameTables s u) (j : NodeIdx) : heapOperand j u = heapOperand j s := by
  rw [h]; rfl

theorem SameTables.code_eq (h : SameTables s u) : u.code = s.code := by rw [h]

/-- In phase READY the commands of the other phases raise PhaseError (R176). -/
theorem exec_ready_phaseError {i : Instr} (hp : s.phase = .ready) (hi : phaseAllows i .ready s.heapn = false) :
    exec i s = raise .phaseError s := by
  cases i with
  | sym c => simp [exec, execSym, hp]
  | leaves => simp [exec, execLeaves, hp]
  | merge => simp [exec, execMerge, hp]
  | codegen => simp [exec, execCodegen, hp]
  | build => simp [exec, execBuild, hp]
  | _ => simp [phaseAllows] at hi

/-- From both states the same answer, and no other change: an error that is raised, or responses and DONE. -/
def SameAnswer (f : State → Out) (s u : State) : Prop :=
  (∃ e, f s = raise e s ∧ f u = raise e u) ∨ ∃ rs, f s = complete rs s ∧ f u = complete rs u

/-- In phase READY a command but RESET, DBIT and DEND is answered from the tables alone; RDREG from its register. -/
theorem exec_sameAnswer {i : Instr} (hp : s.phase = .ready) (h : SameTables s u) (hreset : i ≠ .reset)
    (hdec : ∀ x : DecodeInput, i ≠ x.command)
    (hreg : ∀ r, i = .rdreg r → registerOperand r u = registerOperand r s) :
    SameAnswer (exec i) s u := by
  have hu : u.phase = .ready := h.phase_eq.trans hp
  have refused (hs : phaseAllows i .ready s.heapn = false) (hu' : phaseAllows i .ready u.heapn = false) :
      SameAnswer (exec i) s u :=
    .inl ⟨_, exec_ready_phaseError hp hs, exec_ready_phaseError hu hu'⟩
  cases i with
  | reset => exact absurd rfl hreset
  | sym | leaves | merge | codegen | build => exact refused rfl rfl
  | enc c =>
    cases hc : codeOperand c s with
    | none => exact .inl ⟨.unknownSymbol c, by simp [exec, execEnc, hp, hu, h.codeOperand_eq, hc]⟩
    | some p => exact .inr ⟨bitResponses p, by simp [exec, execEnc, hp, hu, h.codeOperand_eq, hc]⟩
  | dbit b => exact absurd rfl (hdec (.digit b))
  | dend => exact absurd rfl (hdec .stop)
  | rdreg r =>
    cases hr : registerOperand r s with
    | none => exact .inl ⟨.range, by simp [exec, execRdreg, hreg r rfl, hr]⟩
    | some v => exact .inr ⟨[.data v], by simp [exec, execRdreg, hreg r rfl, hr]⟩
  | rdfreq c => exact .inr ⟨[.data (freqOperand c s)], by simp [exec, execRdfreq, h.freqOperand_eq]⟩
  | rdnode n =>
    cases hn : nodeOperand n s with
    | none => exact .inl ⟨.range, by simp [exec, execRdnode, h.nodeOperand_eq, hn]⟩
    | some x => exact .inr ⟨nodeResponses x, by simp [exec, execRdnode, h.nodeOperand_eq, hn]⟩
  | rdheap j =>
    cases hj : heapOperand j s with
    | none => exact .inl ⟨.range, by simp [exec, execRdheap, h.heapOperand_eq, hj]⟩
    | some n => exact .inr ⟨[.data (n.setWidth 32)], by simp [exec, execRdheap, h.heapOperand_eq, hj]⟩
  | rdcode c =>
    cases hc : codeOperand c s with
    | none => exact .inr ⟨[.data 0], by simp [exec, execRdcode, hp, hu, h.codeOperand_eq, hc]⟩
    | some p =>
      exact .inr ⟨.data (BitVec.ofNat 32 p.length) :: bitResponses p,
        by simp [exec, execRdcode, hp, hu, h.codeOperand_eq, hc]⟩

/-! ### Two runs in phase READY (R75) -/

/-- Both accumulators and their overflow flags are the same (R31). -/
def SameAcc (s u : State) : Prop := u.acc = s.acc ∧ u.accovf = s.accovf

/-- `u` is `s` as far as a caller's commands look in phase READY, for one that has the decoder (`own`) or has not. -/
structure Alike (own : Bool) (s u : State) : Prop where
  ready  : s.phase = .ready
  tables : SameTables s u
  acc    : own = true → SameAcc s u

/-- Both states go on, adding the same responses, and the accumulators stay the same if they were. -/
def AnswersAlike (f : State → Out) (s u : State) : Prop :=
  ∃ s' u' g, f s = .next s' ∧ f u = .next u' ∧ s'.resp = s.resp ++ g ∧ u'.resp = u.resp ++ g ∧
    (SameAcc s u → SameAcc s' u')

theorem SameAnswer.answersAlike {f : State → Out} (h : SameAnswer f s u) : AnswersAlike f s u := by
  obtain ⟨e, hs, hu⟩ | ⟨rs, hs, hu⟩ := h
  · exact ⟨_, _, _, hs, hu, rfl, rfl, id⟩
  · exact ⟨_, _, _, hs, hu, rfl, rfl, id⟩

theorem SameAnswer.keeps_acc {f : State → Out} (h : SameAnswer f s u) (hf : f s = .next t) : SameAcc s t := by
  obtain ⟨e, hs, -⟩ | ⟨rs, hs, -⟩ := h
  · cases hs.symm.trans hf; exact ⟨rfl, rfl⟩
  · cases hs.symm.trans hf; exact ⟨rfl, rfl⟩

/-- DBIT and DEND look at the code table and the accumulator (R147 to R149). -/
theorem exec_decode_answersAlike (x : DecodeInput) (hp : s.phase = .ready) (h : SameTables s u) (ha : SameAcc s u) :
    AnswersAlike (exec x.command) s u := by
  have hu : u.phase = .ready := h.phase_eq.trans hp
  obtain ⟨hacc, hovf⟩ := ha
  have hlen : u.acclen = s.acclen := congrArg List.length hacc
  cases x with
  | digit b =>
    have happ : appendDigit b u = appendDigit b s := congrArg (· ++ [b]) hacc
    simp only [AnswersAlike, DecodeInput.command, exec, execDbit, hp, hu, hlen, hovf, happ, h.code_eq, ne_eq,
      not_true_eq_false, if_false]
    split
    · exact ⟨_, _, _, rfl, rfl, rfl, rfl, fun _ => ⟨hacc, rfl⟩⟩
    · split
      · exact ⟨_, _, _, rfl, rfl, rfl, rfl, fun _ => ⟨rfl, rfl⟩⟩
      · exact ⟨_, _, _, rfl, rfl, rfl, rfl, fun _ => ⟨rfl, rfl⟩⟩
  | stop =>
    simp only [AnswersAlike, DecodeInput.command, exec, execDend, hp, hu, hlen, ne_eq, not_true_eq_false, if_false]
    split
    · exact ⟨_, _, _, rfl, rfl, rfl, rfl, fun _ => ⟨rfl, rfl⟩⟩
    · exact ⟨_, _, _, rfl, rfl, rfl, rfl, id⟩

/-- In phase READY a word but RESET, DBIT and DEND is answered from the tables alone (R52), RDREG from its register, an
illegal word from neither (R175). -/
theorem performWord_sameAnswer {w : CmdWord} (hp : s.phase = .ready) (h : SameTables s u) (hreset : w ≠ encode .reset)
    (hdec : isDecodeWord w = false)
    (hreg : ∀ r, w = encode (.rdreg r) → registerOperand r u = registerOperand r s) :
    SameAnswer (performWord w) s u := by
  rcases encode_or_illegal w with ⟨i, rfl⟩ | ⟨e, he⟩
  · rw [performWord_encode]
    refine exec_sameAnswer hp h (by rintro rfl; exact hreset rfl) (fun x hx => ?_) fun r hr => hreg r (hr ▸ rfl)
    exact Bool.eq_false_iff.mp hdec (isDecodeWord_iff.mpr ⟨x, hx ▸ rfl⟩)
  · exact .inl ⟨.illegalCommand, performWord_of_error he s, performWord_of_error he u⟩

theorem performWord_decode_answersAlike {w : CmdWord} (hw : isDecodeWord w = true) (hp : s.phase = .ready)
    (h : SameTables s u) (ha : SameAcc s u) : AnswersAlike (performWord w) s u := by
  obtain ⟨x, rfl⟩ := isDecodeWord_iff.mp hw
  rw [performWord_encode]
  exact exec_decode_answersAlike x hp h ha

/-- In phase READY a word but RESET leaves the tables. -/
theorem performWord_ready_tables {w : CmdWord} (hp : s.phase = .ready) (hreset : w ≠ encode .reset)
    (h : performWord w s = .next t) : SameTables s t :=
  performWord_ready_sameTables hp h fun hd => hreset (encode_of_decode hd).symm

/-- A word of another caller, performed in the first state only, is not noticed. -/
theorem Alike.perform_other {own : Bool} {w : CmdWord} (h : Alike own s u) (hreset : w ≠ encode .reset)
    (hdec : isDecodeWord w = true → false = own) :
    ∃ s', performWord w s = .next s' ∧ Alike own s' u := by
  have alike {s'} (hs : performWord w s = .next s') (ha : own = true → SameAcc s s') : Alike own s' u := by
    have htab := performWord_ready_tables h.ready hreset hs
    refine ⟨htab.phase_eq.trans h.ready, htab.symm.trans h.tables, fun ho => ?_⟩
    obtain ⟨ha, ho'⟩ := ha ho
    obtain ⟨hb, hp⟩ := h.acc ho
    exact ⟨hb.trans ha.symm, hp.trans ho'.symm⟩
  cases hw : isDecodeWord w with
  | true =>
    obtain ⟨s', -, -, hs, -⟩ := performWord_decode_answersAlike hw h.ready (SameTables.refl s) ⟨rfl, rfl⟩
    exact ⟨s', hs, alike hs fun ho => by simp [← hdec hw] at ho⟩
  | false =>
    have hsame := performWord_sameAnswer h.ready (SameTables.refl s) hreset hw fun _ _ => rfl
    obtain ⟨s', -, -, hs, -⟩ := hsame.answersAlike
    exact ⟨s', hs, alike hs fun _ => hsame.keeps_acc hs⟩

/-- A word of the caller, performed in both states, adds one group, the same to both streams. -/
theorem Alike.perform_own {own : Bool} {w : CmdWord} (h : Alike own s u) (hreset : w ≠ encode .reset)
    (hreg : ∀ r, w ≠ encode (.rdreg r)) (hdec : isDecodeWord w = true → true = own) :
    ∃ s' u' g, performWord w s = .next s' ∧ performWord w u = .next u' ∧ IsGroup g ∧ s'.resp = s.resp ++ g ∧
      u'.resp = u.resp ++ g ∧ Alike own s' u' := by
  have hu : u.phase = .ready := h.tables.phase_eq.trans h.ready
  have halike : AnswersAlike (performWord w) s u := by
    cases hw : isDecodeWord w with
    | true => exact performWord_decode_answersAlike hw h.ready h.tables (h.acc (hdec hw).symm)
    | false =>
      exact (performWord_sameAnswer h.ready h.tables hreset hw fun r hr => absurd hr (hreg r)).answersAlike
  obtain ⟨s', u', g, hs, hu', hg, hg', hacc⟩ := halike
  obtain ⟨g₀, hgroup, hg₀⟩ := performWord_group hs
  obtain rfl : g₀ = g := List.append_cancel_left (hg₀.symm.trans hg)
  have hs' := performWord_ready_tables h.ready hreset hs
  have hus := performWord_ready_tables hu hreset hu'
  exact ⟨s', u', g₀, hs, hu', hgroup, hg, hg', hs'.phase_eq.trans h.ready, hs'.symm.trans (h.tables.trans hus),
    fun ho => hacc (h.acc ho)⟩

end

theorem performWords_cons {w : CmdWord} {ws : List CmdWord} {s t : State} (h : performWord w s = .next t) :
    performWords (w :: ws) s = performWords ws t := by
  simp [performWords, h]

/-- All callers' words from one state and one caller's own from a state alike: the caller's responses are the same. -/
theorem Alike.performWords {own : Bool} : ∀ (cs : List (Bool × CmdWord)) {s u : State}, Alike own s u →
    (∀ x ∈ cs, x.2 ≠ encode .reset) → (∀ x ∈ cs, x.1 = true → ∀ r, x.2 ≠ encode (.rdreg r)) →
    (∀ x ∈ cs, isDecodeWord x.2 = true → x.1 = own) →
    ∃ t v rs, performWords (cs.map (fun x => x.2)) s = .next t ∧
      performWords ((cs.filter (fun x => x.1)).map (fun x => x.2)) u = .next v ∧
      t.resp = s.resp ++ rs ∧ v.resp = u.resp ++ ownResponses (cs.map (fun x => x.1)) rs
  | [], s, u, _, _, _, _ => ⟨s, u, [], rfl, rfl, by simp, by simp [ownResponses]⟩
  | (false, w) :: cs, s, u, h, hreset, hreg, hdec => by
    simp only [List.forall_mem_cons] at hreset hreg hdec
    obtain ⟨s', hs, halike⟩ := h.perform_other hreset.1 hdec.1
    obtain ⟨g, hg, hresp⟩ := performWord_group hs
    obtain ⟨t, v, rs, ht, hv, hrt, hrv⟩ := halike.performWords cs hreset.2 hreg.2 hdec.2
    refine ⟨t, v, g ++ rs, (performWords_cons hs).trans ht, hv, by rw [hrt, hresp, List.append_assoc], ?_⟩
    rw [List.map_cons, ownResponses_cons hg]
    exact hrv
  | (true, w) :: cs, s, u, h, hreset, hreg, hdec => by
    simp only [List.forall_mem_cons] at hreset hreg hdec
    obtain ⟨s', u', g, hs, hu, hg, hrs, hru, halike⟩ := h.perform_own hreset.1 (hreg.1 trivial) hdec.1
    obtain ⟨t, v, rs, ht, hv, hrt, hrv⟩ := halike.performWords cs hreset.2 hreg.2 hdec.2
    refine ⟨t, v, g ++ rs, (performWords_cons hs).trans ht, (performWords_cons hu).trans hv,
      by rw [hrt, hrs, List.append_assoc], ?_⟩
    rw [List.map_cons, ownResponses_cons hg, hrv, hru, List.append_assoc, if_pos rfl]

/-- Settles O56: a state is alike to itself, and its caller is answered the same from states that are alike. -/
theorem interleavedCommandsAnswerAsAlone : Obligations.InterleavedCommandsAnswerAsAlone := by
  unfold Obligations.InterleavedCommandsAnswerAsAlone
  rintro cs s - hp hreset hreg ⟨own, hdec⟩
  have halike : Alike own s s := ⟨hp, SameTables.refl s, fun _ => ⟨rfl, rfl⟩⟩
  obtain ⟨t, v, rs, ht, hv, hrt, hrv⟩ := halike.performWords cs hreset hreg hdec
  exact ⟨t, v, ht, hv, by rw [newResponses_eq hrt, newResponses_eq hrv]⟩

end Sys2Proof.Machine

/-! Command words and responses (spec 30_encoding.md): the decoder, the encoder and the opcode map (R80 to R83), the
response words and the groups they form (R86 to R88), and the calls ENCODE and CODETABLE (R91). -/

namespace Sys2Proof

/-! ### Decoding and encoding (R80, R81) -/

/-- Settles O1: each word is split into its fields and its operand read. -/
theorem decodesWrittenOutWords : Obligations.DecodesWrittenOutWords := by
  unfold Obligations.DecodesWrittenOutWords
  decide

/-- Settles O2: the fields of a command's word are its opcode and its operand, which fits. -/
theorem decodeOfEncodeGivesTheInstruction : Obligations.DecodeOfEncodeGivesTheInstruction := by
  unfold Obligations.DecodeOfEncodeGivesTheInstruction
  intro i _
  exact Machine.decode_encode i

/-- Settles O3: an accepted word has the opcode of its command, and its ARG is the operand alone. -/
theorem encodeOfDecodeGivesTheWord : Obligations.EncodeOfDecodeGivesTheWord := by
  unfold Obligations.EncodeOfDecodeGivesTheWord
  intro w i h
  exact encode_of_decode h

/-- The one word that decodes to a command is the command's. -/
theorem decode_eq_ok_iff {w : CmdWord} {i : Instr} : decode w = .ok i ↔ w = encode i :=
  ⟨fun h => (encode_of_decode h).symm, fun h => h ▸ Machine.decode_encode i⟩

theorem eq_commandWord_iff {w : CmdWord} {op : BitVec 4} {arg : BitVec 12} :
    w = commandWord op arg ↔ opField w = op ∧ argField w = arg := by
  rw [← commandWord_inj, commandWord_fields]

/-- A word decodes to a command exactly when its fields are those of the command's word. -/
theorem decode_iff_fields {i : Instr} {op : BitVec 4} {arg : BitVec 12} (h : encode i = commandWord op arg)
    {w : CmdWord} : decode w = .ok i ↔ opField w = op ∧ argField w = arg := by
  rw [decode_eq_ok_iff, h, eq_commandWord_iff]

/-- Settles O5: by the fields of each command's word. -/
theorem operandIsTheLowBitsOfArg : Obligations.OperandIsTheLowBitsOfArg := by
  unfold Obligations.OperandIsTheLowBitsOfArg
  intro w
  exact ⟨decode_iff_fields rfl, fun _ => decode_iff_fields rfl, decode_iff_fields rfl, decode_iff_fields rfl,
    decode_iff_fields rfl, decode_iff_fields rfl, fun _ => decode_iff_fields rfl, fun _ => decode_iff_fields rfl,
    decode_iff_fields rfl, fun _ => decode_iff_fields rfl, fun _ => decode_iff_fields rfl,
    fun _ => decode_iff_fields rfl, fun _ => decode_iff_fields rfl, fun _ => decode_iff_fields rfl⟩

/-! ### The opcode map (R82) -/

/-- The row of a command accepts the command's word. -/
theorem encode_masked (i : Instr) : encode i &&& (opRow i).mask = (opRow i).pattern := by
  have h : Laws.RowAccepts.Statement i := by
    cases i with
    | reset => exact Laws.RowAccepts.reset
    | sym c => exact Laws.RowAccepts.sym c
    | leaves => exact Laws.RowAccepts.leaves
    | merge => exact Laws.RowAccepts.merge
    | codegen => exact Laws.RowAccepts.codegen
    | build => exact Laws.RowAccepts.build
    | enc c => exact Laws.RowAccepts.enc c
    | dbit b => exact Laws.RowAccepts.dbit b
    | dend => exact Laws.RowAccepts.dend
    | rdreg r => exact Laws.RowAccepts.rdreg r
    | rdfreq c => exact Laws.RowAccepts.rdfreq c
    | rdnode n => exact Laws.RowAccepts.rdnode n
    | rdheap j => exact Laws.RowAccepts.rdheap j
    | rdcode c => exact Laws.RowAccepts.rdcode c
  exact beq_iff_eq.mp h.1

/-- An ARG that is zero above its low `n` bits is an operand of `n` bits. -/
theorem exists_operand {n : Nat} {arg : BitVec 12} (h : arg >>> n = 0#12) : ∃ x : BitVec n, arg = x.setWidth 12 :=
  ⟨arg.setWidth n, operand_eq_ok (if_pos h)⟩

/-- The mask that leaves out the low `n` bits of ARG. -/
def highMask (n : Nat) : BitVec 12 := BitVec.allOnes 12 <<< n

theorem ushiftRight_of_highMask {n : Nat} {arg : BitVec 12} (h : arg &&& highMask n = 0#12) : arg >>> n = 0#12 := by
  ext i hi
  have hbit : (arg &&& highMask n).getLsbD (n + i) = false := by rw [h, BitVec.getLsbD_zero]
  rw [BitVec.getElem_ushiftRight, BitVec.getElem_zero]
  by_cases hlt : n + i < 12
  · simp only [highMask, BitVec.getLsbD_and, BitVec.getLsbD_shiftLeft, BitVec.getLsbD_allOnes] at hbit
    simpa [hlt, hi] using hbit
  · exact BitVec.getLsbD_of_ge arg (n + i) (by omega)

/-- A word that a row fixes in all but an operand of `n` bits is the word of a command of the row. -/
theorem exists_of_masked {n : Nat} {op : BitVec 4} {r : OpRow} {w : CmdWord} (mk : BitVec n → Instr)
    (hrow : ∀ x, opRow (mk x) = r) (hmk : ∀ x, encode (mk x) = commandWord op (x.setWidth 12))
    (hmask : r.mask = commandWord 0xF#4 (highMask n)) (hpattern : r.pattern = commandWord op 0#12)
    (h : w &&& r.mask = r.pattern) : ∃ i, decode w = .ok i ∧ opRow i = r := by
  rw [hmask, hpattern, ← commandWord_fields w, masked_commandWord] at h
  obtain ⟨x, hx⟩ := exists_operand (ushiftRight_of_highMask h.2)
  exact ⟨mk x, (decode_iff_fields (hmk x)).mpr ⟨h.1, hx⟩, hrow x⟩

/-- A word that a row fixes in every bit is the word of the row's command. -/
theorem exists_of_pattern {j : Instr} {w : CmdWord} (hmask : (opRow j).mask = BitVec.allOnes 16)
    (hpattern : (opRow j).pattern = encode j) (h : w &&& (opRow j).mask = (opRow j).pattern) :
    ∃ i, decode w = .ok i ∧ opRow i = opRow j := by
  rw [hmask, hpattern, BitVec.and_allOnes] at h
  exact ⟨j, decode_eq_ok_iff.mpr h, rfl⟩

/-- A word that meets the mask and the match of a command's row is the word of a command of that row. -/
theorem exists_of_accepted (j : Instr) {w : CmdWord} (h : w &&& (opRow j).mask = (opRow j).pattern) :
    ∃ i, decode w = .ok i ∧ opRow i = opRow j := by
  cases j with
  | sym c => exact exists_of_masked .sym (fun _ => rfl) (fun _ => rfl) rfl rfl h
  | enc c => exact exists_of_masked .enc (fun _ => rfl) (fun _ => rfl) rfl rfl h
  | dbit b => exact exists_of_masked .dbit (fun _ => rfl) (fun _ => rfl) rfl rfl h
  | rdreg r => exact exists_of_masked .rdreg (fun _ => rfl) (fun _ => rfl) rfl rfl h
  | rdfreq c => exact exists_of_masked .rdfreq (fun _ => rfl) (fun _ => rfl) rfl rfl h
  | rdnode n => exact exists_of_masked .rdnode (fun _ => rfl) (fun _ => rfl) rfl rfl h
  | rdheap j => exact exists_of_masked .rdheap (fun _ => rfl) (fun _ => rfl) rfl rfl h
  | rdcode c => exact exists_of_masked .rdcode (fun _ => rfl) (fun _ => rfl) rfl rfl h
  | reset | leaves | merge | codegen | build | dend => exact exists_of_pattern rfl rfl h

theorem exists_opRow : ∀ r ∈ opcodeMap, ∃ j, opRow j = r := by
  simp [opcodeMap]

theorem opRow_mem (i : Instr) : opRow i ∈ opcodeMap := by
  cases i <;> simp [opcodeMap, opRow]

theorem decode_unassigned {w : CmdWord} (h : opField w = 0x0#4 ∨ opField w = 0xF#4) :
    decode w = .error .unassignedOpcode := by
  rcases h with h | h <;> simp [decode, h]

/-- Settles O4: a row accepts the words of its commands, and no others. -/
theorem decoderFollowsTheOpcodeMap : Obligations.DecoderFollowsTheOpcodeMap := by
  unfold Obligations.DecoderFollowsTheOpcodeMap
  refine ⟨fun w r hr => ⟨fun h => ?_, ?_⟩, fun _ i _ => opRow_mem i, rfl, by decide, fun _ => decode_unassigned⟩
  · obtain ⟨j, rfl⟩ := exists_opRow r hr
    exact exists_of_accepted j h
  · rintro ⟨i, hd, rfl⟩
    rw [decode_eq_ok_iff.mp hd, encode_masked]

end Sys2Proof

namespace Sys2Proof.Machine

/-! ### Response words (R86, R87) -/

theorem responseWord_fields (tag : BitVec 4) (payload : BitVec 32) :
    tagOf (responseWord tag payload) = tag ∧ payloadOf (responseWord tag payload) = payload :=
  ⟨tagOf_responseWord tag payload, payloadOf_responseWord tag payload⟩

theorem payloadOf_err_lowByte (code : BitVec 3) (info : Symbol) :
    (payloadOf (encodeResponse (.err code info))).extractLsb' 0 8 = code.setWidth 8 := by
  ext i hi
  simp only [encodeResponse, payloadOf_responseWord, BitVec.getElem_extractLsb', BitVec.getLsbD_or,
    BitVec.getLsbD_shiftLeft, BitVec.getLsbD_setWidth, BitVec.getElem_setWidth]
  simp [hi, show i < 32 by omega]

theorem payloadOf_err_highBits (code : BitVec 3) (info : Symbol) :
    (payloadOf (encodeResponse (.err code info))).extractLsb' 16 16 = 0#16 := by
  ext i hi
  simp only [encodeResponse, payloadOf_responseWord, BitVec.getElem_extractLsb', BitVec.getLsbD_or,
    BitVec.getLsbD_shiftLeft, BitVec.getLsbD_setWidth, BitVec.getElem_zero]
  simp [BitVec.getLsbD_of_ge code (16 + i) (by omega), BitVec.getLsbD_of_ge info (16 + i - 8) (by omega)]

/-- Only UnknownSymbolError, code 2, carries a symbol (R171). -/
theorem errInfo_eq_zero {e : ErrKind} (h : errCode e ≠ 2#3) : errInfo e = 0 := by
  cases e with
  | unknownSymbol c => exact absurd rfl h
  | _ => rfl

/-- A response that some command may add: an ERR names an error, and a symbol only with code 2 (R87, R171). -/
def Response.IsProduced (r : Response) : Prop :=
  ∀ code info, .err code info = r → code ≠ 0 ∧ (code ≠ 2#3 → info = 0)

theorem isProduced_err (e : ErrKind) : (Response.err (errCode e) (errInfo e)).IsProduced := by
  rintro code info ⟨⟩
  exact ⟨errCode_ne_zero e, errInfo_eq_zero⟩

theorem isProduced_of_isData {r : Response} (h : r.isData = true) : r.IsProduced := by
  rintro code info rfl
  simp [Response.isData] at h

theorem isProduced_done : Response.done.IsProduced := nofun

/-- What a word adds to the stream are the words of responses that commands produce. -/
theorem performWord_responses {w : CmdWord} {s t : State} (h : performWord w s = .next t) :
    ∃ rs : List Response, t.resp = s.resp ++ rs.map encodeResponse ∧ ∀ r ∈ rs, r.IsProduced := by
  rcases performWord_ends h with he | hd
  · obtain ⟨e, hr⟩ := he.resp
    exact ⟨[_], hr, by simpa using isProduced_err e⟩
  · obtain ⟨rs, hdata, hr⟩ := hd.resp
    refine ⟨rs ++ [.done], by simpa using hr, fun r hmem => ?_⟩
    rcases List.mem_append.mp hmem with hmem | hmem
    · exact isProduced_of_isData (hdata r hmem)
    · exact List.mem_singleton.mp hmem ▸ isProduced_done

/-- Settles O10: by the fields of a response word, and by what a word adds to the stream. -/
theorem responseWordsHaveTheirFormat : Obligations.ResponseWordsHaveTheirFormat := by
  unfold Obligations.ResponseWordsHaveTheirFormat
  refine ⟨responseWord_fields _ _, fun code info => ⟨tagOf_responseWord _ _, payloadOf_err_lowByte code info,
    payloadOf_err_info code info, payloadOf_err_highBits code info⟩, fun _ => responseWord_fields _ _,
    fun _ => responseWord_fields _ _, fun _ => responseWord_fields _ _, fun w s t h => ?_⟩
  obtain ⟨rs, hresp, hproduced⟩ := performWord_responses h
  refine ⟨rs, hresp, fun r hr => ?_, fun code info hmem => hproduced _ hmem code info rfl⟩
  obtain ⟨x, -, rfl⟩ := List.mem_map.mp hr
  exact tag_le x

/-! ### One group per word (R88) -/

theorem responseGroups_cons {g : List RespWord} (hg : IsGroup g) (rest : List RespWord) :
    responseGroups (g ++ rest) = g :: responseGroups rest := by
  obtain ⟨body, last, rfl, hl, hb⟩ := hg
  exact responseGroups_append hl hb rest

/-- Groups put one after the other are cut apart again. -/
theorem responseGroups_flatten : ∀ {gs : List (List RespWord)}, (∀ g ∈ gs, IsGroup g) →
    responseGroups gs.flatten = gs
  | [], _ => rfl
  | g :: gs, h => by
    obtain ⟨hg, hgs⟩ := List.forall_mem_cons.mp h
    rw [List.flatten_cons, responseGroups_cons hg, responseGroups_flatten hgs]

/-- A word whose last response is an ERR adds no other. -/
theorem performWord_err_alone {w : CmdWord} {s t : State} (h : performWord w s = .next t) {body : List RespWord}
    {last : RespWord} (hr : t.resp = s.resp ++ (body ++ [last])) (hl : isErr last = true) : body = [] := by
  rcases performWord_ends h with he | hd
  · obtain ⟨e, he⟩ := he.resp
    have hone := List.append_cancel_left (hr.symm.trans he)
    simpa using congrArg List.length hone
  · have hne := hd.endedInErr
    simp [endedInErr, hr, hl] at hne

/-- Settles O14: a word adds one group, and a group that ends in ERR is the ERR alone. -/
theorem oneTerminatorEndsEveryCommand : Obligations.OneTerminatorEndsEveryCommand := by
  unfold Obligations.OneTerminatorEndsEveryCommand
  intro w s t h
  obtain ⟨g, hg, hr⟩ := performWord_group h
  have hone : responseGroups g = [g] := by simpa using responseGroups_flatten (gs := [g]) (by simpa using hg)
  obtain ⟨body, last, rfl, hl, hb⟩ := hg
  exact ⟨body, last, hr, hl, hb, performWord_err_alone h hr, hone⟩

/-! ### Runs of words (R208, R214) -/

section

variable {s : State}

theorem completeBody_next {b : Except Fault State} {u : State} (h : b = .ok u) : ∃ t, completeBody b = .next t := by
  rw [h]; exact ⟨_, rfl⟩

theorem execLeaves_next (h : Inv s) : ∃ t, execLeaves s = .next t := by
  unfold execLeaves
  split
  · exact ⟨_, rfl⟩
  · rename_i hp
    split
    · exact ⟨_, rfl⟩
    · obtain ⟨u, hu, -⟩ := inv_leavesBody h (not_not.mp hp) ‹_›
      exact completeBody_next hu

theorem execMerge_next (h : Inv s) : ∃ t, execMerge s = .next t := by
  unfold execMerge
  split
  · exact ⟨_, rfl⟩
  · rename_i hp
    simp only [ne_eq, not_or, not_not, not_lt] at hp
    obtain ⟨u, _, _, hu, -⟩ := inv_mergeBody h hp.1 hp.2
    exact completeBody_next hu

theorem execCodegen_next (h : Inv s) : ∃ t, execCodegen s = .next t := by
  unfold execCodegen
  split
  · exact ⟨_, rfl⟩
  · rename_i hp
    simp only [ne_eq, not_or, not_not] at hp
    obtain ⟨u, hu, -⟩ := inv_codegenBody h hp.1 hp.2
    exact completeBody_next hu

theorem execBuild_next (h : Inv s) : ∃ t, execBuild s = .next t := by
  unfold execBuild
  split
  · exact ⟨_, rfl⟩
  · rename_i hp
    split
    · exact ⟨_, rfl⟩
    · obtain ⟨u, hu, -⟩ := inv_buildBody h (not_not.mp hp) ‹_›
      exact completeBody_next hu

theorem execDbit_next (b : Digit) (s : State) : ∃ t, execDbit b s = .next t := by
  unfold execDbit
  split
  · exact ⟨_, rfl⟩
  · split
    · exact ⟨_, rfl⟩
    · split <;> exact ⟨_, rfl⟩

/-- Every command has a next state where the invariant holds: only the bodies of the construction commands can
fault, and there they do not (R191). -/
theorem exec_next (h : Inv s) (i : Instr) : ∃ t, exec i s = .next t := by
  cases i with
  | leaves => exact execLeaves_next h
  | merge => exact execMerge_next h
  | codegen => exact execCodegen_next h
  | build => exact execBuild_next h
  | dbit b => exact execDbit_next b s
  | reset | rdfreq c => exact ⟨_, rfl⟩
  | rdreg n | rdnode n | rdheap n =>
    simp only [exec, execRdreg, execRdnode, execRdheap]
    split <;> exact ⟨_, rfl⟩
  | sym c | enc c | dend | rdcode c =>
    simp only [exec, execSym, execEnc, execDend, execRdcode]
    split
    · exact ⟨_, rfl⟩
    · split <;> exact ⟨_, rfl⟩

theorem performWord_next (h : Inv s) (w : CmdWord) : ∃ t, performWord w s = .next t := by
  cases hd : decode w with
  | ok i => rw [performWord_of_ok hd]; exact exec_next h i
  | error e => exact ⟨_, performWord_of_error hd s⟩

end

/-- A run of words ends, keeps the invariant and adds one group of responses for each word. -/
theorem performWords_groups : ∀ (ws : List CmdWord) {s : State}, Inv s →
    ∃ (t : State) (gs : List (List RespWord)), performWords ws s = .next t ∧ Inv t ∧ t.resp = s.resp ++ gs.flatten ∧
      (∀ g ∈ gs, IsGroup g) ∧ gs.length = ws.length
  | [], s, h => ⟨s, [], rfl, h, by simp, by simp, rfl⟩
  | w :: ws, s, h => by
    obtain ⟨u, hu⟩ := performWord_next h w
    obtain ⟨g, hg, hgr⟩ := performWord_group hu
    obtain ⟨t, gs, ht, hi, hr, hgs, hlen⟩ := performWords_groups ws (performWord_keeps_inv h hu)
    exact ⟨t, g :: gs, (performWords_cons hu).trans ht, hi, by rw [hr, hgr, List.flatten_cons, List.append_assoc],
      List.forall_mem_cons.mpr ⟨hg, hgs⟩, congrArg (· + 1) hlen⟩

/-- Settles O23, by induction on the words. -/
theorem everyRunEndsWithOneGroupPerWord : Obligations.EveryRunEndsWithOneGroupPerWord := by
  unfold Obligations.EveryRunEndsWithOneGroupPerWord
  intro ws s h
  obtain ⟨t, gs, ht, hi, hr, hgs, hlen⟩ := performWords_groups ws h
  have hnew := newResponses_eq hr
  exact ⟨t, ht, hi, by rw [hnew, hr], by rw [hnew, responseGroups_flatten hgs, hlen]⟩

/-! ### ENCODE (R91, R141, R142) -/

theorem codeOf_eq {code : Vector (Option Bits) 256} {c : Symbol} {p : Bits} (h : tableGet code c = some p) :
    codeOf code c = p := by
  simp [codeOf, h]

theorem emitAll_nil (s : State) : emitAll [] s = s := by simp [emitAll]

theorem emitAll_emitAll (rs rs' : List Response) (s : State) : emitAll rs' (emitAll rs s) = emitAll (rs ++ rs') s := by
  simp [emitAll]

/-- The responses to ENC of symbols that have codes: the digits of each, and DONE (R141). -/
def encResponses (code : Vector (Option Bits) 256) (text : List Symbol) : List Response :=
  text.flatMap (fun c => bitResponses (codeOf code c) ++ [.done])

theorem encResponses_words (code : Vector (Option Bits) 256) (text : List Symbol) :
    (encResponses code text).map encodeResponse =
      text.flatMap (fun c => (codeOf code c).map (fun b => encodeResponse (.bit b)) ++ [encodeResponse .done]) := by
  simp [encResponses, bitResponses, List.map_flatMap, Function.comp_def]

section

variable {s : State} (hp : s.phase = .ready)

include hp

theorem exec_enc_known {c : Symbol} (hc : ∃ p, tableGet s.code c = some p) :
    exec (.enc c) s = .next (emitAll (bitResponses (codeOf s.code c) ++ [.done]) s) := by
  obtain ⟨p, hc⟩ := hc
  simp [exec, execEnc, hp, codeOperand, hc, codeOf_eq hc, complete]

theorem exec_enc_unknown {c : Symbol} (hc : tableGet s.code c = none) :
    exec (.enc c) s = .next (raiseState (.unknownSymbol c) s) := by
  simp [exec, execEnc, hp, codeOperand, hc, raise]

end

theorem endsInDone_complete {rs : List Response} {s : State} (h : ∀ r ∈ rs, r.isData = true) :
    EndsInDone s (emitAll (rs ++ [.done]) s) := ⟨rs, s, rfl, h, rfl, rfl⟩

/-- An ENCODE call emits the digits of the known symbols at the front of its text and goes on with the rest. -/
theorem encodeCall_known (rest : List Symbol) : ∀ (known : List Symbol) {s : State}, s.phase = .ready →
    (∀ c ∈ known, ∃ p, tableGet s.code c = some p) →
    encodeCall (known ++ rest) s = encodeCall rest (emitAll (encResponses s.code known) s)
  | [], s, _, _ => by rw [encResponses, List.flatMap_nil, emitAll_nil, List.nil_append]
  | c :: known, s, hp, h => by
    obtain ⟨hc, hknown⟩ := List.forall_mem_cons.mp h
    let s' := emitAll (bitResponses (codeOf s.code c) ++ [.done]) s
    calc encodeCall (c :: known ++ rest) s
        = encodeCall (known ++ rest) s' :=
          performUntilErr_done (exec_enc_known hp hc) (endsInDone_complete (bitResponses_isData _))
      _ = encodeCall rest (emitAll (encResponses s.code known) s') := encodeCall_known rest known hp hknown
      _ = encodeCall rest (emitAll (encResponses s.code (c :: known)) s) := by rw [emitAll_emitAll]; rfl

/-- An ENCODE call ends at a symbol that has no code. -/
theorem encodeCall_unknown {c : Symbol} {s : State} (rest : List Symbol) (hp : s.phase = .ready)
    (hc : tableGet s.code c = none) : encodeCall (c :: rest) s = .next (raiseState (.unknownSymbol c) s) :=
  performUntilErr_err (exec_enc_unknown hp hc) (endsInErr_raise (by simp))

theorem ReadyState.code_eq_none {s : State} (h : ReadyState s) {c : Symbol} (hc : tableGet s.freq c = 0) :
    tableGet s.code c = none := by
  rw [Option.eq_none_iff_forall_ne_some]
  exact fun p hp => (h.valid_iff c).mp ⟨p, hp⟩ hc

theorem encodeResult_err (rs : List RespWord) (code : BitVec 3) (info : Symbol) :
    encodeResult (rs ++ [encodeResponse (.err code info)]) = none := by
  simp [encodeResult, isErr_err]

/-- Settles O54: the call passes the symbols before the unknown one, and the ERR of that one ends it. -/
theorem encodeStopsAtTheFirstUnknownSymbol : Obligations.EncodeStopsAtTheFirstUnknownSymbol := by
  unfold Obligations.EncodeStopsAtTheFirstUnknownSymbol
  intro before rest c s h hp hbefore hc
  have hready := h.ready hp
  have hrun := encodeCall_known (c :: rest) before hp fun d hd => (hready.valid_iff d).mpr (hbefore d hd)
  have hend := encodeCall_unknown (s := emitAll (encResponses s.code before) s) rest hp (hready.code_eq_none hc)
  have hnew : newResponses s (raiseState (.unknownSymbol c) (emitAll (encResponses s.code before) s)) =
      (encResponses s.code before).map encodeResponse ++ [encodeResponse (.err 2#3 c)] :=
    newResponses_eq (List.append_assoc _ _ _)
  refine ⟨_, hrun.trans hend, by rw [hnew, encResponses_words], by rw [hnew, encodeResult_err], ?_⟩
  rw [hnew, ← List.append_assoc]
  rfl

/-! ### CODETABLE (R91, R136) -/

/-- The responses to RDCODE of a symbol, its code's length 0 where it has none (R136). -/
def rdcodeResponses (code : Vector (Option Bits) 256) (c : Symbol) : List Response :=
  .data (BitVec.ofNat 32 (codeOf code c).length) :: bitResponses (codeOf code c) ++ [.done]

theorem exec_rdcode_ready {s : State} (hp : s.phase = .ready) (c : Symbol) :
    exec (.rdcode c) s = .next (emitAll (rdcodeResponses s.code c) s) := by
  simp only [exec, execRdcode, hp, codeOperand, rdcodeResponses, codeOf]
  cases tableGet s.code c <;> rfl

theorem performCommands_rdcodes : ∀ (cs : List Symbol) {s : State}, s.phase = .ready →
    performCommands (cs.map .rdcode) s = .next (emitAll (cs.flatMap (rdcodeResponses s.code)) s)
  | [], s, _ => by rw [List.flatMap_nil, emitAll_nil]; rfl
  | c :: cs, s, hp => by
    have hrest := performCommands_rdcodes cs (s := emitAll (rdcodeResponses s.code c) s) hp
    rw [List.map_cons, performCommands_cons (exec_rdcode_ready hp c), hrest, emitAll_emitAll]
    rfl

/-- The words that answer RDCODE of a symbol. -/
def rdcodeGroup (code : Vector (Option Bits) 256) (c : Symbol) : List RespWord :=
  (rdcodeResponses code c).map encodeResponse

section

variable (code : Vector (Option Bits) 256)

theorem isGroup_rdcodeGroup (c : Symbol) : IsGroup (rdcodeGroup code c) := by
  refine ⟨_, _, List.map_append, by decide, fun r hr => ?_⟩
  obtain ⟨x, hx, rfl⟩ := List.mem_map.mp hr
  rcases List.mem_cons.mp hx with rfl | hx
  · exact isTerminator_of_isData rfl
  · exact isTerminator_of_isData (bitResponses_isData _ x hx)

theorem rdcodeGroup_no_err (c : Symbol) : (rdcodeGroup code c).any isErr = false := by
  simp [rdcodeGroup, rdcodeResponses, bitResponses, encodeResponse, isErr]

/-- The host reads a code's digits back from the BIT words. -/
theorem bitPayloads_bitResponses (p : Bits) : bitPayloads ((bitResponses p).map encodeResponse) = p := by
  simp [bitPayloads, bitResponses, encodeResponse, List.filter_map, Function.comp_def]

theorem bitPayloads_rdcodeGroup (c : Symbol) : bitPayloads (rdcodeGroup code c) = codeOf code c := by
  have hdata : tagOf (encodeResponse (.data (BitVec.ofNat 32 (codeOf code c).length))) = 4#4 := tagOf_responseWord _ _
  have hdone : tagOf (encodeResponse .done) = 0#4 := tagOf_responseWord _ _
  have hbits := bitPayloads_bitResponses (codeOf code c)
  simpa [rdcodeGroup, rdcodeResponses, bitPayloads, hdata, hdone] using hbits

/-- The mapping CODETABLE gives: each symbol whose code has a digit, with its code. -/
def codeMapping : List (Symbol × Bits) :=
  (allSymbols.filter (fun c => !(codeOf code c).isEmpty)).map (fun c => (c, codeOf code c))

theorem codetableResult_rdcodeGroups :
    codetableResult (allSymbols.map (rdcodeGroup code)) = some (codeMapping code) := by
  have hno : (allSymbols.map (rdcodeGroup code)).any (fun g => g.any isErr) = false := by
    simp [rdcodeGroup_no_err]
  have hzip : allSymbols.zip (allSymbols.map (rdcodeGroup code)) =
      allSymbols.map (fun c => (c, rdcodeGroup code c)) := by
    simpa using List.zip_map' (f := id) (g := rdcodeGroup code) (l := allSymbols)
  simp [codetableResult, hno, hzip, codeMapping, List.filter_map, Function.comp_def, bitPayloads_rdcodeGroup]

end

/-- In phase READY a symbol has a code with a digit exactly when it has a code. -/
theorem ReadyState.codeOf_iff {s : State} (h : ReadyState s) (c : Symbol) (p : Bits) :
    (codeOf s.code c ≠ [] ∧ codeOf s.code c = p) ↔ tableGet s.code c = some p := by
  cases hc : tableGet s.code c with
  | none => simp [codeOf, hc]
  | some q =>
    have hq : q ≠ [] := List.ne_nil_of_length_pos (h.codeLength hc).1
    simp [codeOf, hc, hq]

theorem ReadyState.mem_codeMapping {s : State} (h : ReadyState s) (c : Symbol) (p : Bits) :
    (c, p) ∈ codeMapping s.code ↔ tableGet s.code c = some p := by
  rw [← h.codeOf_iff]
  simp [codeMapping, mem_allSymbols]

theorem ReadyState.codeOf_ne_nil {s : State} (h : ReadyState s) (c : Symbol) :
    codeOf s.code c ≠ [] ↔ tableGet s.freq c ≠ 0 := by
  rw [← h.valid_iff]
  exact ⟨fun hne => ⟨_, (h.codeOf_iff c _).mp ⟨hne, rfl⟩⟩, fun ⟨p, hp⟩ => ((h.codeOf_iff c p).mpr hp).1⟩

/-- The mapping's symbols are the keys of the frequency table, in the same order (R134 (a)). -/
theorem ReadyState.codeMapping_keys {s : State} (h : ReadyState s) :
    (codeMapping s.code).map (fun e => e.1) = support s.freq := by
  simp only [codeMapping, support, List.map_map, Function.comp_def, List.map_id']
  refine List.filter_congr fun c _ => ?_
  rw [Bool.eq_iff_iff]
  simpa using h.codeOf_ne_nil c

/-- Settles O57: the stream is cut into the group of each symbol, and each group says the symbol's code. -/
theorem codetableIsTheMapping : Obligations.CodetableIsTheMapping := by
  unfold Obligations.CodetableIsTheMapping
  intro s h hp
  have hready := h.ready hp
  have hnew : newResponses s (emitAll (allSymbols.flatMap (rdcodeResponses s.code)) s) =
      (allSymbols.map (rdcodeGroup s.code)).flatten := by
    rw [newResponses_emitAll, List.map_flatMap, ← List.flatMap_def]
    rfl
  have hgroups : ∀ g ∈ allSymbols.map (rdcodeGroup s.code), IsGroup g :=
    List.forall_mem_map.mpr fun c _ => isGroup_rdcodeGroup s.code c
  refine ⟨_, codeMapping s.code, performCommands_rdcodes allSymbols hp, ?_, hready.mem_codeMapping,
    hready.codeMapping_keys, rfl⟩
  rw [hnew, responseGroups_flatten hgroups, codetableResult_rdcodeGroups]

end Sys2Proof.Machine

/-! RESET and SYM (spec 40_frequency.md): the words of their opcodes, and every outcome of each. -/

namespace Sys2Proof.Machine

/-! ### The words of one opcode (R81, R83, R175) -/

/-- An opcode whose ARG the decoder reads as one operand has the words of its commands, and the others are illegal. -/
theorem wordsMean_of_decode {op : BitVec 4} {n : Nat} {mk : BitVec n → Instr} (hn : n ≤ 12)
    (hdecode : ∀ w, opField w = op → decode w = withOperand n (argField w) mk) : wordsMean op n mk := by
  refine ⟨fun x s => performWord_of_ok ?_ s, fun w s hop harg => performWord_of_error (e := .mustBeZero) ?_ s⟩
  · have h := hdecode (commandWord op (x.setWidth 12)) (opField_commandWord _ _)
    rwa [argField_commandWord, withOperand, operand_setWidth hn] at h
  · rw [hdecode w hop, withOperand, operand_eq_error harg]

/-! ### RESET (R100) -/

/-- RESET is accepted in every state. -/
theorem exec_reset (s : State) : exec .reset s = .next (emitAll [.done] (resetBlock s)) := rfl

/-- Settles O25: the state after RESET is the reset block's with DONE added. -/
theorem resetDiscardsTheInstance : Obligations.ResetDiscardsTheInstance := by
  unfold Obligations.ResetDiscardsTheInstance
  refine ⟨wordsMean_of_decode (by decide) fun w h => by simp [decode, h], fun s => ⟨_, exec_reset s, ?_⟩⟩
  exact ⟨rfl, tableGet_replicate 0, rfl, rfl, rfl, rfl, rfl, tableGet_replicate none, rfl, rfl, rfl, rfl, rfl, rfl⟩

/-! ### SYM (R102 to R105) -/

section

variable {c : Symbol} {s : State}

theorem exec_sym_phaseError (hp : s.phase ≠ .count) : exec (.sym c) s = .next (raiseState .phaseError s) :=
  if_pos hp

theorem exec_sym_capacity (hp : s.phase = .count) (ht : s.total = 0xFFFFFFFF#32) :
    exec (.sym c) s = .next (raiseState .capacity s) :=
  (if_neg (not_not_intro hp)).trans (if_pos ht)

/-- The counts after an accepted SYM, as 32-bit words, with or without a wrap (R102). -/
theorem tableGet_afterSym (d : Symbol) :
    tableGet (afterSym c s).freq d = if d = c then tableGet s.freq c + 1 else tableGet s.freq d := by
  rw [afterSym, emitAll_freq, tableGet_tableSet]
  exact if_congr eq_comm rfl rfl

/-- Where the invariant holds, a symbol's count is at most TOTAL (R103). -/
theorem Inv.count_le_total (h : Inv s) (c : Symbol) : (tableGet s.freq c).toNat ≤ s.total.toNat :=
  h.total ▸ le_freqSum s.freq c

/-- Below the capacity the addition to a count does not wrap: FREQ[c] ≤ TOTAL ≤ 0xFFFFFFFE (R103). -/
theorem afterSym_count_succ (h : Inv s) (ht : s.total ≠ 0xFFFFFFFF#32) :
    (tableGet (afterSym c s).freq c).toNat = (tableGet s.freq c).toNat + 1 := by
  have hle := h.count_le_total c
  have htotal := total_succ ht
  have hlt := (s.total + 1).isLt
  rw [afterSym_freq (by omega), if_pos rfl]

end

/-- Settles O26: by the phase and the capacity; the additions do not wrap since no count exceeds TOTAL. -/
theorem symCountsOneOccurrence : Obligations.SymCountsOneOccurrence := by
  unfold Obligations.SymCountsOneOccurrence
  refine ⟨wordsMean_of_decode (by decide) fun w h => by simp [decode, h], fun c s => ?_⟩
  refine ⟨exec_sym_phaseError, exec_sym_capacity, fun hp ht => ?_⟩
  exact ⟨afterSym c s, execSym_accepted hp ht, tableGet_afterSym, rfl, rfl,
    fun h => ⟨afterSym_count_succ h ht, total_succ ht⟩⟩

end Sys2Proof.Machine

/-! The tree builder (spec 41_tree_builder.md): the key order and the heap primitives (R111 to R114), LEAVES, MERGE and
BUILD (R115 to R119), and what the construction ends in: a function of FREQ alone (R123), and an optimal code (R122). -/

namespace Sys2Proof.Machine

/-! ### The key order and the heap (R111 to R114) -/

theorem isSome_nodeAt_iff {nodes : List Node} {n : NodeIdx} :
    (nodeAt nodes n).isSome = true ↔ n.toNat < nodes.length := by
  simp [nodeAt]

section

variable {nodes : List Node} {m n : NodeIdx}

theorem heapLess_eq_true_iff (hm : m.toNat < nodes.length) (hn : n.toNat < nodes.length) :
    heapLess nodes m n = .ok true ↔ keyNat nodes m < keyNat nodes n := by
  simp [heapLess_eq hm hn]

theorem heapLess_eq_false_iff (hm : m.toNat < nodes.length) (hn : n.toNat < nodes.length) :
    heapLess nodes m n = .ok false ↔ keyNat nodes n ≤ keyNat nodes m := by
  simp [heapLess_eq hm hn]

/-- HeapLess on the nodes' frequencies (R111). -/
theorem heapLess_of_nodeAt {x y : Node} (hx : nodeAt nodes m = some x) (hy : nodeAt nodes n = some y) :
    heapLess nodes m n = .ok (keyLess x.freqOf m y.freqOf n) := by
  simp [heapLess, hx, hy]

end

/-- Settles O35: a node's key is one number, which no other node has, and numbers are totally ordered. -/
theorem heapLessIsAStrictTotalOrder : Obligations.HeapLessIsAStrictTotalOrder := by
  unfold Obligations.HeapLessIsAStrictTotalOrder
  intro nodes m n x y hx hy
  have hm := lt_of_nodeAt hx
  have hn := lt_of_nodeAt hy
  refine ⟨?_, (heapLess_eq_false_iff hm hm).mpr (Nat.le_refl _), fun hne => ?_, fun k z hz hmn hnk => ?_⟩
  · simp [heapLess_of_nodeAt hx hy, keyLess, BitVec.lt_def, BitVec.toNat_inj]
  · have hkey : keyNat nodes m ≠ keyNat nodes n := fun h => hne (keyNat_injective h)
    rw [heapLess_eq_true_iff hm hn, heapLess_eq_false_iff hn hm]
    omega
  · have hk := lt_of_nodeAt hz
    rw [heapLess_eq_true_iff hm hn] at hmn
    rw [heapLess_eq_true_iff hn hk] at hnk
    exact (heapLess_eq_true_iff hm hk).mpr (hmn.trans hnk)

/-- Settles O36: by what HeapInsert does to a heap of nodes that hold values. -/
theorem heapInsertAddsTheNodeAndKeepsOrder : Obligations.HeapInsertAddsTheNodeAndKeepsOrder := by
  unfold Obligations.HeapInsertAddsTheNodeAndKeepsOrder
  intro nodes n heap hheap hn hlen
  exact heapInsert_spec (fun m hm => isSome_nodeAt_iff.mp (hheap m hm)) (isSome_nodeAt_iff.mp hn) hlen

/-- Settles O37: by what HeapExtractMin does to a heap with a slot 0, whose node the heap property makes the least. -/
theorem heapExtractMinTakesTheLeast : Obligations.HeapExtractMinTakesTheLeast := by
  unfold Obligations.HeapExtractMinTakesTheLeast
  intro nodes heap hheap hne
  have hvalid : validHeap nodes heap := fun m hm => isSome_nodeAt_iff.mp (hheap m hm)
  cases heap with
  | nil => exact absurd rfl hne
  | cons r rest =>
    obtain ⟨heap', hextract, hperm, hordered⟩ := heapExtractMin_spec hvalid
    exact ⟨r, heap', hextract, rfl, (hperm.cons r).symm, fun ho => ⟨hordered ho, leastKey_root hvalid ho⟩⟩

/-! ### Every outcome of the construction commands (R115 to R117, R132) -/

section

variable {s t : State}

theorem exec_leaves_phaseError (hp : s.phase ≠ .count) : exec .leaves s = .next (raiseState .phaseError s) :=
  if_pos hp

theorem exec_leaves_emptyInput (hp : s.phase = .count) (ht : s.total = 0) :
    exec .leaves s = .next (raiseState .emptyInput s) :=
  (if_neg (not_not_intro hp)).trans (if_pos ht)

theorem exec_leaves_done (hp : s.phase = .count) (ht : s.total ≠ 0) (hbody : leavesBody s = .ok t) :
    exec .leaves s = .next (emitAll [.done] t) :=
  (if_neg (not_not_intro hp)).trans ((if_neg ht).trans (congrArg completeBody hbody))

theorem exec_merge_phaseError (h : s.phase ≠ .merge ∨ s.heapn < 2) :
    exec .merge s = .next (raiseState .phaseError s) :=
  if_pos h

theorem exec_merge_done (hp : s.phase = .merge) (h2 : 2 ≤ s.heapn) (hbody : mergeBody s = .ok t) :
    exec .merge s = .next (emitAll [.done] t) :=
  (if_neg (not_or.mpr ⟨not_not_intro hp, Nat.not_lt.mpr h2⟩)).trans (congrArg completeBody hbody)

theorem exec_codegen_done (hp : s.phase = .merge) (h1 : s.heapn = 1) (hbody : codegenBody s = .ok t) :
    exec .codegen s = .next (emitAll [.done] t) :=
  (if_neg (not_or.mpr ⟨not_not_intro hp, not_not_intro h1⟩)).trans (congrArg completeBody hbody)

theorem exec_build_phaseError (hp : s.phase ≠ .count) : exec .build s = .next (raiseState .phaseError s) :=
  if_pos hp

theorem exec_build_emptyInput (hp : s.phase = .count) (ht : s.total = 0) :
    exec .build s = .next (raiseState .emptyInput s) :=
  (if_neg (not_not_intro hp)).trans (if_pos ht)

theorem exec_build_done (hp : s.phase = .count) (ht : s.total ≠ 0) (hbody : buildBody s = .ok t) :
    exec .build s = .next (emitAll [.done] t) :=
  (if_neg (not_not_intro hp)).trans ((if_neg ht).trans (congrArg completeBody hbody))

/-- TOTAL is 0 exactly when no symbol was counted (R23). -/
theorem Inv.total_ne_zero_iff (h : Inv s) : s.total ≠ 0 ↔ support s.freq ≠ [] := by
  refine ⟨fun ht => support_ne_nil ?_, fun hne ht => ?_⟩
  · rw [← h.total]
    exact fun h0 => ht (BitVec.eq_of_toNat_eq h0)
  · obtain ⟨c, hc⟩ := List.exists_mem_of_ne_nil _ hne
    have hle := h.count_le_total c
    rw [ht] at hle
    exact mem_support.mp hc (BitVec.eq_of_toNat_eq (Nat.le_zero.mp hle))

end

/-! ### LEAVES (R115) -/

/-- A state after LEAVES on `s`: the leaves of the keys in the node store and in the heap (R115). -/
structure LeavesEffect (s t : State) : Prop where
  nodes  : t.nodes = leafNodes s.freq
  nleaf  : t.nleaf.toNat = (support s.freq).length
  nnode  : t.nnode = (support s.freq).length
  heapn  : t.heapn = (support s.freq).length
  heap   : heapInsertAll t.nodes ((List.range (support s.freq).length).map (BitVec.ofNat 9)) [] = .ok t.heap
  slots  : t.heap.Perm ((List.range (support s.freq).length).map (BitVec.ofNat 9))
  frame  : t = { s with nodes := t.nodes, nleaf := t.nleaf, heap := t.heap, phase := .merge }

/-- The body of LEAVES on a non-empty training text keeps the invariant and has the effect of R115. -/
theorem leavesBody_effect {s t : State} (h : Inv s) (hp : s.phase = .count) (ht : s.total ≠ 0)
    (hbody : leavesBody s = .ok t) : Inv t ∧ t.phase = .merge ∧ LeavesEffect s t := by
  obtain ⟨heap', hbody', hperm, hheap, hmerge⟩ := leavesBody_spec h hp ht
  obtain rfl := Except.ok.inj (hbody.symm.trans hbody')
  have hslots := heap_perm_of_toNat hperm
  exact ⟨⟨h.total, hmerge⟩, rfl, rfl, hmerge.built.nleaf, by simp [State.nnode, leafNodes],
    by simpa [State.heapn] using hslots.length_eq, hheap, hslots, rfl⟩

/-- Settles O28: by the body of LEAVES. -/
theorem leavesMakesOneLeafPerKey : Obligations.LeavesMakesOneLeafPerKey := by
  unfold Obligations.LeavesMakesOneLeafPerKey
  refine ⟨wordsMean_of_decode (by decide) fun w h => by simp [decode, h], fun s => ?_⟩
  refine ⟨exec_leaves_phaseError, exec_leaves_emptyInput, fun h hp ht => ?_⟩
  obtain ⟨t, hbody, -, -⟩ := inv_leavesBody h hp ht
  obtain ⟨-, -, e⟩ := leavesBody_effect h hp ht hbody
  have hk : 1 ≤ (support s.freq).length := List.length_pos_of_ne_nil (h.total_ne_zero_iff.mp ht)
  refine ⟨emitAll [.done] t, exec_leaves_done hp ht hbody, e.nodes, e.nleaf, e.nnode.trans e.nleaf.symm,
    e.heapn.trans e.nleaf.symm, e.nnode ▸ hk, ?_, ?_⟩
  · have hheap := e.heap
    rwa [← e.nnode] at hheap
  · rw [e.frame]; rfl

/-! ### MERGE (R116) -/

/-- The frequency field of the node MERGE appends is the sum of its children's, without wrapping (R116). -/
theorem MergeEffect.weight_new {s t : State} {a b : NodeIdx} {f : Freq} (e : MergeEffect s t a b) (ht : Built t)
    (hn : t.nodes = s.nodes ++ [.internal f a b]) : f.toNat = weightOf s.nodes a + weightOf s.nodes b := by
  have hle := ht.nnode_le
  rw [hn, List.length_append, List.length_singleton] at hle
  have hnew : nodeAt t.nodes (BitVec.ofNat 9 s.nnode) = some (.internal f a b) := by
    rw [nodeAt, State.nnode, toNat_ofNat9 (by omega), hn, List.getElem?_concat_length]
  rw [← e.sum, weightOf_eq hnew]
  rfl

/-- Settles O29: by the body of MERGE. -/
theorem mergeJoinsTheTwoLeastNodes : Obligations.MergeJoinsTheTwoLeastNodes := by
  unfold Obligations.MergeJoinsTheTwoLeastNodes
  refine ⟨wordsMean_of_decode (by decide) fun w h => by simp [decode, h], fun s => ?_⟩
  refine ⟨exec_merge_phaseError, fun h hp h2 => ?_⟩
  obtain ⟨t, a, b, hbody, ht, hpt, e⟩ := inv_mergeBody h hp h2
  obtain ⟨heap1, heap2, hfirst, hsecond, hinsert⟩ := e.first
  obtain ⟨f, hnodes⟩ := e.nodes
  obtain ⟨ha, hb⟩ := e.below
  refine ⟨emitAll [.done] t, a, b, heap1, heap2, f, exec_merge_done hp h2 hbody, hfirst, hsecond, e.least,
    e.next heap1 hfirst, e.order, e.ne, hnodes, e.weight_new (ht.merge hpt).built hnodes, ha, hb, hinsert, e.heapn, ?_⟩
  rw [e.frame]; rfl

/-! ### The stepped construction (R117, R119) -/

/-- LEAVES, then MERGE k - 1 times, then CODEGEN, for the k keys of the frequency table (R117). -/
def steppedConstruction (f : Vector Freq 256) : List Instr :=
  .leaves :: List.replicate ((support f).length - 1) .merge ++ [.codegen]

/-- A body of the construction does to a state that has answered more the same as to the state itself, when it keeps
what construction neither reads nor writes. -/
theorem body_emitAll {body : State → Except Fault State} {s t : State} (rs : List Response)
    (hother : ∀ u, body (withOther s u) = (body s).map (withOther · u)) (hbody : body s = .ok t)
    (hkeeps : t = withOther t s) : body (emitAll rs s) = .ok (emitAll rs t) := by
  have hemit : emitAll rs s = withOther s (emitAll rs s) := rfl
  rw [hemit, hother, hbody, hkeeps]
  rfl

theorem mergeAll_keeps_other {turns : Nat} {s t : State} (h : mergeAll turns s = .ok t) : t = withOther t s := by
  rw [mergeAll_frame turns h]; rfl

theorem codegenBody_keeps_other {s t : State} (h : codegenBody s = .ok t) : t = withOther t s := by
  rw [codegenBody_frame h]; rfl

theorem buildBody_eq_ok {s t : State} (h : buildBody s = .ok t) :
    ∃ s1 s2, leavesBody s = .ok s1 ∧ mergeAll s1.heapn s1 = .ok s2 ∧ codegenBody s2 = .ok t := by
  unfold buildBody at h
  split at h
  · cases h
  · rename_i s1 h1
    split at h
    · cases h
    · rename_i s2 h2
      exact ⟨s1, s2, h1, h2, h⟩

/-- The stepped merges and CODEGEN end where the loop of BUILD and the body of CODEGEN do, with one DONE each. -/
theorem performCommands_merges_codegen {s v w : State} {turns : Nat} (hi : Inv s) (hp : s.phase = .merge)
    (hn : s.heapn = turns + 1) (hloop : mergeAll s.heapn s = .ok v) (hcodegen : codegenBody v = .ok w) :
    performCommands (List.replicate turns .merge ++ [.codegen]) s =
      .next (emitAll (List.replicate (turns + 1) .done) w) := by
  obtain ⟨v', hv', -, hpv, hnv⟩ := inv_mergeAll s.heapn hi hp (Nat.le_refl _)
  obtain rfl : v = v' := Except.ok.inj (hloop.symm.trans hv')
  obtain ⟨v', hv', hrun⟩ := performCommands_merges turns hi hp hn
  obtain rfl : v = v' := Except.ok.inj (hloop.symm.trans hv')
  have hresp : v.resp = s.resp := by rw [mergeAll_frame _ hloop]
  have hmerges : performCommands (List.replicate turns .merge) s =
      .next (emitAll (List.replicate turns .done) v) := by
    simpa [emitAll, hresp] using hrun
  have hlast := exec_codegen_done (s := emitAll (List.replicate turns .done) v) hpv hnv
    (body_emitAll _ (codegenBody_other v) hcodegen (codegenBody_keeps_other hcodegen))
  rw [performCommands_append hmerges, performCommands_cons hlast, emitAll_emitAll, ← List.replicate_succ']
  rfl

/-- The stepped construction ends in the state the body of BUILD does, with one DONE for each command (R117). -/
theorem performCommands_steppedConstruction {s b : State} (h : Inv s) (hp : s.phase = .count) (ht : s.total ≠ 0)
    (hb : buildBody s = .ok b) : performCommands (steppedConstruction s.freq) s =
      .next (emitAll (List.replicate ((support s.freq).length + 1) .done) b) := by
  obtain ⟨s1, s2, hleaves, hloop, hcodegen⟩ := buildBody_eq_ok hb
  obtain ⟨hi1, hp1, e⟩ := leavesBody_effect h hp ht hleaves
  obtain ⟨k, hk⟩ : ∃ k, (support s.freq).length = k + 1 :=
    Nat.exists_eq_succ_of_ne_zero (mt List.length_eq_zero_iff.mp (h.total_ne_zero_iff.mp ht))
  have hrest := performCommands_merges_codegen (hi1.emitAll [.done]) hp1 (turns := k) (e.heapn.trans hk)
    (body_emitAll _ (mergeAll_other _ s1) hloop (mergeAll_keeps_other hloop))
    (body_emitAll _ (codegenBody_other s2) hcodegen (codegenBody_keeps_other hcodegen))
  rw [steppedConstruction, hk, List.cons_append, performCommands_cons (exec_leaves_done hp ht hleaves),
    Nat.add_sub_cancel, hrest, emitAll_emitAll]
  rfl

/-- Settles O32: both ways end in the state the body of BUILD does, and differ in the number of DONE words. -/
theorem buildEqualsSteppedConstruction : Obligations.BuildEqualsSteppedConstruction := by
  unfold Obligations.BuildEqualsSteppedConstruction
  refine ⟨wordsMean_of_decode (by decide) fun w h => by simp [decode, h], fun s => ?_⟩
  refine ⟨exec_build_phaseError, exec_build_emptyInput, fun h hp ht => ?_⟩
  obtain ⟨b, hbody, hib, hpb⟩ := inv_buildBody h hp ht
  have hrun := performCommands_steppedConstruction h hp ht hbody
  have hframe := buildBody_frame hbody
  have hresp : b.resp = s.resp := by rw [hframe]
  have hfreq : b.freq = s.freq := by rw [hframe]
  have hready := hib.ready hpb
  have hnnode := hready.nnode_eq
  rw [hready.built.nleaf, hfreq] at hnnode
  refine ⟨emitAll [.done] b, _, exec_build_done hp ht hbody, hrun, ?_, hpb, hnnode, ?_⟩
  · have hnew : newResponses s (emitAll (List.replicate ((support s.freq).length + 1) .done) b) =
        List.replicate ((support s.freq).length + 1) (encodeResponse .done) :=
      newResponses_eq (by simp [hresp])
    simp [hnew]
  · rw [← hresp]; rfl

/-! ### The construction is a function of FREQ (R123) -/

/-- What construction reads of a COUNT state is at its reset value, but for FREQ (R51). -/
theorem CountState.eq_resetWithFreq {s : State} (c : CountState s) (hp : s.phase = .count) :
    s = withOther { State.reset with freq := s.freq } s := by
  obtain ⟨hnodes, hheap, hnleaf, hroot, hcode, hacc, haccovf⟩ := c
  cases s
  simp_all [withOther, State.reset]

/-- Two COUNT states with equal FREQ tables differ only in what construction neither reads nor writes. -/
theorem Inv.count_eq_withOther {s u : State} (hs : Inv s) (hu : Inv u) (hp : s.phase = .count) (hq : u.phase = .count)
    (hf : s.freq = u.freq) : u = withOther s u := by
  rw [(hs.count hp).eq_resetWithFreq hp, hf]
  exact (hu.count hq).eq_resetWithFreq hq

/-- Settles O33: BUILD does the same on the two states but for what construction leaves alone. -/
theorem constructionDependsOnFrequenciesAlone : Obligations.ConstructionDependsOnFrequenciesAlone := by
  unfold Obligations.ConstructionDependsOnFrequenciesAlone
  intro s s' t t' h h' hp hp' ht hf hx hx'
  have ht' : s'.total ≠ 0 := h'.total_ne_zero_iff.mpr (hf ▸ h.total_ne_zero_iff.mp ht)
  obtain ⟨b, hb, -, -⟩ := inv_buildBody h hp ht
  have hb' : buildBody s' = .ok (withOther b s') := by
    rw [h.count_eq_withOther h' hp hp' hf, buildBody_other, hb]
    rfl
  obtain rfl := Host.Outcome.next.inj (hx.symm.trans (exec_build_done hp ht hb))
  obtain rfl := Host.Outcome.next.inj (hx'.symm.trans (exec_build_done hp' ht' hb'))
  exact ⟨rfl, rfl, rfl, rfl, rfl⟩

/-! ### One distinct symbol (R118, R133) -/

/-- With one key the code table holds its code [0], and no other. -/
theorem ReadyState.code_of_one_key {s : State} (h : ReadyState s) {c : Symbol} (hs : support s.freq = [c])
    (d : Symbol) : tableGet s.code d = if d = c then some [0#1] else none := by
  obtain ⟨records, hrec, hperm, -, hget⟩ := h.records
  rw [hs] at hperm
  have hone : records = [(c, [0])] := by
    rcases records_shape h.built h.heap hrec with ⟨e, rfl, -⟩ | ⟨-, -, -, h2, -⟩
    · simpa using hperm
    · rw [h.built.nleaf, hs] at h2
      simp at h2
  subst hone
  refine Option.ext fun p => ?_
  rw [hget d p]
  split <;> simp_all [eq_comm]

/-- Settles O31: MERGE is refused with one node in the heap, which CODEGEN makes the root. -/
theorem singleSymbolGetsTheCodeZero : Obligations.SingleSymbolGetsTheCodeZero := by
  unfold Obligations.SingleSymbolGetsTheCodeZero
  intro s c h hp hs
  have ht : s.total ≠ 0 := h.total_ne_zero_iff.mpr (by simp [hs])
  obtain ⟨t, hleaves, hit, hpt⟩ := inv_leavesBody h hp ht
  obtain ⟨-, -, e⟩ := leavesBody_effect h hp ht hleaves
  have hheapn : t.heapn = 1 := by rw [e.heapn, hs]; rfl
  have hheap : t.heap = [0#9] := by
    have hslots := e.slots
    rw [hs] at hslots
    exact List.perm_singleton.mp hslots
  have hu : Inv (raiseState .phaseError (emitAll [.done] t)) := (hit.emitAll _).raiseState _
  obtain ⟨v, hcodegen, hiv, hpv⟩ := inv_codegenBody hu hpt hheapn
  have hframe := codegenBody_frame hcodegen
  have hready := hiv.ready hpv
  have hroot : [v.root] = [0#9] := by rw [← hready.heap, hframe]; exact hheap
  have hfreq : v.freq = s.freq := by rw [hframe, raiseState_freq, emitAll_freq, e.frame]
  refine ⟨emitAll [.done] t, _, emitAll [.done] v, exec_leaves_done hp ht hleaves, ?_, hheap,
    exec_merge_phaseError (.inr (show t.heapn < 2 by omega)), rfl, exec_codegen_done hpt hheapn hcodegen, hpv, ?_,
    List.singleton_inj.mp hroot, hready.code_of_one_key (hfreq ▸ hs)⟩
  · rw [emitAll_nodes, e.nodes, leafNodes, hs]; rfl
  · rw [emitAll_nodes, hframe]; rfl

/-! ### Optimality (R122) -/

/-- The frequencies of the keys, ascending by symbol. -/
def keyWeights (f : Vector Freq 256) : List Nat := (support f).map (fun c => (tableGet f c).toNat)

/-- A code in which no key's Bitstring begins another key's costs at least what greedy merging does (R122). -/
theorem GreedyCost.le_weightedLength {f : Vector Freq 256} {n : Nat} (h : GreedyCost (keyWeights f) n)
    {code : Symbol → Bits} (hcode : ∀ c ∈ support f, ∀ d ∈ support f, code c <+: code d → c = d) :
    n ≤ weightedLength f code := by
  have hcost : weightedLength f code = costOf ((support f).map fun c => ((tableGet f c).toNat, code c)) := by
    simp [weightedLength, costOf, Function.comp_def]
  rw [hcost]
  refine h.le _ (List.Perm.of_eq (by simp [keyWeights, Function.comp_def])) ?_
  rw [AllApart, List.map_map, List.pairwise_map]
  refine (support_nodup f).imp_of_mem fun {c d} hc hd hne => ⟨fun hp => ?_, fun hp => ?_⟩
  · exact hne (hcode c hc d hd hp)
  · exact hne (hcode d hd c hc hp).symm

/-- The tree BUILD ends in costs what greedy merging of the keys' frequencies does (R117, R122). -/
theorem buildBody_cost {s b : State} (h : Inv s) (hp : s.phase = .count) (ht : s.total ≠ 0)
    (hb : buildBody s = .ok b) (hroot : b.heap = [b.root]) : GreedyCost (keyWeights s.freq) (costAt b b.root) := by
  obtain ⟨s1, s2, hleaves, hloop, hcodegen⟩ := buildBody_eq_ok hb
  obtain ⟨hi1, hp1, -⟩ := leavesBody_effect h hp ht hleaves
  obtain ⟨hweights, hzero⟩ := leavesBody_cost h hp ht hleaves
  obtain ⟨n, r, hgreedy, hr, hcost⟩ := mergeAll_cost s1.heapn (hi1.merge hp1).built (Nat.le_refl _) hloop
  have hframe := codegenBody_frame hcodegen
  have hrb : r = b.root := by
    rw [hframe] at hroot
    exact List.singleton_inj.mp (hr.symm.trans hroot)
  have hsame : costAt b b.root = costAt s2 r := by rw [← hrb, hframe]; rfl
  rw [hsame, hcost, hzero, Nat.add_zero]
  exact hgreedy.perm hweights

/-- With two keys or more the weighted length of the code table is the cost of the tree (R122). -/
theorem ReadyState.weightedLength_eq_costAt {s : State} (h : ReadyState s) (h2 : 2 ≤ (support s.freq).length) :
    weightedLength s.freq (codeOf s.code) = costAt s s.root := by
  obtain ⟨records, hrec, -, -, -⟩ := h.records
  rw [h.weightedLength_eq hrec]
  rcases records_shape h.built h.heap hrec with ⟨c, -, h1, -⟩ | ⟨t, htree, rfl, -⟩
  · rw [h.built.nleaf] at h1
    omega
  · rw [t.cost_paths s.freq [], costAt, State.nnode, htree]
    rfl

/-- The one key's code [0] is no longer than any non-empty Bitstring (R118). -/
theorem ReadyState.weightedLength_le_of_one_key {s : State} (h : ReadyState s) {c : Symbol}
    (hs : support s.freq = [c]) {code : Symbol → Bits} (hne : code c ≠ []) :
    weightedLength s.freq (codeOf s.code) ≤ weightedLength s.freq code := by
  have hcode : codeOf s.code c = [0] := by simp [codeOf, h.code_of_one_key hs]
  have hlen : 1 ≤ (code c).length := List.length_pos_of_ne_nil hne
  simpa [weightedLength, hs, hcode] using Nat.mul_le_mul_left (tableGet s.freq c).toNat hlen

/-- The code table BUILD ends in costs at most what any code does in which no key's Bitstring begins another key's
(R122). -/
theorem buildBody_optimal {s b : State} (h : Inv s) (hp : s.phase = .count) (ht : s.total ≠ 0)
    (hb : buildBody s = .ok b) (hready : ReadyState b) {code : Symbol → Bits} (hne : ∀ c ∈ support s.freq, code c ≠ [])
    (hcode : ∀ c ∈ support s.freq, ∀ d ∈ support s.freq, code c <+: code d → c = d) :
    weightedLength s.freq (codeOf b.code) ≤ weightedLength s.freq code := by
  have hfreq : b.freq = s.freq := by rw [buildBody_frame hb]
  rw [← hfreq] at hne ⊢
  by_cases h2 : 2 ≤ (support b.freq).length
  · rw [hready.weightedLength_eq_costAt h2, hfreq]
    exact (buildBody_cost h hp ht hb hready.heap).le_weightedLength hcode
  · have hpos : support b.freq ≠ [] := hfreq ▸ h.total_ne_zero_iff.mp ht
    obtain ⟨c, hc⟩ : ∃ c, support b.freq = [c] :=
      List.length_eq_one_iff.mp (by have := List.length_pos_of_ne_nil hpos; omega)
    exact hready.weightedLength_le_of_one_key hc (hne c (by simp [hc]))

/-- Settles O34: both ways end in the code table of BUILD's tree, which costs what greedy merging does. -/
theorem builtCodeIsOptimal : Obligations.BuiltCodeIsOptimal := by
  unfold Obligations.BuiltCodeIsOptimal
  intro s t code h hp ht hrun hne hcode
  obtain ⟨b, hb, hib, hpb⟩ := inv_buildBody h hp ht
  have hstepped := performCommands_steppedConstruction h hp ht hb
  obtain ⟨rs, rfl⟩ : ∃ rs, t = emitAll rs b := by
    rcases hrun with hx | hx
    · exact ⟨_, Host.Outcome.next.inj (hx.symm.trans (exec_build_done hp ht hb))⟩
    · exact ⟨_, Host.Outcome.next.inj (hx.symm.trans hstepped)⟩
  have hfreq : b.freq = s.freq := by rw [buildBody_frame hb]
  refine ⟨hpb, hfreq, ?_⟩
  rw [emitAll_freq, emitAll_code, hfreq]
  exact buildBody_optimal h hp ht hb (hib.ready hpb) hne hcode

end Sys2Proof.Machine

/-! CODEGEN and RDCODE (spec 42_code_table.md): every outcome of each (R132, R136), and the properties of the code table
of a ready instance (R134). -/

namespace Sys2Proof.Machine

/-! ### RDCODE (R136) -/

section

variable {s : State} {c : Symbol}

theorem exec_rdcode_phaseError (hp : s.phase ≠ .ready) : exec (.rdcode c) s = .next (raiseState .phaseError s) :=
  if_pos hp

/-- The words that answer RDCODE of a symbol with a code: the length, the digits, DONE (R136). -/
theorem rdcodeGroup_of_code {code : Vector (Option Bits) 256} {p : Bits} (hc : tableGet code c = some p) :
    rdcodeGroup code c = encodeResponse (.data (BitVec.ofNat 32 p.length)) ::
      (p.map (fun b => encodeResponse (.bit b)) ++ [encodeResponse .done]) := by
  simp [rdcodeGroup, rdcodeResponses, codeOf_eq hc, bitResponses]

theorem rdcodeGroup_of_no_code {code : Vector (Option Bits) 256} (hc : tableGet code c = none) :
    rdcodeGroup code c = [encodeResponse (.data 0), encodeResponse .done] := by
  simp [rdcodeGroup, rdcodeResponses, codeOf, hc, bitResponses]

/-- In phase READY, RDCODE adds the words of its answer and changes nothing else (R136). -/
theorem exec_rdcode_group (hp : s.phase = .ready) :
    exec (.rdcode c) s = .next { s with resp := s.resp ++ rdcodeGroup s.code c } := exec_rdcode_ready hp c

end

/-- Settles O38: the answer is the group of the symbol's code, which has 1 to 255 digits. -/
theorem rdcodeReadsTheCode : Obligations.RdcodeReadsTheCode := by
  unfold Obligations.RdcodeReadsTheCode
  refine ⟨wordsMean_of_decode (by decide) fun w h => by simp [decode, h], fun c s => ?_⟩
  refine ⟨exec_rdcode_phaseError, fun hp p hc => ?_, fun hp hc => ?_, fun h hp _ => (h.ready hp).codeLength⟩
  · rw [exec_rdcode_group hp, rdcodeGroup_of_code hc]
  · rw [exec_rdcode_group hp, rdcodeGroup_of_no_code hc]

/-! ### CODEGEN (R131 to R133) -/

section

variable {s : State}

theorem exec_codegen_phaseError (h : s.phase ≠ .merge ∨ s.heapn ≠ 1) :
    exec .codegen s = .next (raiseState .phaseError s) :=
  if_pos h

/-- A root that is a leaf is the one node, and its symbol has the one code [0] (R133). -/
theorem ReadyState.code_of_leaf_root (h : ReadyState s) {c : Symbol} {f : Freq}
    (hroot : nodeAt s.nodes s.root = some (.leaf c f)) (d : Symbol) :
    tableGet s.code d = if d = c then some [0#1] else none := by
  obtain ⟨records, hrec, hperm, -, -⟩ := h.records
  obtain rfl := Except.ok.inj (hrec.symm.trans (rootCodes_leaf hroot))
  exact h.code_of_one_key (List.singleton_perm.mp hperm).symm d

/-- With k > 1, a symbol's code is the digits that lead from ROOT to the symbol's leaf (R131). -/
theorem ReadyState.code_iff_follow (h : ReadyState s) (hk : 1 < s.nleaf.toNat) (c : Symbol) (p : Bits) :
    tableGet s.code c = some p ↔
      ∃ i g, follow s.nodes s.root p = some i ∧ nodeAt s.nodes i = some (.leaf c g) := by
  obtain ⟨t, ht, -, hget⟩ := h.codes_paths hk
  rw [hget, ← paths_follow [] p ht, List.nil_append]

/-- A root with children is not the first node, so that there are two leaves at least (R25, R26). -/
theorem Inv.one_lt_nleaf_of_internal_root (h : Inv s) (hp : s.phase = .ready) {l r : NodeIdx} {f : Freq}
    (hroot : nodeAt s.nodes s.root = some (.internal f l r)) : 1 < s.nleaf.toNat := by
  have hready := h.ready hp
  have hlt := (h.children_smaller hroot).1
  have hlast := hready.root
  have hnnode := hready.nnode_eq
  omega

end

/-- Settles O30: the body of CODEGEN ends in a ready state, whose codes are read off its root. -/
theorem codegenDerivesThePathCodes : Obligations.CodegenDerivesThePathCodes := by
  unfold Obligations.CodegenDerivesThePathCodes
  refine ⟨wordsMean_of_decode (by decide) fun w h => by simp [decode, h], fun s => ?_⟩
  refine ⟨exec_codegen_phaseError, fun h hp h1 => ?_⟩
  obtain ⟨t, hbody, hit, hpt⟩ := inv_codegenBody h hp h1
  have hframe := codegenBody_frame hbody
  have hready := hit.ready hpt
  have hnodes : t.nodes = s.nodes := by rw [hframe]
  have hheap : t.heap = s.heap := by rw [hframe]
  refine ⟨emitAll [.done] t, exec_codegen_done hp h1 hbody, hheap ▸ hready.heap, ?_, ?_, ?_⟩
  · intro c f hroot
    exact hready.code_of_leaf_root (hnodes ▸ hroot)
  · intro f l r hroot
    have hroot' : nodeAt t.nodes t.root = some (.internal f l r) := hnodes ▸ hroot
    exact hnodes ▸ hready.code_iff_follow (hit.one_lt_nleaf_of_internal_root hpt hroot')
  · rw [hframe]; rfl

/-! ### The code table of a ready instance (R134) -/

section

variable {s : State} (h : ReadyState s)

include h

/-- With k > 1 a code has at most k - 1 digits: a path has fewer digits than the tree has leaves (R134 (b)). -/
theorem ReadyState.codeLength_lt_nleaf (hk : 1 < s.nleaf.toNat) {c : Symbol} {p : Bits}
    (hc : tableGet s.code c = some p) : p.length + 1 ≤ s.nleaf.toNat := by
  obtain ⟨t, -, hleaves, hget⟩ := h.codes_paths hk
  obtain ⟨q, rfl, hlen⟩ := t.paths_bounds [] _ ((hget c p).mp hc)
  exact hleaves ▸ hlen

/-- With k = 1 the one code is [0] (R133). -/
theorem ReadyState.code_eq_zero_of_single (hk : s.nleaf.toNat = 1) {c : Symbol} {p : Bits}
    (hc : tableGet s.code c = some p) : p = [0] := by
  obtain ⟨e, hget⟩ := h.codes_single hk
  exact ((hget c p).mp hc).2

/-- At most one symbol's code begins a Bitstring: of two codes that do, one is a prefix of the other (R134 (e)). -/
theorem ReadyState.eq_of_codes_prefix {bits p q : Bits} {c d : Symbol} (hc : tableGet s.code c = some p)
    (hd : tableGet s.code d = some q) (hp : p <+: bits) (hq : q <+: bits) : c = d := by
  rcases List.prefix_or_prefix_of_prefix hp hq with hpq | hqp
  · exact h.prefixFree c d p q hc hd hpq
  · exact (h.prefixFree d c q p hd hc hqp).symm

/-- With k > 1 a Bitstring of 255 digits begins with the code of exactly one symbol (R134 (e)). -/
theorem ReadyState.exists_unique_code_prefix (hk : 1 < s.nleaf.toNat) {bits : Bits} (hlen : bits.length = 255) :
    ∃ c p, tableGet s.code c = some p ∧ p <+: bits ∧
      ∀ d q, tableGet s.code d = some q → q <+: bits → d = c := by
  obtain ⟨c, p, hc, hp⟩ := h.complete hk hlen
  exact ⟨c, p, hc, hp, fun d q hd hq => h.eq_of_codes_prefix hd hc hq hp⟩

/-- With k = 1 no code begins a Bitstring whose first digit is 1 (R133, R134 (e)). -/
theorem ReadyState.no_code_prefix_of_single (hk : s.nleaf.toNat = 1) (bits : Bits) {c : Symbol} {p : Bits}
    (hc : tableGet s.code c = some p) : ¬ p <+: (1#1 :: bits) := by
  simp [h.code_eq_zero_of_single hk hc]

end

/-- Settles O49: the codes are the paths of a tree with k leaves, or the one code [0] of a single leaf. -/
theorem codeTableIsPrefixFreeAndComplete : Obligations.CodeTableIsPrefixFreeAndComplete := by
  unfold Obligations.CodeTableIsPrefixFreeAndComplete
  intro s hinv hp
  have h := hinv.ready hp
  refine ⟨h.valid_iff, fun c p hc => ?_, fun c d p hc hd => ?_, fun c d p q hc hd hne hpq => ?_,
    fun hk bits hlen => h.exists_unique_code_prefix hk hlen, fun hk bits c p hc => h.no_code_prefix_of_single hk bits hc⟩
  · obtain ⟨hpos, hle⟩ := h.codeLength hc
    exact ⟨hpos, hle, fun hk => h.codeLength_lt_nleaf hk hc,
      fun hk => by rw [h.code_eq_zero_of_single hk hc, List.length_singleton]⟩
  · exact h.prefixFree c d p p hc hd (List.prefix_refl p)
  · exact hne (h.prefixFree c d p q hc hd hpq)

end Sys2Proof.Machine

/-! ENC and the call ENCODE (spec 43_encoder.md): every outcome of the command (R141), and the result of the call for
texts with and without an absent symbol (R142). -/

namespace Sys2Proof.Machine

/-! ### ENC (R141) -/

theorem exec_enc_phaseError {c : Symbol} {s : State} (hp : s.phase ≠ .ready) :
    exec (.enc c) s = .next (raiseState .phaseError s) :=
  if_pos hp

/-- Settles O39: by the phase and the entry of the code table. -/
theorem encEmitsTheCode : Obligations.EncEmitsTheCode := by
  unfold Obligations.EncEmitsTheCode
  refine ⟨wordsMean_of_decode (by decide) fun w h => by simp [decode, h], fun c s => ?_⟩
  refine ⟨exec_enc_phaseError, fun hp => exec_enc_unknown hp, fun hp p hc => ?_, fun h hp _ => (h.ready hp).codeLength⟩
  rw [exec_enc_known hp ⟨p, hc⟩, codeOf_eq hc]
  simp [emitAll, bitResponses]

/-! ### What the host makes of the responses (R142) -/

theorem bitPayloads_append (rs rs' : List RespWord) : bitPayloads (rs ++ rs') = bitPayloads rs ++ bitPayloads rs' := by
  simp [bitPayloads]

theorem bitPayloads_done : bitPayloads [encodeResponse .done] = [] := by decide

/-- The digits in the answers to the ENC commands of a text are the codes of its symbols, one after the other. -/
theorem bitPayloads_encResponses (code : Vector (Option Bits) 256) : ∀ text : List Symbol,
    bitPayloads ((encResponses code text).map encodeResponse) = text.flatMap (codeOf code)
  | [] => rfl
  | c :: text => by
    have hcons : encResponses code (c :: text) =
        bitResponses (codeOf code c) ++ [.done] ++ encResponses code text := List.flatMap_cons
    rw [hcons, List.map_append, List.map_append, bitPayloads_append, bitPayloads_append, bitPayloads_bitResponses,
      bitPayloads_encResponses code text, List.map_singleton, bitPayloads_done, List.append_nil, List.flatMap_cons]

theorem encResponses_no_err (code : Vector (Option Bits) 256) (text : List Symbol) :
    ((encResponses code text).map encodeResponse).any isErr = false := by
  simp [encResponses, bitResponses, encodeResponse, isErr]

/-- Where no ENC ended in ERR the host has the concatenation of the codes. -/
theorem encodeResult_encResponses (code : Vector (Option Bits) 256) (text : List Symbol) :
    encodeResult ((encResponses code text).map encodeResponse) = some (text.flatMap (codeOf code)) := by
  rw [encodeResult, encResponses_no_err, if_neg Bool.false_ne_true, bitPayloads_encResponses]

/-- Where one did, the host has no result, whatever was answered before it and after it. -/
theorem encodeResult_of_mem_err {rs : List RespWord} {code : BitVec 3} {info : Symbol}
    (h : encodeResponse (.err code info) ∈ rs) : encodeResult rs = none :=
  if_pos (List.any_eq_true.mpr ⟨_, h, isErr_err code info⟩)

/-! ### A host that does not stop at an ERR -/

/-- ENC of symbols that have codes, one after the other. -/
theorem performCommands_encs_known : ∀ (known : List Symbol) {s : State}, s.phase = .ready →
    (∀ c ∈ known, ∃ p, tableGet s.code c = some p) →
    performCommands (encodeCommands known) s = .next (emitAll (encResponses s.code known) s)
  | [], s, _, _ => by rw [encResponses, List.flatMap_nil, emitAll_nil]; rfl
  | c :: known, s, hp, h => by
    obtain ⟨hc, hknown⟩ := List.forall_mem_cons.mp h
    have hrest := performCommands_encs_known known (s := emitAll (bitResponses (codeOf s.code c) ++ [.done]) s) hp hknown
    rw [encodeCommands, List.map_cons, performCommands_cons (exec_enc_known hp hc), ← encodeCommands, hrest,
      emitAll_emitAll]
    rfl

/-- Once LASTERR is 2, an ENC changes only ERRSYM and the responses: the one error it can raise has code 2. -/
theorem exec_enc_of_lasterr {s : State} (hp : s.phase = .ready) (hl : s.lasterr = 2#3) (c : Symbol) :
    ∃ e added, exec (.enc c) s = .next { s with errsym := e, resp := s.resp ++ added } := by
  cases hc : tableGet s.code c with
  | none =>
    have hraise : raiseState (.unknownSymbol c) s =
        { s with errsym := c, resp := s.resp ++ [encodeResponse (.err 2#3 c)] } := by
      simp [raiseState, emitAll, errCode, errInfo, errsymAfter, hl]
    exact ⟨_, _, hraise ▸ exec_enc_unknown hp hc⟩
  | some p => exact ⟨s.errsym, _, exec_enc_known hp ⟨p, hc⟩⟩

theorem performCommands_encs_of_lasterr : ∀ (text : List Symbol) {s : State}, s.phase = .ready → s.lasterr = 2#3 →
    ∃ e added, performCommands (encodeCommands text) s = .next { s with errsym := e, resp := s.resp ++ added }
  | [], s, _, _ => ⟨s.errsym, [], by rw [List.append_nil]; rfl⟩
  | c :: text, s, hp, hl => by
    obtain ⟨e, added, hc⟩ := exec_enc_of_lasterr hp hl c
    obtain ⟨e', added', htext⟩ :=
      performCommands_encs_of_lasterr text (s := { s with errsym := e, resp := s.resp ++ added }) hp hl
    exact ⟨e', added ++ added', by rw [← List.append_assoc]; exact (performCommands_cons hc).trans htext⟩

/-- A host that issues every ENC of a text with an absent symbol sees that symbol's ERR, and has no result. -/
theorem performCommands_encs_absent {before rest : List Symbol} {c : Symbol} {s : State} (hp : s.phase = .ready)
    (hbefore : ∀ d ∈ before, ∃ p, tableGet s.code d = some p) (hc : tableGet s.code c = none) :
    ∃ t, performCommands (encodeCommands (before ++ c :: rest)) s = .next t ∧ encodeResult (newResponses s t) = none ∧
      t = { s with lasterr := 2#3, errsym := t.errsym, resp := t.resp } := by
  let u := raiseState (.unknownSymbol c) (emitAll (encResponses s.code before) s)
  obtain ⟨e, added, hrest⟩ := performCommands_encs_of_lasterr rest (s := u) hp rfl
  have hrun : performCommands (encodeCommands (before ++ c :: rest)) s =
      .next { u with errsym := e, resp := u.resp ++ added } :=
    calc performCommands (encodeCommands (before ++ c :: rest)) s
        = performCommands (encodeCommands before ++ encodeCommands (c :: rest)) s := by
          rw [encodeCommands, List.map_append]; rfl
      _ = performCommands (encodeCommands (c :: rest)) (emitAll (encResponses s.code before) s) :=
          performCommands_append (performCommands_encs_known before hp hbefore)
      _ = performCommands (encodeCommands rest) u := performCommands_cons (exec_enc_unknown (s := emitAll _ s) hp hc)
      _ = .next { u with errsym := e, resp := u.resp ++ added } := hrest
  have hnew : newResponses s { u with errsym := e, resp := u.resp ++ added } =
      (encResponses s.code before).map encodeResponse ++ encodeResponse (.err 2#3 c) :: added :=
    newResponses_eq (by simp [u, errCode, errInfo])
  exact ⟨_, hrun, hnew ▸ encodeResult_of_mem_err List.mem_append_cons_self, rfl⟩

/-! ### The call (R142) -/

/-- A text with an absent symbol, cut at the first. -/
theorem exists_first_absent {f : Vector Freq 256} {text : List Symbol} (h : ∃ c ∈ text, tableGet f c = 0) :
    ∃ before c rest, text = before ++ c :: rest ∧ (∀ d ∈ before, tableGet f d ≠ 0) ∧ tableGet f c = 0 ∧
      text.find? (fun d => tableGet f d == 0) = some c := by
  have hsome : (text.find? fun d => tableGet f d == 0).isSome := by simpa using h
  obtain ⟨c, hfind⟩ := Option.isSome_iff_exists.mp hsome
  obtain ⟨hc, before, rest, htext, hbefore⟩ := List.find?_eq_some_iff_append.mp hfind
  exact ⟨before, c, rest, htext, by simpa using hbefore, by simpa using hc, hfind⟩

/-- Settles O40: a failing text is cut at its first absent symbol, where O54 says what the call answers; the digits of any
other text are those of its symbols' codes. -/
theorem encodeConcatenatesTheCodes : Obligations.EncodeConcatenatesTheCodes := by
  unfold Obligations.EncodeConcatenatesTheCodes
  refine ⟨fun text s h hp habsent => ?_, fun text s h hp hpresent => ?_⟩
  · obtain ⟨before, c, rest, rfl, hbefore, hc, hfind⟩ := exists_first_absent habsent
    have hready := h.ready hp
    obtain ⟨t, hcall, -, hnone, ht⟩ := encodeStopsAtTheFirstUnknownSymbol before rest c s h hp hbefore hc
    have herrsym : t.errsym = c := by rw [ht]
    have hresp : t.resp = s.resp ++ newResponses s t := congrArg State.resp ht
    refine ⟨⟨t, hcall, hnone, herrsym ▸ hfind, by rw [herrsym, hresp]; exact ht⟩, ?_⟩
    exact performCommands_encs_absent hp (fun d hd => (hready.valid_iff d).mpr (hbefore d hd)) (hready.code_eq_none hc)
  · have hcodes : ∀ c ∈ text, ∃ p, tableGet s.code c = some p := fun c hc =>
      ((h.ready hp).valid_iff c).mpr (hpresent c hc)
    have hcall := encodeCall_known [] text hp hcodes
    rw [List.append_nil] at hcall
    refine ⟨emitAll (encResponses s.code text) s, hcall, performCommands_encs_known text hp hcodes, ?_,
      List.length_flatMap, rfl⟩
    rw [newResponses_emitAll, encodeResult_encResponses]

end Sys2Proof.Machine

/-! DBIT and DEND (spec 44_decoder.md): Match (R146, R153), every outcome of the two commands (R147 to R149), the
accumulator against a decoder that has no bound (R152), and the call DECODE (R151, R156). -/

namespace Sys2Proof.Machine

/-! ### Match (R146, R153) -/

section

variable {s : State} (h : ReadyState s)

include h

theorem ReadyState.code_ne_nil {c : Symbol} {p : Bits} (hc : tableGet s.code c = some p) : p ≠ [] :=
  List.ne_nil_of_length_pos (h.codeLength hc).1

theorem ReadyState.matchCode_nil : matchCode s.code [] = none :=
  matchCode_none.mpr fun _ hc => h.code_ne_nil hc rfl

/-- No code is longer than 255 digits (R134 (b)). -/
theorem ReadyState.matchCode_of_long {a : Bits} (ha : 255 < a.length) : matchCode s.code a = none :=
  matchCode_none.mpr fun _ hc => absurd (h.codeLength hc).2 (by omega)

end

/-- Settles O41: by the codes, which are prefix-free and not empty. -/
theorem matchFindsTheOneSymbol : Obligations.MatchFindsTheOneSymbol := by
  unfold Obligations.MatchFindsTheOneSymbol
  intro s a hinv hp
  have h := hinv.ready hp
  exact ⟨h.matchCode_iff a, matchCode_none, fun c d hc hd => h.prefixFree c d a a hc hd (List.prefix_refl a),
    h.matchCode_nil⟩

/-- Settles O50: with k > 1 a symbol's code is its path from ROOT. -/
theorem matchIsAWalkOfTheTree : Obligations.MatchIsAWalkOfTheTree := by
  unfold Obligations.MatchIsAWalkOfTheTree
  intro s a c hinv hp hk
  have h := hinv.ready hp
  exact (h.matchCode_iff a c).trans (h.code_iff_follow hk c a)

/-! ### DBIT (R147, R148) -/

section

variable {b : Digit} {s : State}

theorem exec_dbit_phaseError (hp : s.phase ≠ .ready) : exec (.dbit b) s = .next (raiseState .phaseError s) :=
  if_pos hp

theorem exec_dbit_full (hp : s.phase = .ready) (hfull : s.accovf = true ∨ s.acc.length = 255) :
    exec (.dbit b) s = .next (emitAll [.done] { s with accovf := true }) :=
  (if_neg (not_not_intro hp)).trans (if_pos hfull)

theorem exec_dbit_match (hp : s.phase = .ready) (hovf : s.accovf = false) (hlen : s.acc.length ≠ 255) {c : Symbol}
    (hc : matchCode s.code (s.acc ++ [b]) = some c) :
    exec (.dbit b) s = .next (emitAll [.symb c, .done] { s with acc := [] }) := by
  simp [exec, execDbit, hp, hovf, State.acclen, hlen, appendDigit, hc, complete]

theorem exec_dbit_append (hp : s.phase = .ready) (hovf : s.accovf = false) (hlen : s.acc.length ≠ 255)
    (hc : matchCode s.code (s.acc ++ [b]) = none) :
    exec (.dbit b) s = .next (emitAll [.done] { s with acc := s.acc ++ [b] }) := by
  simp [exec, execDbit, hp, hovf, State.acclen, hlen, appendDigit, hc, complete]

end

/-- Settles O42: one equation per outcome. -/
theorem dbitAccumulatesAndMatches : Obligations.DbitAccumulatesAndMatches := by
  unfold Obligations.DbitAccumulatesAndMatches
  refine ⟨wordsMean_of_decode (by decide) fun w h => by simp [decode, h], fun b s => ?_⟩
  exact ⟨exec_dbit_phaseError, exec_dbit_full, fun hp hovf hlen c hc => exec_dbit_match hp hovf hlen hc,
    exec_dbit_append⟩

/-! ### DEND (R149) -/

/-- Digits are dropped only where 255 are held (R31). -/
theorem Inv.accovf_of_acc_nil {s : State} (h : Inv s) (ha : s.acc = []) : s.accovf = false := by
  simpa [ha] using h.acc_bounds.2

section

variable {s : State}

theorem exec_dend_phaseError (hp : s.phase ≠ .ready) : exec .dend s = .next (raiseState .phaseError s) :=
  if_pos hp

theorem exec_dend_done (hp : s.phase = .ready) (ha : s.acc = []) : exec .dend s = .next (emitAll [.done] s) := by
  simp [exec, execDend, hp, State.acclen, ha, complete]

theorem exec_dend_malformed (hp : s.phase = .ready) (ha : s.acc ≠ []) :
    exec .dend s = .next (raiseState .malformedBitstream { s with acc := [], accovf := false }) := by
  simp [exec, execDend, hp, State.acclen, ha, raise]

end

/-- Settles O43: one equation per outcome. -/
theorem dendClosesTheCall : Obligations.DendClosesTheCall := by
  unfold Obligations.DendClosesTheCall
  refine ⟨wordsMean_of_decode (by decide) fun w h => by simp [decode, h], fun s => ?_⟩
  exact ⟨exec_dend_phaseError, exec_dend_done, exec_dend_malformed⟩

/-! ### With k > 1 the accumulator does not overflow (R152) -/

section

variable {s : State} (h : ReadyState s)

include h

theorem ReadyState.exists_code : ∃ c p, tableGet s.code c = some p := by
  have hnnode := h.nnode_eq
  have hpos : 0 < (support s.freq).length := by rw [← h.built.nleaf]; omega
  obtain ⟨c, hc⟩ := List.exists_mem_of_length_pos hpos
  exact ⟨c, (h.valid_iff c).mpr (mem_support.mp hc)⟩

theorem ReadyState.properPrefixOfCode_nil : properPrefixOfCode s.code [] := by
  obtain ⟨c, p, hc⟩ := h.exists_code
  exact ⟨c, p, hc, List.nil_prefix, (h.code_ne_nil hc).symm⟩

theorem ReadyState.properPrefix_length {a : Bits} (ha : properPrefixOfCode s.code a) : a.length ≤ 254 := by
  obtain ⟨c, p, hc, hprefix, hne⟩ := ha
  have hle := (h.codeLength hc).2
  have hlt : a.length ≠ p.length := fun heq => hne (hprefix.eq_of_length heq)
  have := hprefix.length_le
  omega

/-- With k > 1 what DBIT appends to a proper prefix of a code, when it does not match, makes another (R152). -/
theorem ReadyState.properPrefix_append (hk : 1 < s.nleaf.toNat) {a : Bits} (ha : properPrefixOfCode s.code a)
    {b : Digit} (hb : matchCode s.code (a ++ [b]) = none) : properPrefixOfCode s.code (a ++ [b]) :=
  (h.extend hk ha b).resolve_left fun ⟨c, hc⟩ => matchCode_none.mp hb c hc

end

/-- The accumulator is a proper prefix of some code and no digit was dropped (R152). -/
def AccOnPath (s : State) : Prop := properPrefixOfCode s.code s.acc ∧ s.accovf = false

theorem AccOnPath.of_exec_decode {s t : State} (ha : AccOnPath s) (h : ReadyState s) (hp : s.phase = .ready)
    (hk : 1 < s.nleaf.toNat) (x : DecodeInput) (he : exec x.command s = .next t) : AccOnPath t := by
  obtain ⟨hacc, hovf⟩ := ha
  cases x with
  | digit b =>
    have hlen : s.acc.length ≠ 255 := by have := h.properPrefix_length hacc; omega
    cases hc : matchCode s.code (s.acc ++ [b]) with
    | some c =>
      cases (exec_dbit_match hp hovf hlen hc).symm.trans he
      exact ⟨h.properPrefixOfCode_nil, hovf⟩
    | none =>
      cases (exec_dbit_append hp hovf hlen hc).symm.trans he
      exact ⟨h.properPrefix_append hk hacc hc, hovf⟩
  | stop =>
    by_cases hempty : s.acc = []
    · cases (exec_dend_done hp hempty).symm.trans he
      exact ⟨hacc, hovf⟩
    · cases (exec_dend_malformed hp hempty).symm.trans he
      exact ⟨h.properPrefixOfCode_nil, rfl⟩

theorem AccOnPath.of_performWord {w : CmdWord} {s t : State} (ha : AccOnPath s) (h : ReadyState s)
    (hp : s.phase = .ready) (hk : 1 < s.nleaf.toNat) (hreset : w ≠ encode .reset) (he : performWord w s = .next t) :
    AccOnPath t := by
  cases hw : isDecodeWord w with
  | true =>
    obtain ⟨x, rfl⟩ := isDecodeWord_iff.mp hw
    rw [performWord_encode] at he
    exact ha.of_exec_decode h hp hk x he
  | false =>
    have hsame := performWord_sameAnswer hp (SameTables.refl s) hreset hw fun _ _ => rfl
    obtain ⟨hacc, hovf⟩ := hsame.keeps_acc he
    unfold AccOnPath
    rwa [hacc, hovf, (performWord_ready_tables hp hreset he).code_eq]

/-- Settles O51: by what each word does to an accumulator that is a proper prefix of some code. -/
theorem accumulatorStaysAProperPrefix : Obligations.AccumulatorStaysAProperPrefix := by
  unfold Obligations.AccumulatorStaysAProperPrefix
  refine ⟨fun w s t hinv hp hk hacc hovf he ht => ?_, fun s hinv hp hempty => ?_⟩
  · have hreset : w ≠ encode .reset := by
      rintro rfl
      rw [performWord_encode, exec_reset] at he
      cases he
      simp at ht
    obtain ⟨hacc', hovf'⟩ := AccOnPath.of_performWord ⟨hacc, hovf⟩ (hinv.ready hp) hp hk hreset he
    have hready := (performWord_keeps_inv hinv he).ready ht
    exact ⟨hacc', hovf', hready.properPrefix_length hacc'⟩
  · exact hempty ▸ (hinv.ready hp).properPrefixOfCode_nil

/-! ### The decoder without a bound (R145, R152) -/

section

variable (code : Vector (Option Bits) 256)

/-- The unbounded decoder's responses to one input, from accumulator `a`. -/
def unboundedAnswer (a : Bits) : DecodeInput → List Response
  | .digit b => (matchCode code (a ++ [b])).toList.map .symb ++ [.done]
  | .stop => if a = [] then [.done] else [.err (errCode .malformedBitstream) 0]

/-- Its accumulator after one input. -/
def unboundedAcc (a : Bits) : DecodeInput → Bits
  | .digit b => if (matchCode code (a ++ [b])).isSome then [] else a ++ [b]
  | .stop => []

theorem unboundedDecode_cons (x : DecodeInput) (rest : List DecodeInput) (a : Bits) :
    unboundedDecode code (x :: rest) a =
      unboundedAnswer code a x ++ unboundedDecode code rest (unboundedAcc code a x) := by
  cases x with
  | digit b => cases hc : matchCode code (a ++ [b]) <;> simp [unboundedDecode, unboundedAnswer, unboundedAcc, hc]
  | stop => cases a <;> simp [unboundedDecode, unboundedAnswer, unboundedAcc]

end

/-- The accumulator holds the first 255 digits of `a`, and ACCOVF says whether there are more (R148). -/
structure Tracks (s : State) (a : Bits) : Prop where
  acc    : s.acc = a.take 255
  accovf : s.accovf = true ↔ 255 < a.length

section

variable {s : State} {a : Bits}

theorem Tracks.nil_iff (h : Tracks s a) : s.acc = [] ↔ a = [] := by simp [h.acc]

/-- While no digit has been dropped the two accumulators are equal. -/
theorem Tracks.acc_eq (h : Tracks s a) (ha : a.length ≤ 255) : s.acc = a ∧ s.accovf = false :=
  ⟨h.acc.trans (List.take_of_length_le ha), by simpa using mt h.accovf.mp (by omega)⟩

theorem Tracks.of_room (ha : a.length ≤ 255) (hacc : s.acc = a) (hovf : s.accovf = false) : Tracks s a :=
  ⟨by rw [hacc, List.take_of_length_le ha], by simp [hovf, ha]⟩

/-- DBIT drops a digit only where the unbounded decoder's accumulator is longer than every code (R152). -/
theorem Tracks.exec_digit (h : Tracks s a) (hready : ReadyState s) (hp : s.phase = .ready) (b : Digit) :
    ∃ t, exec (.dbit b) s = .next t ∧ t.resp = s.resp ++ (unboundedAnswer s.code a (.digit b)).map encodeResponse ∧
      Tracks t (unboundedAcc s.code a (.digit b)) := by
  by_cases ha : a.length < 255
  · obtain ⟨hacc, hovf⟩ := h.acc_eq (by omega)
    subst hacc
    cases hc : matchCode s.code (s.acc ++ [b]) with
    | some c =>
      refine ⟨_, exec_dbit_match hp hovf (by omega) hc, by simp [unboundedAnswer, hc], ?_⟩
      simp only [unboundedAcc, hc]
      exact .of_room (by simp) rfl hovf
    | none =>
      refine ⟨_, exec_dbit_append hp hovf (by omega) hc, by simp [unboundedAnswer, hc], ?_⟩
      simp only [unboundedAcc, hc]
      exact .of_room (by simp; omega) rfl hovf
  · have hc : matchCode s.code (a ++ [b]) = none := hready.matchCode_of_long (by simp; omega)
    have hfull : s.acc.length = 255 := by rw [h.acc, List.length_take]; omega
    refine ⟨_, exec_dbit_full hp (.inr hfull), by simp [unboundedAnswer, hc], ?_⟩
    simp only [unboundedAcc, hc]
    refine ⟨h.acc.trans (List.take_append_of_le_length (by omega)).symm, ?_⟩
    simp; omega

/-- DEND finds both accumulators empty or neither. -/
theorem Tracks.exec_stop (h : Tracks s a) (hp : s.phase = .ready) :
    ∃ t, exec .dend s = .next t ∧ t.resp = s.resp ++ (unboundedAnswer s.code a .stop).map encodeResponse ∧
      Tracks t (unboundedAcc s.code a .stop) := by
  by_cases ha : a = []
  · subst ha
    exact ⟨_, exec_dend_done hp (h.nil_iff.mpr rfl), rfl, h.acc, h.accovf⟩
  · refine ⟨_, exec_dend_malformed hp (mt h.nil_iff.mp ha), by simp [unboundedAnswer, ha, errInfo], ?_⟩
    exact .of_room (Nat.zero_le _) rfl rfl

theorem Tracks.exec_command (h : Tracks s a) (hready : ReadyState s) (hp : s.phase = .ready) (x : DecodeInput) :
    ∃ t, exec x.command s = .next t ∧ t.resp = s.resp ++ (unboundedAnswer s.code a x).map encodeResponse ∧
      Tracks t (unboundedAcc s.code a x) := by
  cases x with
  | digit b => exact h.exec_digit hready hp b
  | stop => exact h.exec_stop hp

end

theorem DecodeInput.command_ne_reset (x : DecodeInput) : x.command ≠ .reset := by cases x <;> nofun

theorem DecodeInput.command_ne_rdreg (x : DecodeInput) (r : RegNum) : x.command ≠ .rdreg r := by cases x <;> nofun

theorem encode_injective : Function.Injective encode := fun i j h =>
  Except.ok.inj ((decode_encode i).symm.trans ((congrArg decode h).trans (decode_encode j)))

/-- In phase READY the commands of a decode call leave the tables (R52). -/
theorem exec_decode_tables {s t : State} (x : DecodeInput) (hp : s.phase = .ready) (h : exec x.command s = .next t) :
    SameTables s t := by
  rw [← performWord_encode] at h
  exact performWord_ready_tables hp (encode_injective.ne x.command_ne_reset) h

/-- The simulation: the block answers as the unbounded decoder, whose accumulator it tracks. -/
theorem Tracks.performCommands_inputs : ∀ (inputs : List DecodeInput) {s : State} {a : Bits}, Tracks s a → Inv s →
    s.phase = .ready →
    ∃ t, performCommands (inputs.map DecodeInput.command) s = .next t ∧
      t.resp = s.resp ++ (unboundedDecode s.code inputs a).map encodeResponse ∧
      Tracks t (inputs.foldl (unboundedAcc s.code) a)
  | [], s, a, h, _, _ => ⟨s, rfl, by simp [unboundedDecode], h⟩
  | x :: rest, s, a, h, hinv, hp => by
    obtain ⟨u, hu, hresp, htrack⟩ := h.exec_command (hinv.ready hp) hp x
    have htab := exec_decode_tables x hp hu
    obtain ⟨t, ht, hrest, hlast⟩ :=
      htrack.performCommands_inputs rest (exec_keeps_inv hinv hu) (htab.phase_eq.trans hp)
    rw [htab.code_eq] at hrest hlast
    refine ⟨t, (performCommands_cons hu).trans ht, ?_, hlast⟩
    rw [hrest, hresp, unboundedDecode_cons, List.map_append, List.append_assoc]

/-- With an empty accumulator the block tracks the unbounded decoder from its start. -/
theorem Inv.tracks_nil {s : State} (h : Inv s) (ha : s.acc = []) : Tracks s [] :=
  .of_room (Nat.zero_le _) ha (h.accovf_of_acc_nil ha)

/-- Settles O52: by the simulation, from the empty accumulator. -/
theorem boundedAccumulatorIsUnobservable : Obligations.BoundedAccumulatorIsUnobservable := by
  unfold Obligations.BoundedAccumulatorIsUnobservable
  intro inputs s h hp ha
  obtain ⟨t, ht, hresp, -⟩ := (h.tracks_nil ha).performCommands_inputs inputs h hp
  exact ⟨t, ht, hresp⟩

/-! ### What the host makes of the responses (R151) -/

/-- The symbol of a SYMB response. -/
def Response.symbol : Response → Option Symbol
  | .symb c => some c
  | _ => none

/-- The host reads back the symbols that were emitted (R87). -/
theorem symbolPayloads_responses (rs : List Response) :
    symbolPayloads (rs.map encodeResponse) = rs.filterMap Response.symbol := by
  induction rs with
  | nil => rfl
  | cons r rs ih =>
    rw [symbolPayloads] at ih ⊢
    cases r <;> simp [encodeResponse, Response.symbol, List.filterMap_cons, ih]

theorem symbolPayloads_append (rs rs' : List RespWord) :
    symbolPayloads (rs ++ rs') = symbolPayloads rs ++ symbolPayloads rs' := by
  simp [symbolPayloads]

theorem symbolPayloads_done : symbolPayloads [encodeResponse .done] = [] := symbolPayloads_responses [.done]

theorem noErrors_responses {rs : List Response} (h : ∀ r ∈ rs, r = .done ∨ r.isData = true) :
    noErrors (rs.map encodeResponse) = true := by
  rw [noErrors, Bool.not_eq_true', List.any_eq_false]
  intro w hw
  obtain ⟨r, hr, rfl⟩ := List.mem_map.mp hw
  rcases h r hr with rfl | hdata
  · simp [isErr_done]
  · simp [isErr_of_isData hdata]

/-! ### Decoding the encoding of a text (R156) -/

section

variable (code : Vector (Option Bits) 256)

/-- The responses to the digits of a symbol's code: DONE for each, the symbol before the last (R147). -/
def symbolAnswer (c : Symbol) : List Response :=
  List.replicate ((codeOf code c).length - 1) .done ++ [.symb c, .done]

/-- The responses to the digits of a text's codes and DEND. -/
def textAnswer (text : List Symbol) : List Response := text.flatMap (symbolAnswer code) ++ [.done]

theorem textAnswer_symbols : ∀ text : List Symbol, (text.flatMap (symbolAnswer code)).filterMap Response.symbol = text
  | [] => rfl
  | c :: text => by
    rw [List.flatMap_cons, List.filterMap_append, textAnswer_symbols text]
    simp [symbolAnswer, Response.symbol, List.filterMap_cons]

theorem textAnswer_no_err (text : List Symbol) : ∀ r ∈ textAnswer code text, r = .done ∨ r.isData = true := by
  simp only [textAnswer, symbolAnswer, List.mem_append, List.mem_flatMap, List.mem_replicate, List.mem_cons,
    List.not_mem_nil, or_false]
  rintro r (⟨c, -, ⟨-, rfl⟩ | rfl | rfl⟩ | rfl)
  · exact .inl rfl
  · exact .inr rfl
  · exact .inl rfl
  · exact .inl rfl

end

section

variable {s : State} (h : ReadyState s)

include h

/-- From a proper prefix of a symbol's code, the digits that remain of the code emit the symbol: the prefixes on the way
match nothing. -/
theorem ReadyState.unboundedDecode_code {c : Symbol} (rest : List DecodeInput) : ∀ (q a : Bits), q ≠ [] →
    tableGet s.code c = some (a ++ q) →
    unboundedDecode s.code (q.map .digit ++ rest) a =
      List.replicate (q.length - 1) .done ++ [.symb c, .done] ++ unboundedDecode s.code rest []
  | [], _, hq, _ => absurd rfl hq
  | [b], a, _, hc => by
    have hmatch := (h.matchCode_iff (a ++ [b]) c).mpr hc
    simp [unboundedDecode, hmatch]
  | b :: b' :: q, a, _, hc => by
    have hsplit : a ++ b :: b' :: q = a ++ [b] ++ b' :: q := by simp
    have hmatch : matchCode s.code (a ++ [b]) = none :=
      h.no_match_of_prefix hc (hsplit ▸ List.prefix_append _ _) (by simp)
    have hrest := ReadyState.unboundedDecode_code rest (b' :: q) (a ++ [b]) (List.cons_ne_nil _ _) (hsplit ▸ hc)
    rw [List.map_cons, List.cons_append, unboundedDecode, hmatch]
    simp only [hrest]
    rfl

/-- The unbounded decoder emits the symbols of a text from the text's codes. -/
theorem ReadyState.unboundedDecode_text : ∀ text : List Symbol, (∀ c ∈ text, ∃ p, tableGet s.code c = some p) →
    unboundedDecode s.code ((text.flatMap (codeOf s.code)).map .digit ++ [.stop]) [] = textAnswer s.code text
  | [], _ => rfl
  | c :: text, hcodes => by
    obtain ⟨⟨p, hc⟩, htext⟩ := List.forall_mem_cons.mp hcodes
    have hp : codeOf s.code c = p := codeOf_eq hc
    rw [List.flatMap_cons, List.map_append, List.append_assoc, hp, h.unboundedDecode_code _ p [] (h.code_ne_nil hc) hc,
      ReadyState.unboundedDecode_text text htext, ← hp]
    simp only [textAnswer, List.flatMap_cons, symbolAnswer, List.append_assoc]

end

/-- The commands of a DECODE call are those of its inputs. -/
theorem decodeCommands_eq (d : Bits) :
    decodeCommands d = (d.map DecodeInput.digit ++ [DecodeInput.stop]).map DecodeInput.command := by
  simp [decodeCommands, DecodeInput.command]

/-- The digits of a text's codes and DEND emit the text and leave the accumulator empty. -/
theorem Inv.performCommands_decode_text {s : State} (h : Inv s) (hp : s.phase = .ready) (ha : s.acc = [])
    {text : List Symbol} (hcodes : ∀ c ∈ text, ∃ p, tableGet s.code c = some p) :
    ∃ u, performCommands (decodeCommands (text.flatMap (codeOf s.code))) s = .next u ∧
      newResponses s u = (textAnswer s.code text).map encodeResponse ∧ u.acc = [] := by
  obtain ⟨u, hu, hresp, htrack⟩ :=
    (h.tracks_nil ha).performCommands_inputs ((text.flatMap (codeOf s.code)).map .digit ++ [.stop]) h hp
  rw [(h.ready hp).unboundedDecode_text text hcodes] at hresp
  rw [List.foldl_append] at htrack
  exact ⟨u, decodeCommands_eq _ ▸ hu, newResponses_eq hresp, htrack.nil_iff.mpr rfl⟩

theorem decodeResult_textAnswer (code : Vector (Option Bits) 256) (text : List Symbol) :
    decodeResult ((textAnswer code text).map encodeResponse) = some text := by
  rw [textAnswer, List.map_append, List.map_singleton, decodeResult_done, symbolPayloads_responses, textAnswer_symbols]

/-- Settles O53: the block answers as the unbounded decoder, and ENCODE leaves the tables and the accumulator. -/
theorem decodeOfEncodeIsTheText : Obligations.DecodeOfEncodeIsTheText := by
  unfold Obligations.DecodeOfEncodeIsTheText
  intro text s h hp ha hkeys
  have hready := h.ready hp
  have hcodes : ∀ c ∈ text, ∃ p, tableGet s.code c = some p := fun c hc => (hready.valid_iff c).mpr (hkeys c hc)
  have hcall := encodeCall_known [] text hp hcodes
  rw [List.append_nil] at hcall
  obtain ⟨u, hu, hnew, hacc⟩ :=
    (h.emitAll (encResponses s.code text)).performCommands_decode_text (text := text) hp ha hcodes
  refine ⟨emitAll (encResponses s.code text) s, u, _, hcall, ?_, hu, ?_, ?_, hacc⟩
  · rw [newResponses_emitAll, encodeResult_encResponses]; rfl
  · rw [hnew, decodeResult_textAnswer]
  · rw [hnew, noErrors_responses (textAnswer_no_err _ text)]

/-! ### A decode call among other words (R151) -/

theorem bitResponses_no_symbol (p : Bits) : (bitResponses p).filterMap Response.symbol = [] := by
  simp [bitResponses, Response.symbol, Function.comp_def]

/-- In phase READY only DBIT emits SYMB (R89). -/
theorem exec_emits_no_symbol {i : Instr} {s t : State} (hp : s.phase = .ready) (hreset : i ≠ .reset)
    (hdec : ∀ x : DecodeInput, i ≠ x.command) (h : exec i s = .next t) : symbolPayloads (newResponses s t) = [] := by
  have raised {e : ErrKind} (he : exec i s = raise e s) : symbolPayloads (newResponses s t) = [] := by
    cases he.symm.trans h
    rw [newResponses_eq (added := [_]) rfl]
    exact symbolPayloads_responses [.err (errCode e) (errInfo e)]
  have completed {rs : List Response} (hrs : rs.filterMap Response.symbol = []) (he : exec i s = complete rs s) :
      symbolPayloads (newResponses s t) = [] := by
    cases he.symm.trans h
    rw [newResponses_emitAll, symbolPayloads_responses, List.filterMap_append, hrs]
    rfl
  cases i with
  | reset => exact absurd rfl hreset
  | dbit b => exact absurd rfl (hdec (.digit b))
  | dend => exact absurd rfl (hdec .stop)
  | sym | leaves | merge | codegen | build => exact raised (exec_ready_phaseError hp rfl)
  | enc c =>
    cases hc : tableGet s.code c with
    | none => exact raised (exec_enc_unknown hp hc)
    | some p => exact completed (bitResponses_no_symbol _) (exec_enc_known hp ⟨p, hc⟩)
  | rdcode c =>
    exact completed (rs := .data _ :: bitResponses _) (bitResponses_no_symbol (codeOf s.code c))
      (exec_rdcode_ready hp c)
  | rdreg r =>
    cases hr : registerOperand r s with
    | none => exact raised (e := .range) (by simp [exec, execRdreg, hr])
    | some v => exact completed (rs := [.data v]) rfl (by simp [exec, execRdreg, hr])
  | rdfreq c => exact completed (rs := [.data _]) rfl rfl
  | rdnode n =>
    cases hn : nodeOperand n s with
    | none => exact raised (e := .range) (by simp [exec, execRdnode, hn])
    | some x => exact completed (rs := nodeResponses x) (by cases x <;> rfl) (by simp [exec, execRdnode, hn])
  | rdheap j =>
    cases hj : heapOperand j s with
    | none => exact raised (e := .range) (by simp [exec, execRdheap, hj])
    | some n => exact completed (rs := [.data (n.setWidth 32)]) rfl (by simp [exec, execRdheap, hj])

/-- `rs` and `rs'` were added to the streams of two runs, and show the host the same symbols. -/
def SameSymbols (s t u v : State) : Prop :=
  ∃ rs rs', t.resp = s.resp ++ rs ∧ v.resp = u.resp ++ rs' ∧ symbolPayloads rs = symbolPayloads rs'

theorem SameSymbols.trans {s s' t u u' v : State} (h : SameSymbols s s' u u') (h' : SameSymbols s' t u' v) :
    SameSymbols s t u v := by
  obtain ⟨rs, rs', hs, hu, heq⟩ := h
  obtain ⟨qs, qs', ht, hv, heq'⟩ := h'
  exact ⟨rs ++ qs, rs' ++ qs', by rw [ht, hs, List.append_assoc], by rw [hv, hu, List.append_assoc],
    by rw [symbolPayloads_append, symbolPayloads_append, heq, heq']⟩

section

variable {s u : State} {w : CmdWord}

theorem performWord_emits_no_symbol {t : State} (hp : s.phase = .ready) (hreset : w ≠ encode .reset)
    (hdec : isDecodeWord w = false) (h : performWord w s = .next t) : symbolPayloads (newResponses s t) = [] := by
  rcases encode_or_illegal w with ⟨i, rfl⟩ | ⟨e, he⟩
  · rw [performWord_encode] at h
    refine exec_emits_no_symbol hp (by rintro rfl; exact hreset rfl) (fun x hx => ?_) h
    exact Bool.eq_false_iff.mp hdec (isDecodeWord_iff.mpr ⟨x, hx ▸ rfl⟩)
  · cases (performWord_of_error he s).symm.trans h
    rw [newResponses_eq (added := [_]) rfl]
    rfl

/-- A word that is none of the call's is not noticed by it, and adds no symbol. -/
theorem Alike.perform_interleaved (h : Alike true s u) (hreset : w ≠ encode .reset) (hdec : isDecodeWord w = false) :
    ∃ s', performWord w s = .next s' ∧ Alike true s' u ∧ SameSymbols s s' u u := by
  obtain ⟨s', hs, halike⟩ := h.perform_other hreset (by simp [hdec])
  obtain ⟨g, -, hg⟩ := performWord_group hs
  have hquiet := performWord_emits_no_symbol h.ready hreset hdec hs
  rw [newResponses_eq hg] at hquiet
  exact ⟨s', hs, halike, g, [], hg, by simp, hquiet⟩

/-- A word of the call is answered the same in both runs. -/
theorem Alike.perform_decode (h : Alike true s u) (x : DecodeInput) :
    ∃ s' u' g, exec x.command s = .next s' ∧ exec x.command u = .next u' ∧ s'.resp = s.resp ++ g ∧
      u'.resp = u.resp ++ g ∧ Alike true s' u' := by
  obtain ⟨s', u', g, hs, hu, -, hgs, hgu, halike⟩ :=
    h.perform_own (encode_injective.ne x.command_ne_reset) (fun r => encode_injective.ne (x.command_ne_rdreg r))
      fun _ => rfl
  rw [performWord_encode] at hs hu
  exact ⟨s', u', g, hs, hu, hgs, hgu, halike⟩

theorem Alike.perform_dbit (h : Alike true s u) (hw : isDbitWord w = true) :
    ∃ s' u', performWord w s = .next s' ∧ performWord w u = .next u' ∧ Alike true s' u' ∧ SameSymbols s s' u u' := by
  obtain ⟨b, rfl⟩ : ∃ b, w = encode (.dbit b) := by
    simp only [isDbitWord, Bool.or_eq_true, beq_iff_eq] at hw
    exact hw.elim (fun h => ⟨_, h⟩) fun h => ⟨_, h⟩
  obtain ⟨s', u', g, hs, hu, hgs, hgu, halike⟩ := h.perform_decode (.digit b)
  rw [performWord_encode]
  exact ⟨s', u', hs, hu, halike, g, g, hgs, hgu, rfl⟩

end

/-- The words before the DEND, with the others and alone: the same symbols, and the same accumulator at the end. -/
theorem performWords_dbits_alike : ∀ (ws : List CmdWord) {s u : State}, Alike true s u →
    (∀ w ∈ ws, w ≠ encode .reset ∧ w ≠ encode .dend) →
    ∃ t v, performWords ws s = .next t ∧ performWords (ws.filter isDbitWord) u = .next v ∧ Alike true t v ∧
      SameSymbols s t u v
  | [], s, u, h, _ => ⟨s, u, rfl, rfl, h, [], [], by simp, by simp, rfl⟩
  | w :: ws, s, u, h, hws => by
    obtain ⟨⟨hreset, hdend⟩, hws⟩ := List.forall_mem_cons.mp hws
    cases hw : isDbitWord w with
    | true =>
      obtain ⟨s', u', hs, hu, halike, hsym⟩ := h.perform_dbit hw
      obtain ⟨t, v, ht, hv, hlast, hsyms⟩ := performWords_dbits_alike ws halike hws
      rw [List.filter_cons_of_pos hw]
      exact ⟨t, v, (performWords_cons hs).trans ht, (performWords_cons hu).trans hv, hlast, hsym.trans hsyms⟩
    | false =>
      obtain ⟨s', hs, halike, hsym⟩ := h.perform_interleaved hreset (by simp [isDecodeWord, hw, hdend])
      obtain ⟨t, v, ht, hv, hlast, hsyms⟩ := performWords_dbits_alike ws halike hws
      rw [List.filter_cons_of_neg (by simp [hw])]
      exact ⟨t, v, (performWords_cons hs).trans ht, hv, hlast, hsym.trans hsyms⟩

theorem performWords_keeps_inv {ws : List CmdWord} {s t : State} (h : Inv s) (ht : performWords ws s = .next t) :
    Inv t := by
  obtain ⟨t', -, ht', hinv, -⟩ := performWords_groups ws h
  cases ht'.symm.trans ht
  exact hinv

theorem performWords_then_dend {ws : List CmdWord} {s t t' : State} (h : performWords ws s = .next t)
    (hd : exec .dend t = .next t') : performWords (ws ++ [encode .dend]) s = .next t' := by
  rw [performWords_append h, performWords_cons ((congrFun (performWord_encode .dend) t).trans hd)]
  rfl

/-- DEND ends in DONE or in ERR(3, 0), with the decoder as at the start of a call (R149). -/
theorem exec_dend_ends {s : State} (h : Inv s) (hp : s.phase = .ready) :
    ∃ t r, exec .dend s = .next t ∧ t.resp = s.resp ++ [encodeResponse r] ∧ (r = .done ∨ r = .err 3#3 0) ∧
      t.acc = [] ∧ t.accovf = false ∧ t.phase = .ready := by
  by_cases ha : s.acc = []
  · exact ⟨_, .done, exec_dend_done hp ha, rfl, .inl rfl, ha, h.accovf_of_acc_nil ha, hp⟩
  · exact ⟨_, .err 3#3 0, exec_dend_malformed hp ha, rfl, .inr rfl, rfl, rfl, hp⟩

/-- The host's result is decided by the symbols and the last word. -/
theorem decodeResult_congr {rs rs' : List RespWord} (h : symbolPayloads rs = symbolPayloads rs') (r : RespWord) :
    decodeResult (rs ++ [r]) = decodeResult (rs' ++ [r]) := by
  simp [decodeResult, symbolPayloads_append, h]

/-- Settles O55: before the DEND the two runs have shown the same symbols and hold the same accumulator, which decides
how the DEND ends. -/
theorem decodeCallIsDecidedByItsDend : Obligations.DecodeCallIsDecidedByItsDend := by
  unfold Obligations.DecodeCallIsDecidedByItsDend
  intro ws s h hp hws
  obtain ⟨v, w, hv, hw, halike, rs, rs', hrv, hrw, hsym⟩ :=
    performWords_dbits_alike ws (u := s) ⟨hp, SameTables.refl s, fun _ => ⟨rfl, rfl⟩⟩ hws
  obtain ⟨t, u, g, ht, hu, hgt, hgu, -⟩ := halike.perform_decode .stop
  obtain ⟨t', r, ht', hrt, hend, hacc, hovf, hready⟩ := exec_dend_ends (performWords_keeps_inv h hv) halike.ready
  obtain rfl : t' = t := Host.Outcome.next.inj (ht'.symm.trans ht)
  obtain rfl : [encodeResponse r] = g := List.append_cancel_left (hrt.symm.trans hgt)
  have hresp : t'.resp = s.resp ++ (rs ++ [encodeResponse r]) := by rw [hgt, hrv, List.append_assoc]
  have hnt := newResponses_eq hresp
  have hnu : newResponses s u = rs' ++ [encodeResponse r] := newResponses_eq (by rw [hgu, hrw, List.append_assoc])
  refine ⟨t', u, performWords_then_dend hv ht, performWords_then_dend hw hu, ?_, ?_, hnt ▸ hresp, hacc, hovf, hready⟩
  · rw [hnt, hnu, decodeResult_congr hsym]
  · rw [hnt, hgt, List.getLast?_concat]
    rcases hend with rfl | rfl
    · exact .inl ⟨rfl, by rw [decodeResult_done, symbolPayloads_append, symbolPayloads_done, List.append_nil]⟩
    · exact .inr ⟨rfl, decodeResult_err _ _ _⟩

end Sys2Proof.Machine

/-! RDREG, RDFREQ, RDNODE and RDHEAP (spec 45_readout.md): every outcome of each, and that a read-out changes nothing
and repeats its answer (R164, spec 20_memory.md R66). -/

namespace Sys2Proof.Machine

/-! ### The register file (R40, R41) -/

/-- The values of the registers 0 to 8, in the order of their numbers (R40). -/
def registerFile (s : State) : List (BitVec 32) :=
  [statusWord s, s.lasterr.setWidth 32, s.errsym.setWidth 32, s.total, s.nleaf.setWidth 32, BitVec.ofNat 32 s.nnode,
    s.root.setWidth 32, BitVec.ofNat 32 s.heapn, BitVec.ofNat 32 s.acc.length]

theorem registerOperand_eq_getElem? (r : RegNum) (s : State) : registerOperand r s = (registerFile s)[r.toNat]? := by
  unfold registerOperand
  generalize r.toNat = k
  match k with
  | 0 | 1 | 2 | 3 | 4 | 5 | 6 | 7 | 8 => rfl
  | _ + 9 => rfl

/-- The numbers 9 to 15 name no register, in any state. -/
theorem registerOperand_eq_none_iff {r : RegNum} {s : State} : registerOperand r s = none ↔ 9 ≤ r.toNat := by
  rw [registerOperand_eq_getElem?, List.getElem?_eq_none_iff]
  rfl

theorem accne_eq (s : State) : accne s = decide (s.acc ≠ []) := by
  cases hacc : s.acc <;> simp [accne, hacc]

/-- The bits of a word that is laid out as STATUS is (R41). -/
theorem status_layout : ∀ (ovf ne : Bool) (p : BitVec 2),
    let w := ((BitVec.ofBool ovf ++ BitVec.ofBool ne) ++ p).setWidth 32
    w.extractLsb' 0 2 = p ∧ w[2] = ne ∧ w[3] = ovf ∧ w.extractLsb' 4 28 = 0#28 := by decide

/-! ### The outcomes of each read-out (R160 to R163) -/

section

variable {s : State}

theorem exec_rdreg_value {r : RegNum} {v : BitVec 32} (h : registerOperand r s = some v) :
    exec (.rdreg r) s = complete [.data v] s := by
  simp [exec, execRdreg, h]

theorem exec_rdreg_range {r : RegNum} (h : registerOperand r s = none) : exec (.rdreg r) s = raise .range s := by
  simp [exec, execRdreg, h]

theorem exec_rdfreq (c : Symbol) (s : State) : exec (.rdfreq c) s = complete [.data (tableGet s.freq c)] s := rfl

theorem exec_rdnode_node {i : NodeIdx} {n : Node} (h : nodeAt s.nodes i = some n) :
    exec (.rdnode i) s = complete (nodeResponses n) s := by
  simp [exec, execRdnode, nodeOperand, h]

theorem exec_rdnode_range {i : NodeIdx} (h : nodeAt s.nodes i = none) : exec (.rdnode i) s = raise .range s := by
  simp [exec, execRdnode, nodeOperand, h]

theorem exec_rdheap_slot {j n : NodeIdx} (h : s.heap[j.toNat]? = some n) :
    exec (.rdheap j) s = complete [.data (n.setWidth 32)] s := by
  simp [exec, execRdheap, heapOperand, h]

theorem exec_rdheap_range {j : NodeIdx} (h : s.heap[j.toNat]? = none) : exec (.rdheap j) s = raise .range s := by
  simp [exec, execRdheap, heapOperand, h]

end

/-! ### A read-out changes nothing and repeats its answer (R164, R66) -/

/-- The state with another LASTERR and another response stream. -/
def withLasterrResp (l : BitVec 3) (resp : List RespWord) (s : State) : State := { s with lasterr := l, resp := resp }

/-- What a read-out does in `s`: it raises an error that names no symbol, whatever LASTERR and the responses
are, or it completes with its responses, whatever the responses before them are. LASTERR stays fixed in the second case,
since RDREG 1 answers it. -/
def ReadsOut (i : Instr) (s : State) : Prop :=
  (∃ e, errsymAfter e s.errsym = s.errsym ∧
    ∀ l resp, exec i (withLasterrResp l resp s) = raise e (withLasterrResp l resp s)) ∨
  ∃ rs, ∀ resp, exec i (withLasterrResp s.lasterr resp s) = complete rs (withLasterrResp s.lasterr resp s)

theorem readsOut_rdreg (r : RegNum) (s : State) : ReadsOut (.rdreg r) s := by
  cases hr : registerOperand r s with
  | none =>
    exact .inl ⟨.range, rfl,
      fun _ _ => exec_rdreg_range (registerOperand_eq_none_iff.mpr (registerOperand_eq_none_iff.mp hr))⟩
  | some v => exact .inr ⟨[.data v], fun _ => exec_rdreg_value hr⟩

theorem readsOut_rdfreq (c : Symbol) (s : State) : ReadsOut (.rdfreq c) s :=
  .inr ⟨[.data (tableGet s.freq c)], fun _ => exec_rdfreq c _⟩

theorem readsOut_rdnode (i : NodeIdx) (s : State) : ReadsOut (.rdnode i) s := by
  cases hn : nodeAt s.nodes i with
  | none => exact .inl ⟨.range, rfl, fun _ _ => exec_rdnode_range hn⟩
  | some n => exact .inr ⟨nodeResponses n, fun _ => exec_rdnode_node hn⟩

theorem readsOut_rdheap (j : NodeIdx) (s : State) : ReadsOut (.rdheap j) s := by
  cases hj : s.heap[j.toNat]? with
  | none => exact .inl ⟨.range, rfl, fun _ _ => exec_rdheap_range hj⟩
  | some n => exact .inr ⟨[.data (n.setWidth 32)], fun _ => exec_rdheap_slot hj⟩

theorem readsOut_rdcode (c : Symbol) (s : State) : ReadsOut (.rdcode c) s := by
  by_cases hp : s.phase = .ready
  · exact .inr ⟨.data (BitVec.ofNat 32 (codeOf s.code c).length) :: bitResponses (codeOf s.code c),
      fun resp => exec_rdcode_ready (s := withLasterrResp s.lasterr resp s) hp c⟩
  · exact .inl ⟨.phaseError, rfl, fun _ _ => exec_rdcode_phaseError hp⟩

/-- A read-out ends in a state that differs in the responses, and on an error in LASTERR, and from there it gives the
same answer. -/
theorem ReadsOut.changes_nothing {i : Instr} {s t : State} (hi : ReadsOut i s) (h : exec i s = .next t) :
    t = withLasterrResp t.lasterr t.resp s ∧
    ((newResponses s t).all (fun r => !isErr r) = true → t.lasterr = s.lasterr) ∧
    ∃ u, exec i t = .next u ∧ newResponses t u = newResponses s t := by
  obtain ⟨e, hsym, hraise⟩ | ⟨rs, hcomplete⟩ := hi
  · obtain rfl : raiseState e s = t := Host.Outcome.next.inj ((hraise s.lasterr s.resp).symm.trans h)
    have hframe : raiseState e s = withLasterrResp (errCode e) (raiseState e s).resp s := by
      simp [raiseState, emitAll, withLasterrResp, hsym]
    have hnew (v : State) : newResponses v (raiseState e v) = [encodeResponse (.err (errCode e) (errInfo e))] :=
      newResponses_eq rfl
    refine ⟨hframe, fun hall => by simp [hnew, isErr_err] at hall, raiseState e (raiseState e s), ?_, ?_⟩
    · rw [hframe]; exact hraise _ _
    · rw [hnew, hnew]
  · obtain rfl : emitAll (rs ++ [Response.done]) s = t := Host.Outcome.next.inj ((hcomplete s.resp).symm.trans h)
    exact ⟨rfl, fun _ => rfl, _, hcomplete _, (newResponses_emitAll _ _).trans (newResponses_emitAll _ s).symm⟩

/-- Settles O48: each of the five commands reads out, in every state. -/
theorem readoutsChangeNothing : Obligations.ReadoutsChangeNothing := by
  unfold Obligations.ReadoutsChangeNothing
  intro i s t hi h
  have hreads : ReadsOut i s := by
    rcases hi with ⟨r, rfl⟩ | ⟨c, rfl⟩ | ⟨n, rfl⟩ | ⟨j, rfl⟩ | ⟨c, rfl⟩
    · exact readsOut_rdreg r s
    · exact readsOut_rdfreq c s
    · exact readsOut_rdnode n s
    · exact readsOut_rdheap j s
    · exact readsOut_rdcode c s
  exact hreads.changes_nothing h

/-! ### What each read-out answers (R160 to R163) -/

/-- Settles O44: the layout of STATUS, and the number as an index of the register file. -/
theorem rdregReadsTheRegister : Obligations.RdregReadsTheRegister := by
  unfold Obligations.RdregReadsTheRegister
  refine ⟨wordsMean_of_decode (by decide) fun w h => by simp [decode, h], fun s => ?_, fun r s => ⟨fun hr => ?_, ?_⟩⟩
  · rw [← accne_eq]
    exact status_layout s.accovf (accne s) (phaseCode s.phase)
  · exact exec_rdreg_range (registerOperand_eq_none_iff.mpr hr)
  · intro v hv
    have hvalue : (registerFile s)[r.toNat]? = some v := by
      simp only [List.mem_cons, Prod.mk.injEq, List.not_mem_nil, or_false] at hv
      rcases hv with ⟨hr, rfl⟩ | ⟨hr, rfl⟩ | ⟨hr, rfl⟩ | ⟨hr, rfl⟩ | ⟨hr, rfl⟩ | ⟨hr, rfl⟩ | ⟨hr, rfl⟩ | ⟨hr, rfl⟩ |
        ⟨hr, rfl⟩ <;> (rw [hr]; rfl)
    exact exec_rdreg_value ((registerOperand_eq_getElem? r s).trans hvalue)

/-- Settles O45: RDFREQ has one outcome. -/
theorem rdfreqReadsTheCount : Obligations.RdfreqReadsTheCount := by
  unfold Obligations.RdfreqReadsTheCount
  exact ⟨wordsMean_of_decode (by decide) fun w h => by simp [decode, h], exec_rdfreq⟩

/-- Settles O46: one equation per outcome. -/
theorem rdnodeReadsTheNode : Obligations.RdnodeReadsTheNode := by
  unfold Obligations.RdnodeReadsTheNode
  refine ⟨wordsMean_of_decode (by decide) fun w h => by simp [decode, h], fun i s => ?_⟩
  exact ⟨fun hi => exec_rdnode_range (List.getElem?_eq_none hi), fun _ _ hn => exec_rdnode_node hn,
    fun _ _ _ hn => exec_rdnode_node hn⟩

/-- Settles O47: one equation per outcome. -/
theorem rdheapReadsTheSlot : Obligations.RdheapReadsTheSlot := by
  unfold Obligations.RdheapReadsTheSlot
  refine ⟨wordsMean_of_decode (by decide) fun w h => by simp [decode, h], fun j s => ?_⟩
  exact ⟨fun hj => exec_rdheap_range (List.getElem?_eq_none hj), fun _ hn => exec_rdheap_slot hn⟩

end Sys2Proof.Machine

/-! Exceptions (spec 60_exceptions.md): what raising an error records (R180), the illegal word (R175), the phase table
(R176), the frame of a command that ends in ERR (R181), and the progress and the errors of a run (R191). -/

namespace Sys2Proof.Machine

/-! ### Raising an error (R180) -/

/-- An error that names no symbol leaves ERRSYM as it was, and its ERR word carries its code alone. -/
theorem raiseState_eq {e : ErrKind} {word : RespWord} (he : errCode e ≠ 2#3)
    (hword : encodeResponse (.err (errCode e) 0) = word) (s : State) :
    raiseState e s = { s with lasterr := errCode e, resp := s.resp ++ [word] } := by
  subst hword
  rw [raiseState, errInfo_eq_zero he, errsymAfter_eq, if_neg he]
  rfl

/-- Settles O11: one equation for the six errors that name no symbol, and the definition for the one that does. -/
theorem raiseRecordsTheError : Obligations.RaiseRecordsTheError := by
  unfold Obligations.RaiseRecordsTheError
  refine fun s => ⟨fun c => rfl, ?_⟩
  simp only [List.forall_mem_cons]
  exact ⟨raiseState_eq (by decide) (by decide) s, raiseState_eq (by decide) (by decide) s,
    raiseState_eq (by decide) (by decide) s, raiseState_eq (by decide) (by decide) s,
    raiseState_eq (by decide) (by decide) s, raiseState_eq (by decide) (by decide) s, nofun⟩

/-! ### The illegal word (R83, R175) -/

/-- The rows of the opcode map accept the words of the commands and no others. -/
theorem wordLegal_iff {w : CmdWord} : wordLegal w = true ↔ ∃ i, decode w = .ok i := by
  simp only [wordLegal, List.any_eq_true, OpRow.accepts, beq_iff_eq]
  constructor
  · rintro ⟨r, hr, h⟩
    obtain ⟨j, rfl⟩ := exists_opRow r hr
    obtain ⟨i, hi, -⟩ := exists_of_accepted j h
    exact ⟨i, hi⟩
  · rintro ⟨i, hi⟩
    exact ⟨opRow i, opRow_mem i, by rw [decode_eq_ok_iff.mp hi, encode_masked]⟩

/-- Settles O6: the words no row accepts are those the decoder refuses. -/
theorem illegalWordRaisesIllegalCommand : Obligations.IllegalWordRaisesIllegalCommand := by
  unfold Obligations.IllegalWordRaisesIllegalCommand
  refine fun w s => ⟨fun h => ?_, fun h => ?_⟩
  · cases hd : decode w with
    | ok i => exact absurd (wordLegal_iff.mpr ⟨i, hd⟩) (by simp [h])
    | error e =>
      rw [performWord_of_error hd]
      exact congrArg Host.Outcome.next (raiseState_eq (by decide) (by decide) s)
  · obtain ⟨i, hi⟩ := wordLegal_iff.mp h
    exact ⟨i, hi, performWord_of_ok hi s⟩

/-! ### The phase table (R176) -/

theorem eq_phaseError_of_errCode {e : ErrKind} (h : errCode e = 5#3) : e = .phaseError := by
  cases e with
  | phaseError => rfl
  | _ => simp [errCode] at h

/-- A command that the table refuses raises PhaseError. -/
theorem exec_refused {i : Instr} {s : State} (h : phaseAllows i s.phase s.heapn = false) :
    exec i s = .next (raiseState .phaseError s) := by
  cases i with
  | reset | rdreg | rdfreq | rdnode | rdheap => cases h
  | sym c => exact exec_sym_phaseError (beq_eq_false_iff_ne.mp h)
  | leaves => exact exec_leaves_phaseError (beq_eq_false_iff_ne.mp h)
  | build => exact exec_build_phaseError (beq_eq_false_iff_ne.mp h)
  | merge => exact exec_merge_phaseError (by simpa [phaseAllows, imp_iff_not_or] using h)
  | codegen => exact exec_codegen_phaseError (by simpa [phaseAllows, imp_iff_not_or] using h)
  | enc c => exact exec_enc_phaseError (beq_eq_false_iff_ne.mp h)
  | dbit b => exact exec_dbit_phaseError (beq_eq_false_iff_ne.mp h)
  | dend => exact exec_dend_phaseError (beq_eq_false_iff_ne.mp h)
  | rdcode c => exact exec_rdcode_phaseError (beq_eq_false_iff_ne.mp h)

/-- The outcome of a command performed in `s` is not that its one response is the word of PhaseError. -/
def NoPhaseError (s : State) (o : Out) : Prop := ∀ t, o = .next t → t.resp ≠ s.resp ++ [0x100000005#36]

section

variable {s u : State}

theorem noPhaseError_raise {e : ErrKind} (he : e ≠ .phaseError) (hu : u.resp = s.resp) :
    NoPhaseError s (raise e u) := by
  rintro t ⟨⟩ hresp
  rw [raiseState_resp, hu] at hresp
  have hword := List.singleton_inj.mp (List.append_cancel_left hresp)
  have hcode : errCode e = 5#3 := by rw [← payloadOf_err_code (errCode e) (errInfo e), hword]; decide
  exact he (eq_phaseError_of_errCode hcode)

theorem noPhaseError_complete (rs : List Response) (u : State) : NoPhaseError s (complete rs u) := by
  rintro t ⟨⟩ hresp
  have hlast := congrArg List.getLast? hresp
  rw [emitAll_resp, List.map_append, ← List.append_assoc] at hlast
  simp only [List.map_singleton, List.getLast?_concat, Option.some.injEq] at hlast
  exact absurd hlast (by decide)

theorem noPhaseError_completeBody (b : Except Fault State) : NoPhaseError s (completeBody b) := by
  cases b with
  | ok u => exact noPhaseError_complete [] u
  | error f => exact nofun

/-- A command that the table allows does not raise PhaseError: what it does past its test of the phase is to raise
another error or to complete. -/
theorem exec_allowed {i : Instr} (h : phaseAllows i s.phase s.heapn = true) : NoPhaseError s (exec i s) := by
  cases i with
  | reset => exact noPhaseError_complete [] _
  | rdfreq c => exact noPhaseError_complete _ s
  | rdreg x | rdnode x | rdheap x =>
    simp only [exec, execRdreg, execRdnode, execRdheap]
    split
    · exact noPhaseError_raise (by simp) rfl
    · exact noPhaseError_complete _ s
  | sym c =>
    have hp : s.phase = .count := beq_iff_eq.mp h
    rw [exec, execSym, if_neg (not_not_intro hp)]
    split
    · exact noPhaseError_raise (by simp) rfl
    · exact noPhaseError_complete _ _
  | leaves | build =>
    have hp : s.phase = .count := beq_iff_eq.mp h
    simp only [exec, execLeaves, execBuild]
    rw [if_neg (not_not_intro hp)]
    split
    · exact noPhaseError_raise (by simp) rfl
    · exact noPhaseError_completeBody _
  | merge =>
    obtain ⟨hp, h2⟩ : s.phase = .merge ∧ 2 ≤ s.heapn := by simpa [phaseAllows] using h
    rw [exec, execMerge, if_neg (not_or.mpr ⟨not_not_intro hp, Nat.not_lt.mpr h2⟩)]
    exact noPhaseError_completeBody _
  | codegen =>
    obtain ⟨hp, h1⟩ : s.phase = .merge ∧ s.heapn = 1 := by simpa [phaseAllows] using h
    rw [exec, execCodegen, if_neg (not_or.mpr ⟨not_not_intro hp, not_not_intro h1⟩)]
    exact noPhaseError_completeBody _
  | enc | dend =>
    have hp : s.phase = .ready := beq_iff_eq.mp h
    simp only [exec, execEnc, execDend]
    rw [if_neg (not_not_intro hp)]
    split
    · exact noPhaseError_raise (by simp) rfl
    · exact noPhaseError_complete _ _
  | dbit b =>
    have hp : s.phase = .ready := beq_iff_eq.mp h
    rw [exec, execDbit, if_neg (not_not_intro hp)]
    split
    · exact noPhaseError_complete _ _
    · split <;> exact noPhaseError_complete _ _
  | rdcode c =>
    have hp : s.phase = .ready := beq_iff_eq.mp h
    rw [exec, execRdcode, if_neg (not_not_intro hp)]
    split <;> exact noPhaseError_complete _ _

end

/-- Settles O15: a refused command raises PhaseError, and an allowed one another error or none. -/
theorem phaseTableDecidesPhaseError : Obligations.PhaseTableDecidesPhaseError := by
  unfold Obligations.PhaseTableDecidesPhaseError
  refine fun i s => ⟨fun h => ?_, exec_allowed⟩
  rw [exec_refused h]
  exact congrArg Host.Outcome.next (raiseState_eq (by decide) (by decide) s)

/-! ### The frame of an error (R181) -/

theorem eq_malformedBitstream_of_errCode {e : ErrKind} (h : errCode e = 3#3) : e = .malformedBitstream := by
  cases e with
  | malformedBitstream => rfl
  | _ => simp [errCode] at h

section

variable {s t : State} {r : RespWord}

/-- A word whose last response is an ERR word ends in ERR. -/
theorem endsInErr_of_last {w : CmdWord} (h : performWord w s = .next t) (hr : t.resp.getLast? = some r)
    (hisErr : isErr r = true) : EndsInErr s t :=
  (performWord_ends h).resolve_right fun hd => by simpa [endedInErr, hr, hisErr] using hd.endedInErr

/-- A command that ends in ERR writes LASTERR, ERRSYM and the accumulator only. -/
theorem EndsInErr.frame (h : EndsInErr s t) (hr : t.resp.getLast? = some r) :
    t = { s with lasterr := t.lasterr, errsym := t.errsym, acc := t.acc, accovf := t.accovf,
                 resp := s.resp ++ [r] } := by
  obtain ⟨e, he⟩ := h.resp
  obtain rfl : encodeResponse (.err (errCode e) (errInfo e)) = r := by simpa [he] using hr
  rw [← he]
  exact h.sameTables

/-- Only UnknownSymbolError, code 2, writes ERRSYM. -/
theorem EndsInErr.errsym_eq (h : EndsInErr s t) (hcode : t.lasterr ≠ 2#3) : t.errsym = s.errsym := by
  obtain ⟨e, hl, hs, -⟩ := h.registers
  rw [hs, errsymAfter_eq, if_neg (hl ▸ hcode)]

/-- Only MalformedBitstreamError, code 3, touches the accumulator, which it clears. -/
theorem EndsInErr.acc_cases (h : EndsInErr s t) :
    (t.lasterr ≠ 3#3 → t.acc = s.acc ∧ t.accovf = s.accovf) ∧ (t.lasterr = 3#3 → t.acc = [] ∧ t.accovf = false) := by
  obtain ⟨e, ⟨hne, rfl⟩ | ⟨rfl, rfl⟩⟩ := h
  · exact ⟨fun _ => ⟨rfl, rfl⟩, fun hcode => absurd (eq_malformedBitstream_of_errCode hcode) hne⟩
  · exact ⟨fun hcode => absurd rfl hcode, fun _ => ⟨rfl, rfl⟩⟩

end

/-- Settles O13: by what a command that ends in ERR leaves. -/
theorem errorsArePrecise : Obligations.ErrorsArePrecise := by
  unfold Obligations.ErrorsArePrecise
  intro w s t r h hr hisErr
  have he := endsInErr_of_last h hr hisErr
  exact ⟨he.frame hr, he.errsym_eq, he.acc_cases⟩

/-! ### Progress and the errors of a run (R191) -/

theorem performEvent_next {s : State} (h : Inv s) (e : HostEvent) : ∃ t, performEvent e s = .next t := by
  cases e with
  | word w => exact performWord_next h w
  | hardReset => exact ⟨_, rfl⟩

theorem step_next {s : State} (h : Inv s) : ∃ t, step s = .next t := by
  cases hp : s.port with
  | nil => exact ⟨s, step_idle hp⟩
  | cons e rest => rw [step_of_port hp]; exact performEvent_next (h.withPort rest) e

/-- Settles O20: only the bodies of the construction commands can fault, and where the invariant holds they do not. -/
theorem everyWordHasANextState : Obligations.EveryWordHasANextState := by
  unfold Obligations.EveryWordHasANextState
  exact ⟨fun _ w h => performWord_next h w, fun _ h => step_next h⟩

/-- LASTERR is 0 exactly when the responses so far hold no ERR word. -/
def LasterrTellsErrors (s : State) : Prop := noErrors s.resp = true ↔ s.lasterr = 0

theorem noErrors_append (rs rs' : List RespWord) : noErrors (rs ++ rs') = (noErrors rs && noErrors rs') := by
  simp [noErrors]

/-- A word other than RESET keeps LASTERR telling of errors: an ERR writes LASTERR, and a command that ends in DONE adds
no ERR word and leaves LASTERR. -/
theorem performWord_keeps_lasterrTellsErrors {w : CmdWord} {s t : State} (hs : LasterrTellsErrors s)
    (hw : decode w ≠ .ok .reset) (h : performWord w s = .next t) : LasterrTellsErrors t := by
  unfold LasterrTellsErrors at hs ⊢
  rcases performWord_ends h with he | hd
  · obtain ⟨e, hl, -, hr⟩ := he.registers
    rw [hr, hl, noErrors_append]
    exact iff_of_false (by simp [noErrors, isErr_err]) (errCode_ne_zero e)
  · have hne : ¬ EndsInErr s t := fun he => by simpa [hd.endedInErr] using he.endedInErr
    obtain ⟨rs, hdata, hr⟩ := hd.resp
    have hnew : noErrors (rs.map encodeResponse ++ [encodeResponse .done]) = true := by
      rw [← List.map_singleton, ← List.map_append]
      exact noErrors_responses fun r hr => (List.mem_append.mp hr).symm.imp List.mem_singleton.mp (hdata r)
    rw [hr, noErrors_append, hnew, Bool.and_true, hs, (performWord_keeps_lasterr h hne hw).1]

/-- A run without RESET keeps it too. -/
theorem performWords_keeps_lasterrTellsErrors : ∀ (ws : List CmdWord) {s t : State}, LasterrTellsErrors s →
    (∀ w ∈ ws, decode w ≠ .ok .reset) → performWords ws s = .next t → LasterrTellsErrors t
  | [], _, _, hs, _, h => Host.Outcome.next.inj h ▸ hs
  | w :: ws, s, t, hs, hws, h => by
    obtain ⟨hw, hws⟩ := List.forall_mem_cons.mp hws
    unfold performWords at h
    split at h
    · rename_i u hu
      exact performWords_keeps_lasterrTellsErrors ws (performWord_keeps_lasterrTellsErrors hs hw hu) hws h
    · cases h
    · cases h

/-- Settles O24: the reset state has no response and LASTERR 0. -/
theorem errorFreeRunLeavesLasterrZero : Obligations.ErrorFreeRunLeavesLasterrZero := by
  unfold Obligations.ErrorFreeRunLeavesLasterrZero
  intro ws t hws h
  exact performWords_keeps_lasterrTellsErrors ws (by simp [LasterrTellsErrors, noErrors, State.reset]) hws h

end Sys2Proof.Machine

namespace Sys2Proof.Machine

/-! ### Reset and the two ports (R200) -/

/-- Hardware reset leaves nothing of the state but what the host still presents: the reset state has no response. -/
theorem hardwareReset_eq (s : State) : hardwareReset s = { State.reset with port := s.port } := rfl

/-- The reset signal, like any event, is taken off the port, and the block is reset with the rest of it presented. -/
theorem step_of_hardReset {s : State} {rest : List HostEvent} (h : s.port = .hardReset :: rest) :
    step s = .next { State.reset with port := rest } :=
  calc step s = performEvent .hardReset { s with port := rest } := step_of_port h
    _ = .next (hardwareReset { s with port := rest }) := rfl
    _ = .next { State.reset with port := rest } := by rw [hardwareReset_eq]

/-- Settles O9: the reset signal empties the response stream, RESET adds DONE to it, and the reset state's port is
empty. -/
theorem hardwareResetEmptiesTheResponses : Obligations.HardwareResetEmptiesTheResponses := by
  unfold Obligations.HardwareResetEmptiesTheResponses
  refine ⟨fun s rest h => step_of_hardReset h, fun s => ?_, step_idle rfl⟩
  have hdone : encodeResponse .done = 0x000000000#36 := by decide
  rw [exec_reset, ← hdone]
  rfl

end Sys2Proof.Machine
